-- ==== Sys2Proof/Word.lean ====
section
/-! DEFINITION. The word types, the names of the two CPUs and the four channels, the shapes of a bus access, and the two
containers that hold one thing for each CPU and one for each channel. -/

namespace Sys2Proof

abbrev Byte := BitVec 8
abbrev Half := BitVec 16
abbrev Word := BitVec 32
abbrev DWord := BitVec 64

/-- The two CPUs (R6): CPU 0 is `primary`, CPU 1 is `secondary` (the constrained one). -/
inductive Cpu where
  | primary
  | secondary
  deriving DecidableEq, Repr

/-- The four DMA channels of one engine (R31). -/
inductive Chan where
  | ch0
  | ch1
  | ch2
  | ch3
  deriving DecidableEq, Repr

def Cpu.all : List Cpu := [.primary, .secondary]

/-- The number of a CPU (R6). -/
def Cpu.index : Cpu → Nat
  | .primary => 0
  | .secondary => 1

def Chan.all : List Chan := [.ch0, .ch1, .ch2, .ch3]

/-- The index of a channel (R31). -/
def Chan.index : Chan → Nat
  | .ch0 => 0
  | .ch1 => 1
  | .ch2 => 2
  | .ch3 => 3

/-- The widths of an access: 8, 16 or 32 bits (R50, R55). The unit of a DMA transfer is `half` or `word` (R76). -/
inductive Width where
  | byte
  | half
  | word
  deriving DecidableEq, Repr

/-- How many bytes an access moves (R52). -/
def Width.bytes : Width → Nat
  | .byte => 1
  | .half => 2
  | .word => 4

/-- The lane and the data of a register write (R52, R55). Every value is aligned: a word has lane 0, a half-word the lower
or the upper lane of its slot; a byte has any of the four lanes. -/
inductive WAccess where
  | word (data : Word)
  | half (upper : Bool) (data : Half)
  | byte (lane : BitVec 2) (data : Byte)
  deriving DecidableEq, Repr

/-- The lane of a register read (R52, R55). -/
inductive RAccess where
  | word
  | half (upper : Bool)
  | byte (lane : BitVec 2)
  deriving DecidableEq, Repr

/-- One thing for each CPU. -/
structure PerCpu (α : Type) where
  primary : α
  secondary : α
  deriving DecidableEq, Repr

def PerCpu.get {α : Type} (p : PerCpu α) : Cpu → α
  | .primary => p.primary
  | .secondary => p.secondary

def PerCpu.set {α : Type} (p : PerCpu α) (c : Cpu) (x : α) : PerCpu α :=
  match c with
  | .primary => { p with primary := x }
  | .secondary => { p with secondary := x }

/-- One thing for each channel. -/
structure PerChan (α : Type) where
  ch0 : α
  ch1 : α
  ch2 : α
  ch3 : α
  deriving DecidableEq, Repr

def PerChan.get {α : Type} (q : PerChan α) : Chan → α
  | .ch0 => q.ch0
  | .ch1 => q.ch1
  | .ch2 => q.ch2
  | .ch3 => q.ch3

def PerChan.set {α : Type} (q : PerChan α) (c : Chan) (x : α) : PerChan α :=
  match c with
  | .ch0 => { q with ch0 := x }
  | .ch1 => { q with ch1 := x }
  | .ch2 => { q with ch2 := x }
  | .ch3 => { q with ch3 := x }

end Sys2Proof
end

