-- ==== Sys2Proof/Config.lean ====
section
/-! DEFINITION. What the spec leaves to the implementation: the record of the parameters of R5, the constraints between
them, and the free values. The default values stand in Sys2Proof/Decode.lean. -/

namespace Sys2Proof

/-- The thirteen slots of the ArithmeticUnit (R83). -/
inductive AuReg where
  | divcnt
  | divNumerL
  | divNumerH
  | divDenomL
  | divDenomH
  | divResultL
  | divResultH
  | divremResultL
  | divremResultH
  | sqrtcnt
  | sqrtResult
  | sqrtParamL
  | sqrtParamH
  deriving DecidableEq, Repr

/-- The twenty-five register slots a CPU's bus may show (R83): the ArithmeticUnit's, and three for each channel of the CPU's
own engine. -/
inductive RegId where
  | au (r : AuReg)
  | sad (ch : Chan)
  | dad (ch : Chan)
  | cnt (ch : Chan)
  deriving DecidableEq, Repr

def AuReg.all : List AuReg :=
  [.divcnt, .divNumerL, .divNumerH, .divDenomL, .divDenomH, .divResultL, .divResultH, .divremResultL, .divremResultH,
   .sqrtcnt, .sqrtResult, .sqrtParamL, .sqrtParamH]

def RegId.all : List RegId :=
  AuReg.all.map .au ++ Chan.all.map .sad ++ Chan.all.map .dad ++ Chan.all.map .cnt

/-- The addresses of one channel's three registers. -/
structure DmaAddr where
  sad : Word
  dad : Word
  cnt : Word
  deriving DecidableEq, Repr

/-- The parameter REG_ADDR (R5, R59, R84): where each register stands. -/
structure RegMap where
  divcnt : Word
  divNumerL : Word
  divNumerH : Word
  divDenomL : Word
  divDenomH : Word
  divResultL : Word
  divResultH : Word
  divremResultL : Word
  divremResultH : Word
  sqrtcnt : Word
  sqrtResult : Word
  sqrtParamL : Word
  sqrtParamH : Word
  dma : PerChan DmaAddr
  deriving DecidableEq, Repr

def RegMap.au (m : RegMap) : AuReg → Word
  | .divcnt => m.divcnt
  | .divNumerL => m.divNumerL
  | .divNumerH => m.divNumerH
  | .divDenomL => m.divDenomL
  | .divDenomH => m.divDenomH
  | .divResultL => m.divResultL
  | .divResultH => m.divResultH
  | .divremResultL => m.divremResultL
  | .divremResultH => m.divremResultH
  | .sqrtcnt => m.sqrtcnt
  | .sqrtResult => m.sqrtResult
  | .sqrtParamL => m.sqrtParamL
  | .sqrtParamH => m.sqrtParamH

/-- The slot address of a register. -/
def RegMap.get (m : RegMap) : RegId → Word
  | .au r => m.au r
  | .sad ch => (m.dma.get ch).sad
  | .dad ch => (m.dma.get ch).dad
  | .cnt ch => (m.dma.get ch).cnt

/-- What the memory collaborator does with a unit whose address is not a multiple of the unit's size (R62, U7).
`oracle`: nothing is known of it, so the data read is a free value and the bytes near a written address become unknown.
`force`: it clears the low address bits. `refuse`: the model stops by name. Log 9. -/
inductive Unaligned where
  | oracle
  | force
  | refuse
  deriving DecidableEq, Repr

/-- The parameter RESET_RESULTS (R5, R251). -/
inductive ResetResults where
  | unspecified
  | zeros
  | consistent
  deriving DecidableEq, Repr

/-- A range of addresses in one CPU's memory view. -/
structure Window where
  cpu : Cpu
  base : Nat
  size : Nat
  deriving DecidableEq, Repr

/-- The parameters of R5, and three of the memory collaborator, of which R50, R60, R62 and R231 speak. -/
structure Config where
  /-- `ADDR_MASK_WIDE` -/
  addrMaskWide : Word
  /-- `ADDR_MASK_NARROW` -/
  addrMaskNarrow : Word
  /-- `CNT_MASK[1][ch]`; `CNT_MASK[0][ch]` is fixed by R4 and R152. -/
  cntMaskSecondary : PerChan Word
  /-- `MODE_GXFIFO` -/
  modeGxfifo : BitVec 3
  /-- `MODE_SPECIAL` -/
  modeSpecial : BitVec 3
  /-- the one channel of `AUDIO_FIFO_CHANNELS` -/
  audioA : Chan
  /-- the other channel of `AUDIO_FIFO_CHANNELS` -/
  audioB : Chan
  /-- `GXFIFO_BURST_MAX`; `none` is the spec's "none". -/
  gxfifoBurstMax : Option Nat
  /-- `GXFIFO_HOLD_WHEN_NOT_EMPTY` -/
  gxfifoHold : Bool
  /-- `SCHED_DELAY` -/
  schedDelay : Nat
  /-- `REG_ADDR` -/
  regMap : RegMap
  /-- whether CPU 0 is in `AU_ACCESS`, and whether CPU 1 is -/
  auAccess : PerCpu Bool
  /-- `BYTE_ACCESS` -/
  byteAccess : Bool
  /-- `RESET_RESULTS` -/
  resetResults : ResetResults
  /-- the collaborator's alignment behaviour (R62) -/
  unaligned : Unaligned
  /-- the windows of devices in the CPUs' memory views (R59, R60): reading there answers a free value, writing stores nothing
  (log 6) -/
  ports : List Window
  /-- the windows in which a CPU's view shows memory of its own; everywhere else the two views show the one memory that the
  CPUs share (R50, R231; log 5) -/
  own : List Window
  deriving DecidableEq, Repr

/-- Two registers never stand at one address, and each stands at a multiple of 4 (R52, R85). -/
def RegMap.wf (m : RegMap) : Bool :=
  RegId.all.all fun a =>
    m.get a &&& 3#32 == 0#32 && RegId.all.all fun b => m.get a != m.get b || a == b

/-- The constraints between the parameters that R5 states. -/
def Config.wf (c : Config) : Bool :=
  c.addrMaskNarrow &&& ~~~c.addrMaskWide == 0#32
  && c.addrMaskNarrow != c.addrMaskWide
  && Chan.all.all (fun ch => !(c.cntMaskSecondary.get ch).getLsbD 27)
  && (let m0 := c.cntMaskSecondary.ch0 &&& 0x1FFFFF#32
      let m3 := c.cntMaskSecondary.ch3 &&& 0x1FFFFF#32
      m0 &&& ~~~m3 == 0#32 && m0 != m3)
  && c.modeGxfifo != 0#3
  && c.modeSpecial != 0#3
  && c.modeSpecial != c.modeGxfifo
  && c.audioA != c.audioB
  && c.gxfifoBurstMax != some 0
  && c.regMap.wf

/-- The free values of this model (log 4, log 5): an uninterpreted sequence, read with the counter `freeCount` of State.
Nothing can be proved of any of its values. -/
opaque Config.freeValue : Nat → DWord

end Sys2Proof
end

