-- ==== Sys2Proof/Syntax.lean ====
section
/-! DEFINITION. The operations of the block: one constructor for each row of spec/opcode_table.json, in the table's order. -/

namespace Sys2Proof

/-- An operation. A register write or read names the CPU whose bus carries it and the lane it takes (and, for a write, the
data); an event names its arguments (R70). The trigger mode is a number in the numbering of its CPU (R78, R182). -/
inductive Instr where
  | wDivcnt (cpu : Cpu) (a : WAccess)
  | rDivcnt (cpu : Cpu) (a : RAccess)
  | wDivNumerL (cpu : Cpu) (a : WAccess)
  | rDivNumerL (cpu : Cpu) (a : RAccess)
  | wDivNumerH (cpu : Cpu) (a : WAccess)
  | rDivNumerH (cpu : Cpu) (a : RAccess)
  | wDivDenomL (cpu : Cpu) (a : WAccess)
  | rDivDenomL (cpu : Cpu) (a : RAccess)
  | wDivDenomH (cpu : Cpu) (a : WAccess)
  | rDivDenomH (cpu : Cpu) (a : RAccess)
  | wDivResultL (cpu : Cpu) (a : WAccess)
  | rDivResultL (cpu : Cpu) (a : RAccess)
  | wDivResultH (cpu : Cpu) (a : WAccess)
  | rDivResultH (cpu : Cpu) (a : RAccess)
  | wDivremResultL (cpu : Cpu) (a : WAccess)
  | rDivremResultL (cpu : Cpu) (a : RAccess)
  | wDivremResultH (cpu : Cpu) (a : WAccess)
  | rDivremResultH (cpu : Cpu) (a : RAccess)
  | wSqrtcnt (cpu : Cpu) (a : WAccess)
  | rSqrtcnt (cpu : Cpu) (a : RAccess)
  | wSqrtResult (cpu : Cpu) (a : WAccess)
  | rSqrtResult (cpu : Cpu) (a : RAccess)
  | wSqrtParamL (cpu : Cpu) (a : WAccess)
  | rSqrtParamL (cpu : Cpu) (a : RAccess)
  | wSqrtParamH (cpu : Cpu) (a : WAccess)
  | rSqrtParamH (cpu : Cpu) (a : RAccess)
  | wDma0Sad (cpu : Cpu) (a : WAccess)
  | rDma0Sad (cpu : Cpu) (a : RAccess)
  | wDma0Dad (cpu : Cpu) (a : WAccess)
  | rDma0Dad (cpu : Cpu) (a : RAccess)
  | wDma0Cnt (cpu : Cpu) (a : WAccess)
  | rDma0Cnt (cpu : Cpu) (a : RAccess)
  | wDma1Sad (cpu : Cpu) (a : WAccess)
  | rDma1Sad (cpu : Cpu) (a : RAccess)
  | wDma1Dad (cpu : Cpu) (a : WAccess)
  | rDma1Dad (cpu : Cpu) (a : RAccess)
  | wDma1Cnt (cpu : Cpu) (a : WAccess)
  | rDma1Cnt (cpu : Cpu) (a : RAccess)
  | wDma2Sad (cpu : Cpu) (a : WAccess)
  | rDma2Sad (cpu : Cpu) (a : RAccess)
  | wDma2Dad (cpu : Cpu) (a : WAccess)
  | rDma2Dad (cpu : Cpu) (a : RAccess)
  | wDma2Cnt (cpu : Cpu) (a : WAccess)
  | rDma2Cnt (cpu : Cpu) (a : RAccess)
  | wDma3Sad (cpu : Cpu) (a : WAccess)
  | rDma3Sad (cpu : Cpu) (a : RAccess)
  | wDma3Dad (cpu : Cpu) (a : WAccess)
  | rDma3Dad (cpu : Cpu) (a : RAccess)
  | wDma3Cnt (cpu : Cpu) (a : WAccess)
  | rDma3Cnt (cpu : Cpu) (a : RAccess)
  | trigger (cpu : Cpu) (mode : Word) (channelMask : BitVec 4)
  | dispatch (cpu : Cpu) (ch : Chan)
  | reset
  deriving DecidableEq, Repr

end Sys2Proof
end

