-- ==== Sys2Proof/WellFormed.lean ====
section
/-! DEFINITION. The format of each operation, and which operations a CPU's bus can give under a configuration. Alignment needs no
check here: the two access types hold aligned accesses only (R55). -/

namespace Sys2Proof

/-- An 8-bit access is admitted only where `BYTE_ACCESS` is true (R55). -/
def WAccess.admitted (c : Config) : WAccess → Bool
  | .word _ => true
  | .half _ _ => true
  | .byte _ _ => c.byteAccess

def RAccess.admitted (c : Config) : RAccess → Bool
  | .word => true
  | .half _ => true
  | .byte _ => c.byteAccess

/-- The ArithmeticUnit is reached by the CPUs in `AU_ACCESS` only; a DMA register by either CPU (R84, R85). -/
def RegId.reachable (c : Config) (cpu : Cpu) : RegId → Bool
  | .au _ => c.auAccess.get cpu
  | .sad _ => true
  | .dad _ => true
  | .cnt _ => true

/-- The format of an operation with its operands (R70): which register a write or a read addresses, or which event it is. -/
inductive Form where
  | write (id : RegId) (cpu : Cpu) (a : WAccess)
  | read (id : RegId) (cpu : Cpu) (a : RAccess)
  | trigger (cpu : Cpu) (mode : Word) (channelMask : BitVec 4)
  | dispatch (cpu : Cpu) (ch : Chan)
  | reset
  deriving DecidableEq, Repr

/-- The format of each row of the opcode table (R83). -/
def Instr.form : Instr → Form
  | .wDivcnt cpu a => .write (.au .divcnt) cpu a
  | .rDivcnt cpu a => .read (.au .divcnt) cpu a
  | .wDivNumerL cpu a => .write (.au .divNumerL) cpu a
  | .rDivNumerL cpu a => .read (.au .divNumerL) cpu a
  | .wDivNumerH cpu a => .write (.au .divNumerH) cpu a
  | .rDivNumerH cpu a => .read (.au .divNumerH) cpu a
  | .wDivDenomL cpu a => .write (.au .divDenomL) cpu a
  | .rDivDenomL cpu a => .read (.au .divDenomL) cpu a
  | .wDivDenomH cpu a => .write (.au .divDenomH) cpu a
  | .rDivDenomH cpu a => .read (.au .divDenomH) cpu a
  | .wDivResultL cpu a => .write (.au .divResultL) cpu a
  | .rDivResultL cpu a => .read (.au .divResultL) cpu a
  | .wDivResultH cpu a => .write (.au .divResultH) cpu a
  | .rDivResultH cpu a => .read (.au .divResultH) cpu a
  | .wDivremResultL cpu a => .write (.au .divremResultL) cpu a
  | .rDivremResultL cpu a => .read (.au .divremResultL) cpu a
  | .wDivremResultH cpu a => .write (.au .divremResultH) cpu a
  | .rDivremResultH cpu a => .read (.au .divremResultH) cpu a
  | .wSqrtcnt cpu a => .write (.au .sqrtcnt) cpu a
  | .rSqrtcnt cpu a => .read (.au .sqrtcnt) cpu a
  | .wSqrtResult cpu a => .write (.au .sqrtResult) cpu a
  | .rSqrtResult cpu a => .read (.au .sqrtResult) cpu a
  | .wSqrtParamL cpu a => .write (.au .sqrtParamL) cpu a
  | .rSqrtParamL cpu a => .read (.au .sqrtParamL) cpu a
  | .wSqrtParamH cpu a => .write (.au .sqrtParamH) cpu a
  | .rSqrtParamH cpu a => .read (.au .sqrtParamH) cpu a
  | .wDma0Sad cpu a => .write (.sad .ch0) cpu a
  | .rDma0Sad cpu a => .read (.sad .ch0) cpu a
  | .wDma0Dad cpu a => .write (.dad .ch0) cpu a
  | .rDma0Dad cpu a => .read (.dad .ch0) cpu a
  | .wDma0Cnt cpu a => .write (.cnt .ch0) cpu a
  | .rDma0Cnt cpu a => .read (.cnt .ch0) cpu a
  | .wDma1Sad cpu a => .write (.sad .ch1) cpu a
  | .rDma1Sad cpu a => .read (.sad .ch1) cpu a
  | .wDma1Dad cpu a => .write (.dad .ch1) cpu a
  | .rDma1Dad cpu a => .read (.dad .ch1) cpu a
  | .wDma1Cnt cpu a => .write (.cnt .ch1) cpu a
  | .rDma1Cnt cpu a => .read (.cnt .ch1) cpu a
  | .wDma2Sad cpu a => .write (.sad .ch2) cpu a
  | .rDma2Sad cpu a => .read (.sad .ch2) cpu a
  | .wDma2Dad cpu a => .write (.dad .ch2) cpu a
  | .rDma2Dad cpu a => .read (.dad .ch2) cpu a
  | .wDma2Cnt cpu a => .write (.cnt .ch2) cpu a
  | .rDma2Cnt cpu a => .read (.cnt .ch2) cpu a
  | .wDma3Sad cpu a => .write (.sad .ch3) cpu a
  | .rDma3Sad cpu a => .read (.sad .ch3) cpu a
  | .wDma3Dad cpu a => .write (.dad .ch3) cpu a
  | .rDma3Dad cpu a => .read (.dad .ch3) cpu a
  | .wDma3Cnt cpu a => .write (.cnt .ch3) cpu a
  | .rDma3Cnt cpu a => .read (.cnt .ch3) cpu a
  | .trigger cpu mode channelMask => .trigger cpu mode channelMask
  | .dispatch cpu ch => .dispatch cpu ch
  | .reset => .reset

def Form.wf (c : Config) : Form → Bool
  | .write id cpu a => id.reachable c cpu && a.admitted c
  | .read id cpu a => id.reachable c cpu && a.admitted c
  | .trigger _ _ _ => true
  | .dispatch _ _ => true
  | .reset => true

/-- The operation is one that a bus access or an event stands for under the configuration. -/
def Instr.wf (c : Config) (i : Instr) : Bool := i.form.wf c

end Sys2Proof
end

