-- ==== Sys2Proof/Decode.lean ====
section
/-! DEFINITION. Decoding a bus access or an event into an operation (R82, R85), the encoder that goes the other way, the
numbering of requests as words, and the default values of the parameters (R5, R84). -/

namespace Sys2Proof

/-- Why a request stands for no operation of this block. -/
inductive Reject where
  /-- The word's format code is none of R70's three formats' (the model's own numbering, log 1). -/
  | unknownFormat
  /-- The word names neither of the two CPUs (log 1). -/
  | unknownCpu
  /-- The word names none of the three access widths (log 1). -/
  | unknownWidth
  /-- The word names none of the four channels (log 1). -/
  | unknownChannel
  /-- A 16-bit access at an odd address or a 32-bit access that is not at a multiple of 4 (R55). -/
  | misaligned
  /-- An 8-bit access while BYTE_ACCESS is false (R55). -/
  | byteAccess
  /-- No register of this block that the CPU reaches stands at the slot (R85). -/
  | notThisBlock
  deriving DecidableEq, Repr

/-- What an agent asks of the block: the encoding tuples of R70 and R88. `malformed` is a word of log 1's numbering that
stands for none of them, with the reason. -/
inductive Request where
  | regw (cpu : Cpu) (addr : Word) (w : Width) (data : Word)
  | regr (cpu : Cpu) (addr : Word) (w : Width)
  | trigger (cpu : Cpu) (mode : Word) (channelMask : BitVec 4)
  | dispatch (cpu : Cpu) (ch : Chan)
  | reset
  | malformed (why : Reject)
  deriving DecidableEq, Repr

/-- The address of the 32-bit slot an address lies in (R52). -/
def slotOf (addr : Word) : Word := addr &&& 0xFFFFFFFC#32

/-- The two low address bits, which select the lane (R82, R84). -/
def laneOf (addr : Word) : BitVec 2 := addr.setWidth 2

/-- The lane and the data of a register write of width `w` (R55, R82); the data are the low `8w` bits. -/
def writeLane (c : Config) (w : Width) (k : BitVec 2) (data : Word) : Except Reject WAccess :=
  match w with
  | .word => if k = 0#2 then .ok (.word data) else .error .misaligned
  | .half =>
    if k = 0#2 then .ok (.half false (data.setWidth 16))
    else if k = 2#2 then .ok (.half true (data.setWidth 16))
    else .error .misaligned
  | .byte => if c.byteAccess then .ok (.byte k (data.setWidth 8)) else .error .byteAccess

/-- The lane of a register read of width `w` (R55, R82). -/
def readLane (c : Config) (w : Width) (k : BitVec 2) : Except Reject RAccess :=
  match w with
  | .word => if k = 0#2 then .ok .word else .error .misaligned
  | .half =>
    if k = 0#2 then .ok (.half false)
    else if k = 2#2 then .ok (.half true)
    else .error .misaligned
  | .byte => if c.byteAccess then .ok (.byte k) else .error .byteAccess

/-- The register that stands at a slot address and that the CPU reaches (R85). -/
def regAt (c : Config) (cpu : Cpu) (slot : Word) : Option RegId :=
  RegId.all.find? fun id => c.regMap.get id == slot && id.reachable c cpu

/-- The write operation `W.<id>` of a register (R85). -/
def Instr.ofWrite (cpu : Cpu) (a : WAccess) : RegId → Instr
  | .au .divcnt => .wDivcnt cpu a
  | .au .divNumerL => .wDivNumerL cpu a
  | .au .divNumerH => .wDivNumerH cpu a
  | .au .divDenomL => .wDivDenomL cpu a
  | .au .divDenomH => .wDivDenomH cpu a
  | .au .divResultL => .wDivResultL cpu a
  | .au .divResultH => .wDivResultH cpu a
  | .au .divremResultL => .wDivremResultL cpu a
  | .au .divremResultH => .wDivremResultH cpu a
  | .au .sqrtcnt => .wSqrtcnt cpu a
  | .au .sqrtResult => .wSqrtResult cpu a
  | .au .sqrtParamL => .wSqrtParamL cpu a
  | .au .sqrtParamH => .wSqrtParamH cpu a
  | .sad .ch0 => .wDma0Sad cpu a
  | .dad .ch0 => .wDma0Dad cpu a
  | .cnt .ch0 => .wDma0Cnt cpu a
  | .sad .ch1 => .wDma1Sad cpu a
  | .dad .ch1 => .wDma1Dad cpu a
  | .cnt .ch1 => .wDma1Cnt cpu a
  | .sad .ch2 => .wDma2Sad cpu a
  | .dad .ch2 => .wDma2Dad cpu a
  | .cnt .ch2 => .wDma2Cnt cpu a
  | .sad .ch3 => .wDma3Sad cpu a
  | .dad .ch3 => .wDma3Dad cpu a
  | .cnt .ch3 => .wDma3Cnt cpu a

/-- The read operation `R.<id>` of a register (R85). -/
def Instr.ofRead (cpu : Cpu) (a : RAccess) : RegId → Instr
  | .au .divcnt => .rDivcnt cpu a
  | .au .divNumerL => .rDivNumerL cpu a
  | .au .divNumerH => .rDivNumerH cpu a
  | .au .divDenomL => .rDivDenomL cpu a
  | .au .divDenomH => .rDivDenomH cpu a
  | .au .divResultL => .rDivResultL cpu a
  | .au .divResultH => .rDivResultH cpu a
  | .au .divremResultL => .rDivremResultL cpu a
  | .au .divremResultH => .rDivremResultH cpu a
  | .au .sqrtcnt => .rSqrtcnt cpu a
  | .au .sqrtResult => .rSqrtResult cpu a
  | .au .sqrtParamL => .rSqrtParamL cpu a
  | .au .sqrtParamH => .rSqrtParamH cpu a
  | .sad .ch0 => .rDma0Sad cpu a
  | .dad .ch0 => .rDma0Dad cpu a
  | .cnt .ch0 => .rDma0Cnt cpu a
  | .sad .ch1 => .rDma1Sad cpu a
  | .dad .ch1 => .rDma1Dad cpu a
  | .cnt .ch1 => .rDma1Cnt cpu a
  | .sad .ch2 => .rDma2Sad cpu a
  | .dad .ch2 => .rDma2Dad cpu a
  | .cnt .ch2 => .rDma2Cnt cpu a
  | .sad .ch3 => .rDma3Sad cpu a
  | .dad .ch3 => .rDma3Dad cpu a
  | .cnt .ch3 => .rDma3Cnt cpu a

/-- The operation a request stands for, or why it stands for none (R82, R85): width and alignment first, then the slot. -/
def decode (c : Config) : Request → Except Reject Instr
  | .regw cpu addr w data =>
    match writeLane c w (laneOf addr) data with
    | .error e => .error e
    | .ok a =>
      match regAt c cpu (slotOf addr) with
      | none => .error .notThisBlock
      | some id => .ok (Instr.ofWrite cpu a id)
  | .regr cpu addr w =>
    match readLane c w (laneOf addr) with
    | .error e => .error e
    | .ok a =>
      match regAt c cpu (slotOf addr) with
      | none => .error .notThisBlock
      | some id => .ok (Instr.ofRead cpu a id)
  | .trigger cpu mode channelMask => .ok (.trigger cpu mode channelMask)
  | .dispatch cpu ch => .ok (.dispatch cpu ch)
  | .reset => .ok .reset
  | .malformed e => .error e

/-- The lane bits of an access (R52). -/
def WAccess.lane : WAccess → BitVec 2
  | .word _ => 0#2
  | .half upper _ => if upper then 2#2 else 0#2
  | .byte k _ => k

def WAccess.width : WAccess → Width
  | .word _ => .word
  | .half _ _ => .half
  | .byte _ _ => .byte

/-- The data of a write, zero-extended to 32 bits. -/
def WAccess.data : WAccess → Word
  | .word d => d
  | .half _ d => d.setWidth 32
  | .byte _ d => d.setWidth 32

def RAccess.lane : RAccess → BitVec 2
  | .word => 0#2
  | .half upper => if upper then 2#2 else 0#2
  | .byte k => k

def RAccess.width : RAccess → Width
  | .word => .word
  | .half _ => .half
  | .byte _ => .byte

/-- The address of an access: its register's slot with the lane in the two low bits (R84, R88). -/
def addrOf (c : Config) (id : RegId) (k : BitVec 2) : Word := c.regMap.get id ||| k.setWidth 32

/-- The request that stands for an operation (R88). -/
def encode (c : Config) (i : Instr) : Request :=
  match i.form with
  | .write id cpu a => .regw cpu (addrOf c id a.lane) a.width a.data
  | .read id cpu a => .regr cpu (addrOf c id a.lane) a.width
  | .trigger cpu mode channelMask => .trigger cpu mode channelMask
  | .dispatch cpu ch => .dispatch cpu ch
  | .reset => .reset

/-! The numbering of requests as 96-bit words, which the spec does not give (log 1). Bits 31:0 hold the address (or the
trigger mode), as spec/opcode_table.json numbers them; 63:32 the data (or the channel mask); 71:64 the format; 79:72 the
CPU; 87:80 the width (or the channel). All other bits are ignored. -/

def Cpu.code : Cpu → Byte
  | .primary => 0#8
  | .secondary => 1#8

def Cpu.ofCode (b : Byte) : Option Cpu :=
  if b = 0#8 then some .primary else if b = 1#8 then some .secondary else none

def Width.code : Width → Byte
  | .word => 0#8
  | .half => 1#8
  | .byte => 2#8

def Width.ofCode (b : Byte) : Option Width :=
  if b = 0#8 then some .word else if b = 1#8 then some .half else if b = 2#8 then some .byte else none

def Chan.code : Chan → Byte
  | .ch0 => 0#8
  | .ch1 => 1#8
  | .ch2 => 2#8
  | .ch3 => 3#8

def Chan.ofCode (b : Byte) : Option Chan :=
  if b = 0#8 then some .ch0 else if b = 1#8 then some .ch1
  else if b = 2#8 then some .ch2 else if b = 3#8 then some .ch3 else none

/-- The word with the given fields. -/
def packWord (lo mid : Word) (format cpu aux : Byte) : BitVec 96 :=
  0#8 ++ aux ++ cpu ++ format ++ mid ++ lo

/-- The word of a request (log 1). -/
def Request.toWord : Request → BitVec 96
  | .regw cpu addr w data => packWord addr data 0#8 cpu.code w.code
  | .regr cpu addr w => packWord addr 0#32 1#8 cpu.code w.code
  | .trigger cpu mode channelMask => packWord mode (channelMask.setWidth 32) 2#8 cpu.code 0#8
  | .dispatch cpu ch => packWord 0#32 0#32 3#8 cpu.code ch.code
  | .reset => packWord 0#32 0#32 4#8 0#8 0#8
  | .malformed _ => packWord 0#32 0#32 0xFF#8 0#8 0#8

/-- The request a word stands for, or why it stands for none (log 1). -/
def Request.ofWord (v : BitVec 96) : Request :=
  let lo := v.extractLsb' 0 32
  let mid := v.extractLsb' 32 32
  let format := v.extractLsb' 64 8
  let aux := v.extractLsb' 80 8
  if format = 4#8 then .reset
  else if format = 0#8 ∨ format = 1#8 ∨ format = 2#8 ∨ format = 3#8 then
    match Cpu.ofCode (v.extractLsb' 72 8) with
    | none => .malformed .unknownCpu
    | some cpu =>
      if format = 2#8 then .trigger cpu lo (mid.setWidth 4)
      else if format = 3#8 then
        match Chan.ofCode aux with
        | none => .malformed .unknownChannel
        | some ch => .dispatch cpu ch
      else
        match Width.ofCode aux with
        | none => .malformed .unknownWidth
        | some w => if format = 0#8 then .regw cpu lo w mid else .regr cpu lo w
  else .malformed .unknownFormat

/-- Decoding and encoding as words. -/
def decodeWord (c : Config) (v : BitVec 96) : Except Reject Instr := decode c (Request.ofWord v)

def encodeWord (c : Config) (i : Instr) : BitVec 96 := (encode c i).toWord

/-! The default values of the parameters: R5 and R84, most of them the spec's general knowledge of the platform (log 12). -/

/-- `DMAnSAD`, `DMAnDAD`, `DMAnCNT` of the default map (R84). -/
def defaultDmaAddr (n : Nat) : DmaAddr where
  sad := 0x040000B0#32 + BitVec.ofNat 32 (12 * n)
  dad := 0x040000B4#32 + BitVec.ofNat 32 (12 * n)
  cnt := 0x040000B8#32 + BitVec.ofNat 32 (12 * n)

/-- The default of REG_ADDR (R84). -/
def defaultRegMap : RegMap where
  divcnt := 0x04000280#32
  divNumerL := 0x04000290#32
  divNumerH := 0x04000294#32
  divDenomL := 0x04000298#32
  divDenomH := 0x0400029C#32
  divResultL := 0x040002A0#32
  divResultH := 0x040002A4#32
  divremResultL := 0x040002A8#32
  divremResultH := 0x040002AC#32
  sqrtcnt := 0x040002B0#32
  sqrtResult := 0x040002B4#32
  sqrtParamL := 0x040002B8#32
  sqrtParamH := 0x040002BC#32
  dma := ⟨defaultDmaAddr 0, defaultDmaAddr 1, defaultDmaAddr 2, defaultDmaAddr 3⟩

/-- The defaults of R5. The last three are the model's own (log 9, log 6, log 5). -/
def defaultConfig : Config where
  addrMaskWide := 0x0FFFFFFF#32
  addrMaskNarrow := 0x07FFFFFF#32
  cntMaskSecondary := ⟨0xF7E03FFF#32, 0xF7E03FFF#32, 0xF7E03FFF#32, 0xF7E0FFFF#32⟩
  modeGxfifo := 7#3
  modeSpecial := 6#3
  audioA := .ch1
  audioB := .ch2
  gxfifoBurstMax := some 112
  gxfifoHold := false
  schedDelay := 1
  regMap := defaultRegMap
  auAccess := ⟨true, false⟩
  byteAccess := false
  resetResults := .unspecified
  unaligned := .oracle
  ports := []
  own := []

/-- The request of a word of `nbits` bits numbered as spec/opcode_table.json numbers them; every bit above is 0 (log 1). -/
def wordRequest (nbits w : Nat) : Request := Request.ofWord (BitVec.ofNat 96 (w % 2 ^ nbits))

/-- The operation the decoder reads from such a word under the default configuration. -/
def decodeTableWord (nbits w : Nat) : Option Instr :=
  match decode defaultConfig (wordRequest nbits w) with
  | .ok i => some i
  | .error _ => none

end Sys2Proof
end

