-- ==== Sys2Proof/Machine/State.lean ====
section
/-! DEFINITION. The state of the block, the reasons a step can stop, and the state after reset. -/

namespace Sys2Proof.Machine

/-- The eight registers of the ArithmeticUnit (R20 to R29). -/
structure ArithmeticUnit where
  divControl : Half
  divNumerator : DWord
  divDenominator : DWord
  divResult : DWord
  divRemainder : DWord
  sqrtControl : Half
  sqrtParameter : DWord
  sqrtResult : Word
  deriving DecidableEq, Repr

/-- One DMA channel: three configuration registers and three shadow registers, and nothing else (R31 to R37). -/
structure Channel where
  sourceAddr : Word
  destAddr : Word
  control : Word
  currentSrc : Word
  currentDst : Word
  remainingWords : BitVec 21
  deriving DecidableEq, Repr

/-- A memory: the bytes the model knows, by address (log 5). An address that is not listed has no value of its own; MemRead
answers a free value there. -/
abbrev Memory := List Host.Cell

/-- Addresses rise strictly from `lo` on and stay below 2^32. -/
def Memory.rising : Nat → Memory → Bool
  | _, [] => true
  | lo, (a, _) :: m => decide (lo ≤ a) && decide (a < 2 ^ 32) && Memory.rising (a + 1) m

/-- The canonical form of a memory. An unlisted address reads as no fixed value, so no entry can equal it (log 5). -/
def Memory.wf (m : Memory) : Bool := Memory.rising 0 m

/-- Which memory a byte of a CPU's view stands in: the one both CPUs share (R231), or one of that CPU's own (log 5). -/
inductive Home where
  | shared
  | own (cpu : Cpu)
  deriving DecidableEq, Repr

/-- System memory: the memory the CPUs share, and each CPU's own (R50, R231; log 5). -/
structure Store where
  shared : Memory
  own : PerCpu Memory
  deriving DecidableEq, Repr

def Store.get (m : Store) : Home → Memory
  | .shared => m.shared
  | .own cpu => m.own.get cpu

def Store.set (m : Store) (h : Home) (x : Memory) : Store :=
  match h with
  | .shared => { m with shared := x }
  | .own cpu => { m with own := m.own.set cpu x }

/-- A change of one byte of a CPU's memory view that the outside made between two steps; `none` forgets the byte (log 7). -/
structure Poke where
  cpu : Cpu
  addr : Word
  value : Option Byte
  deriving DecidableEq, Repr

/-- One step of an agent (R3): what the outside did to memory before it, what the graphics FIFO answers during it (R65), and
what the agent asks (log 2). -/
structure Stimulus where
  outside : List Poke
  fifoHalfEmpty : Bool
  request : Request
  deriving DecidableEq, Repr

/-- What the block sends out (log 15): the data of a register read, zero-extended to 32 bits (R82), and its calls to its
collaborators (R60, R61, R63, R64). -/
inductive Event where
  | readData (cpu : Cpu) (w : Width) (value : Word)
  | memRead (cpu : Cpu) (addr : Word) (w : Width) (value : Word)
  | memWrite (cpu : Cpu) (addr : Word) (w : Width) (value : Word)
  | schedule (cpu : Cpu) (ch : Chan) (delay : Nat)
  | irq (cpu : Cpu) (line : Nat)
  deriving DecidableEq, Repr

/-- The state: the block's registers, the scheduler's pending tasks, the outside as far as a step reads it, and the model's
own bookkeeping. -/
structure State where
  /-- the ArithmeticUnit (R20) -/
  au : ArithmeticUnit
  /-- the two DmaEngines (R31) -/
  dma : PerCpu (PerChan Channel)
  /-- how often the task `(cpu, ch)` is pending (R44) -/
  pending : PerCpu (PerChan Nat)
  /-- system memory, which the two CPUs' views show (R50, R60, R61, R231; log 5) -/
  mem : Store
  /-- `COMPAT` (R66), never changed by a step (log 18) -/
  compat : Bool
  /-- the answer of `GxFifoHalfEmpty()` in the present step (R65; log 17) -/
  fifoHalfEmpty : Bool
  /-- the parameters of R5, never changed by a step (log 12) -/
  cfg : Config
  /-- the steps the agents will take, oldest first (log 2) -/
  inbox : List Stimulus
  /-- what the block has sent out, newest first (log 15) -/
  trace : List Event
  /-- how many free values have been drawn (log 4) -/
  freeCount : Nat
  deriving DecidableEq, Repr

/-- The faults of the machine: there is none. "The set of synchronous exceptions of the block is empty" (R220), so no
meaning can raise one. Safe and unsafe do not arise. -/
inductive Fault where
  deriving DecidableEq, Repr

/-- The reasons the model gives no meaning. None is a behaviour of the hardware (R220). -/
inductive Refusal where
  /-- Raised by an arm of exec for an operation that has no meaning yet; no arm does. Safe. -/
  | notModelled (mnemonic : String)
  /-- Raised by step where a request stands for no operation of this block (R55, R85). Safe: the model says nothing there. -/
  | rejected (why : Reject)
  /-- Raised by DISPATCH for a pair with no pending task, which the scheduler never dispatches (R183). Safe. -/
  | dispatchNotPending
  /-- Raised by DISPATCH where a unit of the burst lands on a DMA register of either engine (R202). Safe. -/
  | dmaRegisterInBurst
  /-- Raised by DISPATCH for a unit whose address is not a multiple of its size, under the parameter value that refuses it
  (R62; log 9). Safe. -/
  | unalignedUnit
  /-- Raised by DISPATCH where an unaligned unit touches a register slot of this block, an access R55 gives no meaning
  (log 10). Safe. -/
  | unalignedRegisterUnit
  deriving DecidableEq, Repr

/-- The ArithmeticUnit after reset (R47); the unspecified results and the unspecified flag are 0 here (log 3). -/
def ArithmeticUnit.reset : ArithmeticUnit where
  divControl := 0#16
  divNumerator := 0#64
  divDenominator := 0#64
  divResult := 0#64
  divRemainder := 0#64
  sqrtControl := 0#16
  sqrtParameter := 0#64
  sqrtResult := 0#32

/-- A channel after reset (R47); the unspecified shadow registers are 0 here (log 3). -/
def Channel.reset : Channel where
  sourceAddr := 0#32
  destAddr := 0#32
  control := 0#32
  currentSrc := 0#32
  currentDst := 0#32
  remainingWords := 0#21

/-- The machine right after reset (R47, R250), under the default parameters (log 12), with nothing asked of it yet. -/
def State.reset : State where
  au := .reset
  dma := ⟨⟨.reset, .reset, .reset, .reset⟩, ⟨.reset, .reset, .reset, .reset⟩⟩
  pending := ⟨⟨0, 0, 0, 0⟩, ⟨0, 0, 0, 0⟩⟩
  mem := ⟨[], ⟨[], []⟩⟩
  compat := false
  fifoHalfEmpty := false
  cfg := defaultConfig
  inbox := []
  trace := []
  freeCount := 0

end Sys2Proof.Machine
end

