-- ==== Sys2Proof/Machine/Operands.lean ====
section
/-! DEFINITION. Operand forms: the mask and value of a register write, the lane of a register read, the halves of a 64-bit
register, the fields of the DMA control register, and the masks of the configuration registers. -/

namespace Sys2Proof.Machine

/-- `merge(old, mask, value)` of 00_scope.md section 5 (R51). -/
def merge {n : Nat} (old mask value : BitVec n) : BitVec n := (old &&& ~~~mask) ||| (value &&& mask)

/-- How far an access of lane `k` is shifted in its slot: 8k bits (R52). -/
def laneShift (k : BitVec 2) : Nat := 8 * k.toNat

/-- The 32-bit mask of an access: `((2^(8w) - 1) << 8k) mod 2^32` (R52, R82). -/
def laneMask (w : Width) (k : BitVec 2) : Word := BitVec.ofNat 32 (2 ^ (8 * w.bytes) - 1) <<< laneShift k

/-- The mask operand of a write (R82). -/
def maskOf (a : WAccess) : Word := laneMask a.width a.lane

/-- The value operand of a write: `(data << 8k) mod 2^32` (R82). -/
def valueOf (a : WAccess) : Word := a.data <<< laneShift a.lane

/-- The mask and value operands of a write to a 16-bit register: bits 15:0 of the slot's (R54, R82). -/
def maskOf16 (a : WAccess) : Half := (maskOf a).setWidth 16

def valueOf16 (a : WAccess) : Half := (valueOf a).setWidth 16

/-- The data of a read: `(slot >> 8k)[8w-1:0]`, zero-extended to 32 bits (R52, R82; log 25). -/
def readValue (a : RAccess) (slot : Word) : Word := (slot >>> laneShift a.lane) &&& laneMask a.width 0#2

/-- The low half `X[31:0]` and the high half `X[63:32]` of a 64-bit register (00_scope.md section 5). -/
def lowHalf (x : DWord) : Word := x.extractLsb' 0 32

def highHalf (x : DWord) : Word := x.extractLsb' 32 32

def setLowHalf (x : DWord) (v : Word) : DWord := highHalf x ++ v

def setHighHalf (x : DWord) (v : Word) : DWord := v ++ lowHalf x

/-- A masked write to one half of a 64-bit register; the other half is kept (R51). -/
def mergeLow (x : DWord) (a : WAccess) : DWord := setLowHalf x (merge (lowHalf x) (maskOf a) (valueOf a))

def mergeHigh (x : DWord) (a : WAccess) : DWord := setHighHalf x (merge (highHalf x) (maskOf a) (valueOf a))

/-! The fields of a DMA channel's control register (R73). -/

def ctlCount (c : Word) : BitVec 21 := c.extractLsb' 0 21

def ctlDstMode (c : Word) : BitVec 2 := c.extractLsb' 21 2

def ctlSrcMode (c : Word) : BitVec 2 := c.extractLsb' 23 2

def ctlRepeat (c : Word) : Bool := c.getLsbD 25

def ctlWidth (c : Word) : Bool := c.getLsbD 26

def ctlTrigMode (c : Word) : BitVec 3 := c.extractLsb' 27 3

def ctlIrq (c : Word) : Bool := c.getLsbD 30

def ctlEnable (c : Word) : Bool := c.getLsbD 31

/-- `control[31] <- 0` (R192). -/
def clearEnable (c : Word) : Word := c &&& 0x7FFFFFFF#32

/-- The unit a control register selects: 2 bytes or 4 bytes (R76, R188). -/
def ctlUnit (c : Word) : Width := if ctlWidth c then .word else .half

/-! The writable bits of the configuration registers. -/

/-- `SAD_MASK[cpu][ch]` (R150). -/
def sadMask (c : Config) : Cpu → Chan → Word
  | .primary, _ => c.addrMaskWide
  | .secondary, .ch0 => c.addrMaskNarrow
  | .secondary, .ch1 => c.addrMaskWide
  | .secondary, .ch2 => c.addrMaskWide
  | .secondary, .ch3 => c.addrMaskWide

/-- `DAD_MASK[cpu][ch]` (R151). -/
def dadMask (c : Config) : Cpu → Chan → Word
  | .primary, _ => c.addrMaskWide
  | .secondary, .ch0 => c.addrMaskNarrow
  | .secondary, .ch1 => c.addrMaskNarrow
  | .secondary, .ch2 => c.addrMaskNarrow
  | .secondary, .ch3 => c.addrMaskWide

/-- `CNT_MASK[cpu][ch]` (R4, R152). -/
def cntMask (c : Config) : Cpu → Chan → Word
  | .primary, _ => 0xFFFFFFFF#32
  | .secondary, ch => c.cntMaskSecondary.get ch

/-- The writable bits of `divControl` (R71) and of `sqrtControl` (R72). -/
def divControlMask : Half := 0x0003#16

def sqrtControlMask : Half := 0x0001#16

/-- The bits of `divControl` that are ever 1: the mode and the flag (R21). -/
def divControlBits : Half := 0x4003#16

end Sys2Proof.Machine
end

