-- ==== Sys2Proof/Machine/Flags.lean ====
section
/-! DEFINITION. The one status flag of the block, the division-by-zero flag `div0` of `divControl` (R41). There is no other
flag: no overflow flag, no carry, no busy bit. -/

namespace Sys2Proof.Machine

/-- The flag of a divide operation: the whole 64-bit denominator is zero, in every mode (R21, R100, 90_conflicts.md C2). -/
def zeroDivFlag (den : DWord) : Bool := den == 0#64

/-- The flag as it stands in `divControl[14]` (R71). -/
def div0 (c : Half) : Bool := c.getLsbD 14

/-- `divControl` with bit 14 set to the flag and every other bit kept (R100). -/
def withDiv0 (c : Half) (flag : Bool) : Half := (c &&& ~~~0x4000#16) ||| (if flag then 0x4000#16 else 0#16)

end Sys2Proof.Machine
end

