-- ==== Sys2Proof/Machine/Ops.lean ====
section
/-! DEFINITION. The named operations over registers, memory and the outside interfaces.

Taking an exception: this hardware has none to take. "The set of synchronous exceptions of the block is empty" (R220), it
"performs no trap entry" (R226) and has no return from one (R227). What a unit of it does instead is `sendIrq`, a call to an
outside controller that saves nothing and goes nowhere (R64, R226). -/

namespace Sys2Proof.Machine

/-- Running on from a next state; a fault or a refusal ends the run. -/
def andThen {α β : Type} (o : Host.Outcome α Fault Refusal) (f : α → Host.Outcome β Fault Refusal) :
    Host.Outcome β Fault Refusal :=
  match o with
  | .next a => f a
  | .fault r => .fault r
  | .refused r => .refused r

/-! Registers. -/

def State.withAu (s : State) (u : ArithmeticUnit) : State := { s with au := u }

def State.chan (s : State) (cpu : Cpu) (ch : Chan) : Channel := (s.dma.get cpu).get ch

def State.setChan (s : State) (cpu : Cpu) (ch : Chan) (c : Channel) : State :=
  { s with dma := s.dma.set cpu ((s.dma.get cpu).set ch c) }

/-! The scheduler's pending tasks (R44). -/

def State.tasks (s : State) (cpu : Cpu) (ch : Chan) : Nat := (s.pending.get cpu).get ch

def State.setTasks (s : State) (cpu : Cpu) (ch : Chan) (n : Nat) : State :=
  { s with pending := s.pending.set cpu ((s.pending.get cpu).set ch n) }

/-! What the block sends out. -/

def State.emit (s : State) (e : Event) : State := { s with trace := e :: s.trace }

/-- `Schedule(cpu, ch)`: one more task, and nothing is run (R63, R181). -/
def schedule (cpu : Cpu) (ch : Chan) (s : State) : State :=
  (s.setTasks cpu ch (s.tasks cpu ch + 1)).emit (.schedule cpu ch s.cfg.schedDelay)

/-- `SendIrq(cpu, line)` (R64). -/
def sendIrq (cpu : Cpu) (line : Nat) (s : State) : State := s.emit (.irq cpu line)

/-- A register read: the data go to the CPU and nothing else changes (R56). -/
def respond (cpu : Cpu) (a : RAccess) (slot : Word) (s : State) : State :=
  s.emit (.readData cpu a.width (readValue a slot))

/-! Memory: two views of one memory, apart from what is a CPU's own. -/

/-- The byte listed at an address. -/
def Memory.read (m : Memory) (a : Nat) : Option Byte :=
  match m with
  | [] => none
  | (b, v) :: m => if a = b then some v else Memory.read m a

/-- The memory with the byte `v` at address `a`. -/
def Memory.write (m : Memory) (a : Nat) (v : Byte) : Memory :=
  match m with
  | [] => [(a, v)]
  | (b, w) :: m =>
    if a < b then (a, v) :: (b, w) :: m
    else if a = b then (a, v) :: m
    else (b, w) :: Memory.write m a v

/-- The memory without a byte at address `a`. -/
def Memory.erase (m : Memory) (a : Nat) : Memory :=
  match m with
  | [] => []
  | (b, w) :: m => if a = b then m else (b, w) :: Memory.erase m a

def inWindow (ws : List Window) (cpu : Cpu) (a : Word) : Bool :=
  ws.any fun p => p.cpu == cpu && decide (p.base ≤ a.toNat) && decide (a.toNat < p.base + p.size)

/-- The memory in which the byte at an address of a CPU's view stands (R231; log 5). -/
def homeOf (c : Config) (cpu : Cpu) (a : Word) : Home := if inWindow c.own cpu a then .own cpu else .shared

def State.memOf (s : State) (h : Home) : Memory := s.mem.get h

def State.setMem (s : State) (h : Home) (m : Memory) : State := { s with mem := s.mem.set h m }

/-- The model's read of one byte of a CPU's view: `none` where the model knows no value. -/
def State.byteAt (s : State) (cpu : Cpu) (a : Word) : Option Byte := Memory.read (s.memOf (homeOf s.cfg cpu a)) a.toNat

/-- The byte written where it stands: where the other CPU's view shows the same memory, it shows the new byte. -/
def State.setByte (s : State) (cpu : Cpu) (a : Word) (v : Byte) : State :=
  s.setMem (homeOf s.cfg cpu a) (Memory.write (s.memOf (homeOf s.cfg cpu a)) a.toNat v)

def State.forgetByte (s : State) (cpu : Cpu) (a : Word) : State :=
  s.setMem (homeOf s.cfg cpu a) (Memory.erase (s.memOf (homeOf s.cfg cpu a)) a.toNat)

/-- One outside change of memory (log 7). -/
def State.poke (s : State) (p : Poke) : State :=
  match p.value with
  | some v => s.setByte p.cpu p.addr v
  | none => s.forgetByte p.cpu p.addr

/-- The state in which the agent of a stimulus takes its step: memory as the outside left it, and the FIFO's answer (R65). -/
def State.arrive (s : State) (x : Stimulus) : State :=
  { x.outside.foldl State.poke s with fifoHalfEmpty := x.fifoHalfEmpty }

/-! Free values (log 4, log 5). -/

/-- The `i`-th free value from the present count on. -/
def State.free (s : State) (i : Nat) : DWord := Config.freeValue (s.freeCount + i)

def State.draw (s : State) (n : Nat) : State := { s with freeCount := s.freeCount + n }

/-! Unit accesses to memory. A unit's bytes stand in little-endian order (log 8). -/

/-- The byte a unit read takes at its `i`-th address: the one the view holds, else a free value (R60; log 5). -/
def State.loadByte (s : State) (cpu : Cpu) (a : Word) (i : Nat) : Byte :=
  match s.byteAt cpu (a + BitVec.ofNat 32 i) with
  | some b => b
  | none => (s.free i).setWidth 8

/-- The value of the unit that stands at an address of a CPU's view, zero-extended to 32 bits. -/
def State.loadUnit (s : State) (cpu : Cpu) (a : Word) (w : Width) : Word :=
  match w with
  | .byte => (s.loadByte cpu a 0).setWidth 32
  | .half => (s.loadByte cpu a 1 ++ s.loadByte cpu a 0).setWidth 32
  | .word => s.loadByte cpu a 3 ++ s.loadByte cpu a 2 ++ s.loadByte cpu a 1 ++ s.loadByte cpu a 0

/-- The bytes `v[8n-1:0]` stored at `a`, `a + 1`, and so on. -/
def State.storeBytes (s : State) (cpu : Cpu) (a : Word) (v : Word) : Nat → State
  | 0 => s
  | n + 1 => (s.storeBytes cpu a v n).setByte cpu (a + BitVec.ofNat 32 n) (v.extractLsb' (8 * n) 8)

/-- The `n` bytes from `a` on forgotten. -/
def State.forgetBytes (s : State) (cpu : Cpu) (a : Word) : Nat → State
  | 0 => s
  | n + 1 => (s.forgetBytes cpu a n).forgetByte cpu (a + BitVec.ofNat 32 n)

/-! Where a unit of a burst lands (R59, R62, R202). -/

/-- The target of one unit access. -/
inductive Landing where
  /-- a register of the ArithmeticUnit, at the given lane (R202) -/
  | register (r : AuReg) (ea : Word)
  /-- plain memory at the given address -/
  | memory (ea : Word)
  /-- a window of a device (log 6) -/
  | port
  /-- an unaligned unit under `Unaligned.oracle`: nothing is known of it (log 9) -/
  | unknown
  deriving DecidableEq, Repr

/-- Whether an address is a multiple of the unit's size. -/
def alignedTo (a : Word) (w : Width) : Bool := a.toNat % w.bytes == 0

/-- The address with the low bits cleared that a unit's size leaves no room for. -/
def alignDown (a : Word) (w : Width) : Word := a &&& ~~~BitVec.ofNat 32 (w.bytes - 1)

def inPort (c : Config) (cpu : Cpu) (a : Word) : Bool := inWindow c.ports cpu a

/-- An aligned unit access (R202). -/
def place (c : Config) (cpu : Cpu) (ea : Word) : Except Refusal Landing :=
  match regAt c cpu (slotOf ea) with
  | some (.au r) => .ok (.register r ea)
  | some (.sad _) => .error .dmaRegisterInBurst
  | some (.dad _) => .error .dmaRegisterInBurst
  | some (.cnt _) => .error .dmaRegisterInBurst
  | none => if inPort c cpu ea then .ok .port else .ok (.memory ea)

/-- Whether an access of `w` bytes at `a` touches a register slot of this block. -/
def touchesRegister (c : Config) (cpu : Cpu) (a : Word) (w : Width) : Bool :=
  (regAt c cpu (slotOf a)).isSome || (regAt c cpu (slotOf (a + BitVec.ofNat 32 (w.bytes - 1)))).isSome

/-- Where a unit access at the shadow address `a` lands (R62). -/
def landing (c : Config) (cpu : Cpu) (a : Word) (w : Width) : Except Refusal Landing :=
  if alignedTo a w then place c cpu a
  else
    match c.unaligned with
    | .force => place c cpu (alignDown a w)
    | .oracle => if touchesRegister c cpu a w then .error .unalignedRegisterUnit else .ok .unknown
    | .refuse => .error .unalignedUnit

/-- The register access a unit at address `ea` is: a word, or the half-word of its lane (R202). -/
def unitWrite (w : Width) (ea v : Word) : WAccess :=
  match w with
  | .word => .word v
  | .half => .half (ea.getLsbD 1) (v.setWidth 16)
  | .byte => .byte (laneOf ea) (v.setWidth 8)

def unitRead (w : Width) (ea : Word) : RAccess :=
  match w with
  | .word => .word
  | .half => .half (ea.getLsbD 1)
  | .byte => .byte (laneOf ea)

end Sys2Proof.Machine
end

