-- ==== Sys2Proof/Machine/Divider.lean ====
section
/-! DEFINITION. The integer divider: the divide operation (R100), the nine writes (R101 to R109) and the nine reads (R110 to
R118). -/

namespace Sys2Proof.Machine

/-- What the divide operation answers. -/
structure Quotient where
  div0 : Bool
  result : DWord
  remainder : DWord
  deriving DecidableEq, Repr

/-- `Div(mode, num, den)` (R100). `Int.tdiv` and `Int.tmod` are the truncating quotient and its remainder, `BitVec.ofInt 64`
is `to_u64`, `toInt` is `s32` or `s64`. -/
def divide (mode : BitVec 2) (num den : DWord) : Quotient :=
  if mode = 0#2 then
    let n := (lowHalf num).toInt
    let d := (lowHalf den).toInt
    if n = -2 ^ 31 ∧ d = -1 then ⟨zeroDivFlag den, (lowHalf num).signExtend 64, 0#64⟩
    else if d ≠ 0 then ⟨zeroDivFlag den, BitVec.ofInt 64 (n.tdiv d), BitVec.ofInt 64 (n.tmod d)⟩
    else ⟨zeroDivFlag den, if n < 0 then BitVec.ofInt 64 1 else BitVec.ofInt 64 (-1), BitVec.ofInt 64 n⟩
  else
    let n := num.toInt
    let d := if mode = 2#2 then den.toInt else (lowHalf den).toInt
    if (mode = 1#2 ∨ mode = 3#2) ∧ n = -2 ^ 63 ∧ d = -1 then ⟨zeroDivFlag den, num, 0#64⟩
    else if d ≠ 0 then ⟨zeroDivFlag den, BitVec.ofInt 64 (n.tdiv d), BitVec.ofInt 64 (n.tmod d)⟩
    else ⟨zeroDivFlag den, if n < 0 then BitVec.ofInt 64 1 else BitVec.ofInt 64 (-1), num⟩

/-- `divControl[1:0]` (R71). -/
def divMode (c : Half) : BitVec 2 := c.setWidth 2

/-- The divide operation: `(divControl[14], divResult, divRemainder) <- Div(divControl[1:0], divNumerator,
divDenominator)`, and nothing else (R100). -/
def runDivide (u : ArithmeticUnit) : ArithmeticUnit :=
  let q := divide (divMode u.divControl) u.divNumerator u.divDenominator
  { u with divControl := withDiv0 u.divControl q.div0, divResult := q.result, divRemainder := q.remainder }

/-- R101, after R54: an access that delivers no bit to the 16-bit register is not performed at all. -/
def writeDivcnt (a : WAccess) (u : ArithmeticUnit) : ArithmeticUnit :=
  if maskOf16 a = 0#16 then u
  else runDivide { u with divControl := merge u.divControl (maskOf16 a &&& divControlMask) (valueOf16 a) }

/-- R102. -/
def writeDivNumerL (a : WAccess) (u : ArithmeticUnit) : ArithmeticUnit :=
  runDivide { u with divNumerator := mergeLow u.divNumerator a }

/-- R103. -/
def writeDivNumerH (a : WAccess) (u : ArithmeticUnit) : ArithmeticUnit :=
  runDivide { u with divNumerator := mergeHigh u.divNumerator a }

/-- R104. -/
def writeDivDenomL (a : WAccess) (u : ArithmeticUnit) : ArithmeticUnit :=
  runDivide { u with divDenominator := mergeLow u.divDenominator a }

/-- R105. -/
def writeDivDenomH (a : WAccess) (u : ArithmeticUnit) : ArithmeticUnit :=
  runDivide { u with divDenominator := mergeHigh u.divDenominator a }

/-- R106: accepted, no state changes. -/
def writeDivResultL (_a : WAccess) (u : ArithmeticUnit) : ArithmeticUnit := u

/-- R107. -/
def writeDivResultH (_a : WAccess) (u : ArithmeticUnit) : ArithmeticUnit := u

/-- R108. -/
def writeDivremResultL (_a : WAccess) (u : ArithmeticUnit) : ArithmeticUnit := u

/-- R109. -/
def writeDivremResultH (_a : WAccess) (u : ArithmeticUnit) : ArithmeticUnit := u

/-- R110: the mode and the flag; every other bit of the slot reads as 0 (R21; log 19). -/
def readDivcnt (u : ArithmeticUnit) : Word := (u.divControl &&& divControlBits).setWidth 32

/-- R111. -/
def readDivNumerL (u : ArithmeticUnit) : Word := lowHalf u.divNumerator

/-- R112. -/
def readDivNumerH (u : ArithmeticUnit) : Word := highHalf u.divNumerator

/-- R113. -/
def readDivDenomL (u : ArithmeticUnit) : Word := lowHalf u.divDenominator

/-- R114. -/
def readDivDenomH (u : ArithmeticUnit) : Word := highHalf u.divDenominator

/-- R115. -/
def readDivResultL (u : ArithmeticUnit) : Word := lowHalf u.divResult

/-- R116. -/
def readDivResultH (u : ArithmeticUnit) : Word := highHalf u.divResult

/-- R117. -/
def readDivremResultL (u : ArithmeticUnit) : Word := lowHalf u.divRemainder

/-- R118. -/
def readDivremResultH (u : ArithmeticUnit) : Word := highHalf u.divRemainder

/-! The meanings. -/

/-- `W.DIVCNT` (R101). -/
def execWDivcnt (_cpu : Cpu) (a : WAccess) (s : State) : Host.Outcome State Fault Refusal :=
  .next (s.withAu (writeDivcnt a s.au))

/-- `W.DIV_NUMER_L` (R102). -/
def execWDivNumerL (_cpu : Cpu) (a : WAccess) (s : State) : Host.Outcome State Fault Refusal :=
  .next (s.withAu (writeDivNumerL a s.au))

/-- `W.DIV_NUMER_H` (R103). -/
def execWDivNumerH (_cpu : Cpu) (a : WAccess) (s : State) : Host.Outcome State Fault Refusal :=
  .next (s.withAu (writeDivNumerH a s.au))

/-- `W.DIV_DENOM_L` (R104). -/
def execWDivDenomL (_cpu : Cpu) (a : WAccess) (s : State) : Host.Outcome State Fault Refusal :=
  .next (s.withAu (writeDivDenomL a s.au))

/-- `W.DIV_DENOM_H` (R105). -/
def execWDivDenomH (_cpu : Cpu) (a : WAccess) (s : State) : Host.Outcome State Fault Refusal :=
  .next (s.withAu (writeDivDenomH a s.au))

/-- `W.DIV_RESULT_L` (R106). -/
def execWDivResultL (_cpu : Cpu) (a : WAccess) (s : State) : Host.Outcome State Fault Refusal :=
  .next (s.withAu (writeDivResultL a s.au))

/-- `W.DIV_RESULT_H` (R107). -/
def execWDivResultH (_cpu : Cpu) (a : WAccess) (s : State) : Host.Outcome State Fault Refusal :=
  .next (s.withAu (writeDivResultH a s.au))

/-- `W.DIVREM_RESULT_L` (R108). -/
def execWDivremResultL (_cpu : Cpu) (a : WAccess) (s : State) : Host.Outcome State Fault Refusal :=
  .next (s.withAu (writeDivremResultL a s.au))

/-- `W.DIVREM_RESULT_H` (R109). -/
def execWDivremResultH (_cpu : Cpu) (a : WAccess) (s : State) : Host.Outcome State Fault Refusal :=
  .next (s.withAu (writeDivremResultH a s.au))

/-- `R.DIVCNT` (R110). -/
def execRDivcnt (cpu : Cpu) (a : RAccess) (s : State) : Host.Outcome State Fault Refusal :=
  .next (respond cpu a (readDivcnt s.au) s)

/-- `R.DIV_NUMER_L` (R111). -/
def execRDivNumerL (cpu : Cpu) (a : RAccess) (s : State) : Host.Outcome State Fault Refusal :=
  .next (respond cpu a (readDivNumerL s.au) s)

/-- `R.DIV_NUMER_H` (R112). -/
def execRDivNumerH (cpu : Cpu) (a : RAccess) (s : State) : Host.Outcome State Fault Refusal :=
  .next (respond cpu a (readDivNumerH s.au) s)

/-- `R.DIV_DENOM_L` (R113). -/
def execRDivDenomL (cpu : Cpu) (a : RAccess) (s : State) : Host.Outcome State Fault Refusal :=
  .next (respond cpu a (readDivDenomL s.au) s)

/-- `R.DIV_DENOM_H` (R114). -/
def execRDivDenomH (cpu : Cpu) (a : RAccess) (s : State) : Host.Outcome State Fault Refusal :=
  .next (respond cpu a (readDivDenomH s.au) s)

/-- `R.DIV_RESULT_L` (R115). -/
def execRDivResultL (cpu : Cpu) (a : RAccess) (s : State) : Host.Outcome State Fault Refusal :=
  .next (respond cpu a (readDivResultL s.au) s)

/-- `R.DIV_RESULT_H` (R116). -/
def execRDivResultH (cpu : Cpu) (a : RAccess) (s : State) : Host.Outcome State Fault Refusal :=
  .next (respond cpu a (readDivResultH s.au) s)

/-- `R.DIVREM_RESULT_L` (R117). -/
def execRDivremResultL (cpu : Cpu) (a : RAccess) (s : State) : Host.Outcome State Fault Refusal :=
  .next (respond cpu a (readDivremResultL s.au) s)

/-- `R.DIVREM_RESULT_H` (R118). -/
def execRDivremResultH (cpu : Cpu) (a : RAccess) (s : State) : Host.Outcome State Fault Refusal :=
  .next (respond cpu a (readDivremResultH s.au) s)

end Sys2Proof.Machine
end

