-- ==== Sys2Proof/Machine/DmaConfig.lean ====
section
/-! DEFINITION. The DMA configuration registers: the three writes (R153 to R155) and the three reads (R156 to R158) of each
channel. -/

namespace Sys2Proof.Machine

/-- R154: no side effect, `currentSrc` is not touched. -/
def writeSad (cpu : Cpu) (ch : Chan) (a : WAccess) (s : State) : State :=
  let c := s.chan cpu ch
  s.setChan cpu ch { c with sourceAddr := merge c.sourceAddr (maskOf a &&& sadMask s.cfg cpu ch) (valueOf a) }

/-- R155: no side effect, `currentDst` is not touched. -/
def writeDad (cpu : Cpu) (ch : Chan) (a : WAccess) (s : State) : State :=
  let c := s.chan cpu ch
  s.setChan cpu ch { c with destAddr := merge c.destAddr (maskOf a &&& dadMask s.cfg cpu ch) (valueOf a) }

/-- The control register after the merge of a write (R153). -/
def mergedControl (c : Config) (cpu : Cpu) (ch : Chan) (a : WAccess) (old : Word) : Word :=
  merge old (maskOf a &&& cntMask c cpu ch) (valueOf a)

/-- The reload of the shadow registers at the enable transition (R153 part 2). -/
def reloadShadow (c : Channel) : Channel :=
  { c with currentSrc := c.sourceAddr, currentDst := c.destAddr, remainingWords := ctlCount c.control }

/-- Part 1 of R153: an enabled channel in GXFIFO mode is scheduled at once if the FIFO is half empty. -/
def schedulesGxfifo (c : Config) (fifoHalfEmpty : Bool) (ctl : Word) : Bool :=
  ctlEnable ctl && ctlTrigMode ctl == c.modeGxfifo && fifoHalfEmpty

/-- R153: the merge, the GXFIFO schedule, the reload at a 0 to 1 transition of `enable`, the immediate schedule. -/
def writeCnt (cpu : Cpu) (ch : Chan) (a : WAccess) (s : State) : State :=
  let c := s.chan cpu ch
  let ctl := mergedControl s.cfg cpu ch a c.control
  let s1 := s.setChan cpu ch { c with control := ctl }
  let s2 := if schedulesGxfifo s.cfg s.fifoHalfEmpty ctl then schedule cpu ch s1 else s1
  if ctlEnable c.control || !ctlEnable ctl then s2
  else
    let s3 := s2.setChan cpu ch (reloadShadow (s2.chan cpu ch))
    if ctlTrigMode ctl == 0#3 then schedule cpu ch s3 else s3

/-- R156: the configuration value, never the working address. -/
def readSad (cpu : Cpu) (ch : Chan) (s : State) : Word := (s.chan cpu ch).sourceAddr

/-- R157. -/
def readDad (cpu : Cpu) (ch : Chan) (s : State) : Word := (s.chan cpu ch).destAddr

/-- R158: in compatibility mode the low half-word is hidden. -/
def readCnt (cpu : Cpu) (ch : Chan) (s : State) : Word :=
  if s.compat then (s.chan cpu ch).control &&& 0xFFFF0000#32 else (s.chan cpu ch).control

/-! The meanings. -/

/-- `W.DMA0SAD` (R154). -/
def execWDma0Sad (cpu : Cpu) (a : WAccess) (s : State) : Host.Outcome State Fault Refusal :=
  .next (writeSad cpu .ch0 a s)

/-- `R.DMA0SAD` (R156). -/
def execRDma0Sad (cpu : Cpu) (a : RAccess) (s : State) : Host.Outcome State Fault Refusal :=
  .next (respond cpu a (readSad cpu .ch0 s) s)

/-- `W.DMA0DAD` (R155). -/
def execWDma0Dad (cpu : Cpu) (a : WAccess) (s : State) : Host.Outcome State Fault Refusal :=
  .next (writeDad cpu .ch0 a s)

/-- `R.DMA0DAD` (R157). -/
def execRDma0Dad (cpu : Cpu) (a : RAccess) (s : State) : Host.Outcome State Fault Refusal :=
  .next (respond cpu a (readDad cpu .ch0 s) s)

/-- `W.DMA0CNT` (R153). -/
def execWDma0Cnt (cpu : Cpu) (a : WAccess) (s : State) : Host.Outcome State Fault Refusal :=
  .next (writeCnt cpu .ch0 a s)

/-- `R.DMA0CNT` (R158). -/
def execRDma0Cnt (cpu : Cpu) (a : RAccess) (s : State) : Host.Outcome State Fault Refusal :=
  .next (respond cpu a (readCnt cpu .ch0 s) s)

/-- `W.DMA1SAD` (R154). -/
def execWDma1Sad (cpu : Cpu) (a : WAccess) (s : State) : Host.Outcome State Fault Refusal :=
  .next (writeSad cpu .ch1 a s)

/-- `R.DMA1SAD` (R156). -/
def execRDma1Sad (cpu : Cpu) (a : RAccess) (s : State) : Host.Outcome State Fault Refusal :=
  .next (respond cpu a (readSad cpu .ch1 s) s)

/-- `W.DMA1DAD` (R155). -/
def execWDma1Dad (cpu : Cpu) (a : WAccess) (s : State) : Host.Outcome State Fault Refusal :=
  .next (writeDad cpu .ch1 a s)

/-- `R.DMA1DAD` (R157). -/
def execRDma1Dad (cpu : Cpu) (a : RAccess) (s : State) : Host.Outcome State Fault Refusal :=
  .next (respond cpu a (readDad cpu .ch1 s) s)

/-- `W.DMA1CNT` (R153). -/
def execWDma1Cnt (cpu : Cpu) (a : WAccess) (s : State) : Host.Outcome State Fault Refusal :=
  .next (writeCnt cpu .ch1 a s)

/-- `R.DMA1CNT` (R158). -/
def execRDma1Cnt (cpu : Cpu) (a : RAccess) (s : State) : Host.Outcome State Fault Refusal :=
  .next (respond cpu a (readCnt cpu .ch1 s) s)

/-- `W.DMA2SAD` (R154). -/
def execWDma2Sad (cpu : Cpu) (a : WAccess) (s : State) : Host.Outcome State Fault Refusal :=
  .next (writeSad cpu .ch2 a s)

/-- `R.DMA2SAD` (R156). -/
def execRDma2Sad (cpu : Cpu) (a : RAccess) (s : State) : Host.Outcome State Fault Refusal :=
  .next (respond cpu a (readSad cpu .ch2 s) s)

/-- `W.DMA2DAD` (R155). -/
def execWDma2Dad (cpu : Cpu) (a : WAccess) (s : State) : Host.Outcome State Fault Refusal :=
  .next (writeDad cpu .ch2 a s)

/-- `R.DMA2DAD` (R157). -/
def execRDma2Dad (cpu : Cpu) (a : RAccess) (s : State) : Host.Outcome State Fault Refusal :=
  .next (respond cpu a (readDad cpu .ch2 s) s)

/-- `W.DMA2CNT` (R153). -/
def execWDma2Cnt (cpu : Cpu) (a : WAccess) (s : State) : Host.Outcome State Fault Refusal :=
  .next (writeCnt cpu .ch2 a s)

/-- `R.DMA2CNT` (R158). -/
def execRDma2Cnt (cpu : Cpu) (a : RAccess) (s : State) : Host.Outcome State Fault Refusal :=
  .next (respond cpu a (readCnt cpu .ch2 s) s)

/-- `W.DMA3SAD` (R154). -/
def execWDma3Sad (cpu : Cpu) (a : WAccess) (s : State) : Host.Outcome State Fault Refusal :=
  .next (writeSad cpu .ch3 a s)

/-- `R.DMA3SAD` (R156). -/
def execRDma3Sad (cpu : Cpu) (a : RAccess) (s : State) : Host.Outcome State Fault Refusal :=
  .next (respond cpu a (readSad cpu .ch3 s) s)

/-- `W.DMA3DAD` (R155). -/
def execWDma3Dad (cpu : Cpu) (a : WAccess) (s : State) : Host.Outcome State Fault Refusal :=
  .next (writeDad cpu .ch3 a s)

/-- `R.DMA3DAD` (R157). -/
def execRDma3Dad (cpu : Cpu) (a : RAccess) (s : State) : Host.Outcome State Fault Refusal :=
  .next (respond cpu a (readDad cpu .ch3 s) s)

/-- `W.DMA3CNT` (R153). -/
def execWDma3Cnt (cpu : Cpu) (a : WAccess) (s : State) : Host.Outcome State Fault Refusal :=
  .next (writeCnt cpu .ch3 a s)

/-- `R.DMA3CNT` (R158). -/
def execRDma3Cnt (cpu : Cpu) (a : RAccess) (s : State) : Host.Outcome State Fault Refusal :=
  .next (respond cpu a (readCnt cpu .ch3 s) s)

end Sys2Proof.Machine
end

