-- ==== Sys2Proof/Machine/Sqrt.lean ====
section
/-! DEFINITION. The integer square-root unit: the square-root operation (R130), the four writes (R131 to R134) and the four
reads (R135 to R138). -/

namespace Sys2Proof.Machine

/-- The root decided bit by bit: bit `k` of the candidate `r` is kept where the square still fits into `n`. -/
def isqrtFrom (n : Nat) : Nat → Nat → Nat
  | 0, r => r
  | k + 1, r => isqrtFrom n k (if (r + 2 ^ k) * (r + 2 ^ k) ≤ n then r + 2 ^ k else r)

/-- `isqrt(n)` of 00_scope.md section 5, the greatest `r` with `r * r ≤ n`, for `n` below 2^64: its 32 bits, from the
highest on. -/
def isqrt (n : Nat) : Nat := isqrtFrom n 32 0

/-- The input the width bit selects: all 64 bits, or the low 32, read as unsigned (R130). -/
def sqrtInput (width : Bool) (param : DWord) : Nat := if width then param.toNat else (lowHalf param).toNat

/-- `Sqrt(width, param)` (R130). -/
def squareRoot (width : Bool) (param : DWord) : Word := BitVec.ofNat 32 (isqrt (sqrtInput width param))

/-- `sqrtControl[0]` (R72). -/
def sqrtWidth (c : Half) : Bool := c.getLsbD 0

/-- The square-root operation: `sqrtResult <- Sqrt(sqrtControl[0], sqrtParameter)`, and nothing else (R130). -/
def runSqrt (u : ArithmeticUnit) : ArithmeticUnit :=
  { u with sqrtResult := squareRoot (sqrtWidth u.sqrtControl) u.sqrtParameter }

/-- R131, after R54: an access that delivers no bit to the 16-bit register is not performed at all. -/
def writeSqrtcnt (a : WAccess) (u : ArithmeticUnit) : ArithmeticUnit :=
  if maskOf16 a = 0#16 then u
  else runSqrt { u with sqrtControl := merge u.sqrtControl (maskOf16 a &&& sqrtControlMask) (valueOf16 a) }

/-- R134: accepted, no state changes. -/
def writeSqrtResult (_a : WAccess) (u : ArithmeticUnit) : ArithmeticUnit := u

/-- R132. -/
def writeSqrtParamL (a : WAccess) (u : ArithmeticUnit) : ArithmeticUnit :=
  runSqrt { u with sqrtParameter := mergeLow u.sqrtParameter a }

/-- R133. -/
def writeSqrtParamH (a : WAccess) (u : ArithmeticUnit) : ArithmeticUnit :=
  runSqrt { u with sqrtParameter := mergeHigh u.sqrtParameter a }

/-- R135: the width; every other bit of the slot reads as 0 (R27; log 19). -/
def readSqrtcnt (u : ArithmeticUnit) : Word := (u.sqrtControl &&& sqrtControlMask).setWidth 32

/-- R136. -/
def readSqrtResult (u : ArithmeticUnit) : Word := u.sqrtResult

/-- R137. -/
def readSqrtParamL (u : ArithmeticUnit) : Word := lowHalf u.sqrtParameter

/-- R138. -/
def readSqrtParamH (u : ArithmeticUnit) : Word := highHalf u.sqrtParameter

/-! The meanings. -/

/-- `W.SQRTCNT` (R131). -/
def execWSqrtcnt (_cpu : Cpu) (a : WAccess) (s : State) : Host.Outcome State Fault Refusal :=
  .next (s.withAu (writeSqrtcnt a s.au))

/-- `W.SQRT_RESULT` (R134). -/
def execWSqrtResult (_cpu : Cpu) (a : WAccess) (s : State) : Host.Outcome State Fault Refusal :=
  .next (s.withAu (writeSqrtResult a s.au))

/-- `W.SQRT_PARAM_L` (R132). -/
def execWSqrtParamL (_cpu : Cpu) (a : WAccess) (s : State) : Host.Outcome State Fault Refusal :=
  .next (s.withAu (writeSqrtParamL a s.au))

/-- `W.SQRT_PARAM_H` (R133). -/
def execWSqrtParamH (_cpu : Cpu) (a : WAccess) (s : State) : Host.Outcome State Fault Refusal :=
  .next (s.withAu (writeSqrtParamH a s.au))

/-- `R.SQRTCNT` (R135). -/
def execRSqrtcnt (cpu : Cpu) (a : RAccess) (s : State) : Host.Outcome State Fault Refusal :=
  .next (respond cpu a (readSqrtcnt s.au) s)

/-- `R.SQRT_RESULT` (R136). -/
def execRSqrtResult (cpu : Cpu) (a : RAccess) (s : State) : Host.Outcome State Fault Refusal :=
  .next (respond cpu a (readSqrtResult s.au) s)

/-- `R.SQRT_PARAM_L` (R137). -/
def execRSqrtParamL (cpu : Cpu) (a : RAccess) (s : State) : Host.Outcome State Fault Refusal :=
  .next (respond cpu a (readSqrtParamL s.au) s)

/-- `R.SQRT_PARAM_H` (R138). -/
def execRSqrtParamH (cpu : Cpu) (a : RAccess) (s : State) : Host.Outcome State Fault Refusal :=
  .next (respond cpu a (readSqrtParamH s.au) s)

end Sys2Proof.Machine
end

