-- ==== Sys2Proof/Machine/DmaTransfer.lean ====
section
/-! DEFINITION. The DMA state machine: TRIGGER (R182), and DISPATCH with its burst (R183 to R189) and its bookkeeping (R190 to
R193). -/

namespace Sys2Proof.Machine

/-! TRIGGER (R182). -/

/-- The field value a trigger mode asks for: on the secondary CPU the field omits its lowest bit (R78). -/
def wantedMode (cpu : Cpu) (mode : Word) : Nat :=
  match cpu with
  | .primary => mode.toNat
  | .secondary => 2 * mode.toNat

/-- Whether a channel is selected, enabled, and waits for the mode; compared as integers (R182). -/
def triggers (cpu : Cpu) (mode : Word) (channelMask : BitVec 4) (ch : Chan) (ctl : Word) : Bool :=
  channelMask.getLsbD ch.index && ctlEnable ctl && (ctlTrigMode ctl).toNat == wantedMode cpu mode

/-- TRIGGER at one channel. -/
def triggerChan (cpu : Cpu) (mode : Word) (channelMask : BitVec 4) (s : State) (ch : Chan) : State :=
  if triggers cpu mode channelMask ch (s.chan cpu ch).control then schedule cpu ch s else s

/-- `TRIGGER` (R182). -/
def execTrigger (cpu : Cpu) (mode : Word) (channelMask : BitVec 4) (s : State) : Host.Outcome State Fault Refusal :=
  .next (Chan.all.foldl (triggerChan cpu mode channelMask) s)

/-! Unit accesses (R60, R61, R202). -/

/-- The slot value of an ArithmeticUnit register (R202). -/
def readAuReg : AuReg → ArithmeticUnit → Word
  | .divcnt => readDivcnt
  | .divNumerL => readDivNumerL
  | .divNumerH => readDivNumerH
  | .divDenomL => readDivDenomL
  | .divDenomH => readDivDenomH
  | .divResultL => readDivResultL
  | .divResultH => readDivResultH
  | .divremResultL => readDivremResultL
  | .divremResultH => readDivremResultH
  | .sqrtcnt => readSqrtcnt
  | .sqrtResult => readSqrtResult
  | .sqrtParamL => readSqrtParamL
  | .sqrtParamH => readSqrtParamH

/-- The register write of an ArithmeticUnit register (R202). -/
def writeAuReg : AuReg → WAccess → ArithmeticUnit → ArithmeticUnit
  | .divcnt => writeDivcnt
  | .divNumerL => writeDivNumerL
  | .divNumerH => writeDivNumerH
  | .divDenomL => writeDivDenomL
  | .divDenomH => writeDivDenomH
  | .divResultL => writeDivResultL
  | .divResultH => writeDivResultH
  | .divremResultL => writeDivremResultL
  | .divremResultH => writeDivremResultH
  | .sqrtcnt => writeSqrtcnt
  | .sqrtResult => writeSqrtResult
  | .sqrtParamL => writeSqrtParamL
  | .sqrtParamH => writeSqrtParamH

/-- The value a unit read answers where it lands; a value nothing is known of is free (R60; log 5, log 6, log 9). -/
def readLanding (cpu : Cpu) (w : Width) (l : Landing) (s : State) : Word :=
  match l with
  | .register r ea => readValue (unitRead w ea) (readAuReg r s.au)
  | .memory ea => s.loadUnit cpu ea w
  | .port => (s.free 0).setWidth 32 &&& laneMask w 0#2
  | .unknown => (s.free 0).setWidth 32 &&& laneMask w 0#2

/-- What a unit write does where it lands; of an unaligned one nothing is known, so every byte of the two units around its
address becomes unknown (R61, R62; log 9). -/
def writeLanding (cpu : Cpu) (addr : Word) (w : Width) (v : Word) (l : Landing) (s : State) : State :=
  match l with
  | .register r ea => s.withAu (writeAuReg r (unitWrite w ea v) s.au)
  | .memory ea => s.storeBytes cpu ea v w.bytes
  | .port => s
  | .unknown => s.forgetBytes cpu (alignDown addr w) (2 * w.bytes)

/-- `MemRead(cpu, addr, n)` (R60): the value, and the state after it. -/
def memRead (cpu : Cpu) (addr : Word) (w : Width) (s : State) : Host.Outcome (Word × State) Fault Refusal :=
  match landing s.cfg cpu addr w with
  | .error e => .refused e
  | .ok l => .next (readLanding cpu w l s, (s.emit (.memRead cpu addr w (readLanding cpu w l s))).draw w.bytes)

/-- `MemWrite(cpu, addr, n, v)` (R61). -/
def memWrite (cpu : Cpu) (addr : Word) (w : Width) (v : Word) (s : State) : Host.Outcome State Fault Refusal :=
  match landing s.cfg cpu addr w with
  | .error e => .refused e
  | .ok l => .next ((writeLanding cpu addr w v l s).emit (.memWrite cpu addr w v))

/-! The burst. -/

/-- What a burst is to do: how many units of which size, the two steps per unit, and how many units count as moved. -/
structure Plan where
  copies : Nat
  unit : Width
  srcStep : Word
  dstStep : Word
  moved : BitVec 21
  deriving DecidableEq, Repr

/-- `+unit` or `-unit` modulo 2^32. -/
def stepUp (w : Width) : Word := BitVec.ofNat 32 w.bytes

def stepDown (w : Width) : Word := -BitVec.ofNat 32 w.bytes

/-- The source step: only mode 1 decrements (R75, R186). -/
def srcStep (ctl : Word) (w : Width) : Word := if ctlSrcMode ctl == 1#2 then stepDown w else stepUp w

/-- The destination step (R74, R187). -/
def dstStep (ctl : Word) (w : Width) : Word :=
  if ctlDstMode ctl == 1#2 then stepDown w
  else if ctlDstMode ctl == 2#2 then 0#32
  else stepUp w

/-- Whether the audio burst is taken (R184). -/
def isAudio (c : Config) (compat : Bool) (ch : Chan) (ctl : Word) : Bool :=
  compat && (ch == c.audioA || ch == c.audioB) && ctlTrigMode ctl == c.modeSpecial

/-- How many units a general burst moves: all that remain, in GXFIFO mode at most `GXFIFO_BURST_MAX` (R188, R189). -/
def burstLength (c : Config) (ctl : Word) (remaining : BitVec 21) : BitVec 21 :=
  if ctlTrigMode ctl == c.modeGxfifo then
    match c.gxfifoBurstMax with
    | some b => BitVec.ofNat 21 (min remaining.toNat b)
    | none => remaining
  else remaining

/-- The audio burst: four words, the destination held (R185). -/
def audioPlan (ctl : Word) : Plan where
  copies := 4
  unit := .word
  srcStep := srcStep ctl .word
  dstStep := 0#32
  moved := 0#21

/-- The general burst (R188). -/
def generalPlan (c : Config) (ctl : Word) (remaining : BitVec 21) : Plan where
  copies := (burstLength c ctl remaining).toNat
  unit := ctlUnit ctl
  srcStep := srcStep ctl (ctlUnit ctl)
  dstStep := dstStep ctl (ctlUnit ctl)
  moved := burstLength c ctl remaining

/-- The burst of a task (R184). -/
def planOf (s : State) (cpu : Cpu) (ch : Chan) : Plan :=
  let c := s.chan cpu ch
  if isAudio s.cfg s.compat ch c.control then audioPlan c.control else generalPlan s.cfg c.control c.remainingWords

/-- Both working addresses one unit on, modulo 2^32 (R188; R35, R36). -/
def advance (cpu : Cpu) (ch : Chan) (p : Plan) (s : State) : State :=
  let c := s.chan cpu ch
  s.setChan cpu ch { c with currentSrc := c.currentSrc + p.srcStep, currentDst := c.currentDst + p.dstStep }

/-- One unit: read it, write it, advance (R185, R188). -/
def copyUnit (cpu : Cpu) (ch : Chan) (p : Plan) (s : State) : Host.Outcome State Fault Refusal :=
  andThen (memRead cpu (s.chan cpu ch).currentSrc p.unit s) fun r =>
    andThen (memWrite cpu (r.2.chan cpu ch).currentDst p.unit r.1 r.2) fun t => .next (advance cpu ch p t)

/-- `n` units, each written before the next is read (R67 b, R195). -/
def copyUnits (cpu : Cpu) (ch : Chan) (p : Plan) : Nat → State → Host.Outcome State Fault Refusal
  | 0, s => .next s
  | n + 1, s => andThen (copyUnit cpu ch p s) (copyUnits cpu ch p n)

/-! The bookkeeping (R190 to R193). `ctl` is the control register as DISPATCH read it at its start (R183). -/

/-- Step 4: the completion interrupt (R193, R81). -/
def finishIrq (cpu : Cpu) (ch : Chan) (s : State) : State :=
  if ctlIrq (s.chan cpu ch).control then sendIrq cpu (8 + ch.index) s else s

/-- Step 2: the repeat reload (R191). -/
def repeatReload (cpu : Cpu) (ch : Chan) (ctl : Word) (s : State) : State :=
  let c := s.chan cpu ch
  let t := s.setChan cpu ch
    { c with
      remainingWords := ctlCount ctl
      currentDst := if ctlDstMode ctl == 3#2 then c.destAddr else c.currentDst }
  if ctlTrigMode ctl == s.cfg.modeGxfifo && s.fifoHalfEmpty then schedule cpu ch t else t

/-- Step 3: the disable (R192). -/
def disable (cpu : Cpu) (ch : Chan) (s : State) : State :=
  let c := s.chan cpu ch
  s.setChan cpu ch { c with control := clearEnable c.control }

/-- Steps 2 to 4 (R191 to R193). -/
def repeatOrDisable (cpu : Cpu) (ch : Chan) (ctl : Word) (s : State) : State :=
  finishIrq cpu ch
    (if ctlRepeat ctl && ctlTrigMode ctl != 0#3 then repeatReload cpu ch ctl s else disable cpu ch s)

/-- The four steps: step 1 is the GXFIFO continuation, which may end the dispatch early (R190). -/
def bookkeeping (cpu : Cpu) (ch : Chan) (ctl : Word) (moved : BitVec 21) (s : State) : State :=
  if ctlTrigMode ctl == s.cfg.modeGxfifo then
    let c := s.chan cpu ch
    let left := c.remainingWords - moved
    let t := s.setChan cpu ch { c with remainingWords := left }
    if left != 0#21 && s.fifoHalfEmpty then schedule cpu ch t
    else if left != 0#21 && s.cfg.gxfifoHold then t
    else repeatOrDisable cpu ch ctl t
  else repeatOrDisable cpu ch ctl s

/-- `pending <- pending - {(cpu, ch)}`, one copy (R183). -/
def takeTask (cpu : Cpu) (ch : Chan) (s : State) : State := s.setTasks cpu ch (s.tasks cpu ch - 1)

/-- The burst and the bookkeeping of a task that has been taken from `pending` (R183). `enable` is not tested (R194). -/
def runTask (cpu : Cpu) (ch : Chan) (s : State) : Host.Outcome State Fault Refusal :=
  let p := planOf s cpu ch
  andThen (copyUnits cpu ch p p.copies s) fun t => .next (bookkeeping cpu ch (s.chan cpu ch).control p.moved t)

/-- `DISPATCH` (R183): performed for a pending pair only (log 14). -/
def execDispatch (cpu : Cpu) (ch : Chan) (s : State) : Host.Outcome State Fault Refusal :=
  if s.tasks cpu ch = 0 then .refused .dispatchNotPending else runTask cpu ch (takeTask cpu ch s)

end Sys2Proof.Machine
end

