-- ==== Sys2Proof/Machine/System.lean ====
section
/-! DEFINITION. The reset event (R250 to R252). -/

namespace Sys2Proof.Machine

/-- The four result elements after RESET, by the parameter RESET_RESULTS (R251): three free values and a free flag, all
zeros, or the values the operations give on the reset operands (log 4). -/
def resetUnit (s : State) : ArithmeticUnit :=
  match s.cfg.resetResults with
  | .unspecified =>
    { ArithmeticUnit.reset with
      divControl := withDiv0 0#16 ((s.free 0).getLsbD 0)
      divResult := s.free 1
      divRemainder := s.free 2
      sqrtResult := (s.free 3).setWidth 32 }
  | .zeros => ArithmeticUnit.reset
  | .consistent => runSqrt (runDivide ArithmeticUnit.reset)

/-- A channel after RESET: its configuration registers are 0, its shadow registers free values, drawn from `i` on (R47;
log 4). -/
def resetChannel (s : State) (i : Nat) : Channel :=
  { Channel.reset with
    currentSrc := (s.free i).setWidth 32
    currentDst := (s.free (i + 1)).setWidth 32
    remainingWords := (s.free (i + 2)).setWidth 21 }

/-- One engine after RESET. -/
def resetEngine (s : State) (i : Nat) : PerChan Channel :=
  ⟨resetChannel s i, resetChannel s (i + 3), resetChannel s (i + 6), resetChannel s (i + 9)⟩

/-- `RESET` (R250): every state element takes its reset value and pending tasks are discarded; memory, COMPAT and the outside
stay (R252). -/
def execReset (s : State) : Host.Outcome State Fault Refusal :=
  .next
    { s with
      au := resetUnit s
      dma := ⟨resetEngine s 4, resetEngine s 16⟩
      pending := ⟨⟨0, 0, 0, 0⟩, ⟨0, 0, 0, 0⟩⟩
      freeCount := s.freeCount + 28 }

end Sys2Proof.Machine
end

