-- ==== Sys2Proof/Machine/Dispatch.lean ====
section
/-! DEFINITION. The dispatch: one arm for each operation. -/

namespace Sys2Proof.Machine

def exec (i : Instr) (s : State) : Host.Outcome State Fault Refusal :=
  match i with
  | .wDivcnt cpu a => Sys2Proof.Machine.execWDivcnt cpu a s
  | .rDivcnt cpu a => Sys2Proof.Machine.execRDivcnt cpu a s
  | .wDivNumerL cpu a => Sys2Proof.Machine.execWDivNumerL cpu a s
  | .rDivNumerL cpu a => Sys2Proof.Machine.execRDivNumerL cpu a s
  | .wDivNumerH cpu a => Sys2Proof.Machine.execWDivNumerH cpu a s
  | .rDivNumerH cpu a => Sys2Proof.Machine.execRDivNumerH cpu a s
  | .wDivDenomL cpu a => Sys2Proof.Machine.execWDivDenomL cpu a s
  | .rDivDenomL cpu a => Sys2Proof.Machine.execRDivDenomL cpu a s
  | .wDivDenomH cpu a => Sys2Proof.Machine.execWDivDenomH cpu a s
  | .rDivDenomH cpu a => Sys2Proof.Machine.execRDivDenomH cpu a s
  | .wDivResultL cpu a => Sys2Proof.Machine.execWDivResultL cpu a s
  | .rDivResultL cpu a => Sys2Proof.Machine.execRDivResultL cpu a s
  | .wDivResultH cpu a => Sys2Proof.Machine.execWDivResultH cpu a s
  | .rDivResultH cpu a => Sys2Proof.Machine.execRDivResultH cpu a s
  | .wDivremResultL cpu a => Sys2Proof.Machine.execWDivremResultL cpu a s
  | .rDivremResultL cpu a => Sys2Proof.Machine.execRDivremResultL cpu a s
  | .wDivremResultH cpu a => Sys2Proof.Machine.execWDivremResultH cpu a s
  | .rDivremResultH cpu a => Sys2Proof.Machine.execRDivremResultH cpu a s
  | .wSqrtcnt cpu a => Sys2Proof.Machine.execWSqrtcnt cpu a s
  | .rSqrtcnt cpu a => Sys2Proof.Machine.execRSqrtcnt cpu a s
  | .wSqrtResult cpu a => Sys2Proof.Machine.execWSqrtResult cpu a s
  | .rSqrtResult cpu a => Sys2Proof.Machine.execRSqrtResult cpu a s
  | .wSqrtParamL cpu a => Sys2Proof.Machine.execWSqrtParamL cpu a s
  | .rSqrtParamL cpu a => Sys2Proof.Machine.execRSqrtParamL cpu a s
  | .wSqrtParamH cpu a => Sys2Proof.Machine.execWSqrtParamH cpu a s
  | .rSqrtParamH cpu a => Sys2Proof.Machine.execRSqrtParamH cpu a s
  | .wDma0Sad cpu a => Sys2Proof.Machine.execWDma0Sad cpu a s
  | .rDma0Sad cpu a => Sys2Proof.Machine.execRDma0Sad cpu a s
  | .wDma0Dad cpu a => Sys2Proof.Machine.execWDma0Dad cpu a s
  | .rDma0Dad cpu a => Sys2Proof.Machine.execRDma0Dad cpu a s
  | .wDma0Cnt cpu a => Sys2Proof.Machine.execWDma0Cnt cpu a s
  | .rDma0Cnt cpu a => Sys2Proof.Machine.execRDma0Cnt cpu a s
  | .wDma1Sad cpu a => Sys2Proof.Machine.execWDma1Sad cpu a s
  | .rDma1Sad cpu a => Sys2Proof.Machine.execRDma1Sad cpu a s
  | .wDma1Dad cpu a => Sys2Proof.Machine.execWDma1Dad cpu a s
  | .rDma1Dad cpu a => Sys2Proof.Machine.execRDma1Dad cpu a s
  | .wDma1Cnt cpu a => Sys2Proof.Machine.execWDma1Cnt cpu a s
  | .rDma1Cnt cpu a => Sys2Proof.Machine.execRDma1Cnt cpu a s
  | .wDma2Sad cpu a => Sys2Proof.Machine.execWDma2Sad cpu a s
  | .rDma2Sad cpu a => Sys2Proof.Machine.execRDma2Sad cpu a s
  | .wDma2Dad cpu a => Sys2Proof.Machine.execWDma2Dad cpu a s
  | .rDma2Dad cpu a => Sys2Proof.Machine.execRDma2Dad cpu a s
  | .wDma2Cnt cpu a => Sys2Proof.Machine.execWDma2Cnt cpu a s
  | .rDma2Cnt cpu a => Sys2Proof.Machine.execRDma2Cnt cpu a s
  | .wDma3Sad cpu a => Sys2Proof.Machine.execWDma3Sad cpu a s
  | .rDma3Sad cpu a => Sys2Proof.Machine.execRDma3Sad cpu a s
  | .wDma3Dad cpu a => Sys2Proof.Machine.execWDma3Dad cpu a s
  | .rDma3Dad cpu a => Sys2Proof.Machine.execRDma3Dad cpu a s
  | .wDma3Cnt cpu a => Sys2Proof.Machine.execWDma3Cnt cpu a s
  | .rDma3Cnt cpu a => Sys2Proof.Machine.execRDma3Cnt cpu a s
  | .trigger cpu mode channelMask => Sys2Proof.Machine.execTrigger cpu mode channelMask s
  | .dispatch cpu ch => Sys2Proof.Machine.execDispatch cpu ch s
  | .reset => Sys2Proof.Machine.execReset s

end Sys2Proof.Machine
end

