-- ==== Sys2Proof/Machine/Scheduler.lean ====
section
/-! DEFINITION. The scheduler when no other agent has a step to take: it dispatches a pending task, and a run has ended only
when none is left (R44, R183, R266). -/

namespace Sys2Proof.Machine

/-- The pairs of a CPU and a channel. -/
def allPairs : List (Cpu × Chan) := Cpu.all.flatMap fun cpu => Chan.all.map fun ch => (cpu, ch)

/-- The pairs with a task pending (R44). -/
def State.waiting (s : State) : List (Cpu × Chan) := allPairs.filter fun p => s.tasks p.1 p.2 != 0

/-- The pair whose task the scheduler dispatches next. R183 fixes no order among the pending tasks: a free value chooses
(log 16). -/
def State.nextTask (s : State) : Option (Cpu × Chan) :=
  match s.waiting with
  | [] => none
  | p :: ps => some ((p :: ps).getD ((s.free 1).toNat % (ps.length + 1)) p)

/-- The state in which the scheduler dispatches of its own accord: no stimulus says what the FIFO answers, so the answer is a
free value (R65; log 17). -/
def State.schedulerTurn (s : State) : State :=
  { s with fifoHalfEmpty := (s.free 0).getLsbD 0, freeCount := s.freeCount + 2 }

end Sys2Proof.Machine
end

