-- ==== Sys2Proof/Machine/Step.lean ====
section
/-! DEFINITION. One step of the machine: the next stimulus of the inbox is taken, decoded and run (log 2); where there is none,
the scheduler dispatches a pending task (R266). -/

namespace Sys2Proof.Machine

/-- The state in which the operation of the stimulus `x` runs: the stimulus is gone from the inbox, memory is as the outside
left it, and the FIFO answers as the stimulus says. -/
def State.take (s : State) (x : Stimulus) (rest : List Stimulus) : State := ({ s with inbox := rest }).arrive x

/-- One atomic step of one agent (R3). With an empty inbox no other agent has a step to offer, and the scheduler dispatches a
pending task; the run has ended when there is none (R266), and nothing changes then (log 2). -/
def step (s : State) : Host.Outcome State Fault Refusal :=
  match s.inbox with
  | [] =>
    match s.nextTask with
    | none => .next s
    | some p => exec (.dispatch p.1 p.2) s.schedulerTurn
  | x :: rest =>
    match decode s.cfg x.request with
    | .error e => .refused (.rejected e)
    | .ok i => exec i (s.take x rest)

/-- The state in which the very next step takes the request of a word (log 1, log 2). -/
def State.withFetchWord (s : State) (nbits w : Nat) : State :=
  { s with inbox := { outside := [], fifoHalfEmpty := s.fifoHalfEmpty, request := wordRequest nbits w } :: s.inbox }

end Sys2Proof.Machine
end

