-- ==== Sys2Proof/Safety.lean ====
section
/-! DEFINITION. The terms claims are stated in: what a safe step is, the invariants of the state, the lifecycle of a channel,
what a masked write leaves, and what a burst accesses. -/

namespace Sys2Proof.Machine

/-! Safe steps. -/

/-- The machine goes on: the step ends in a next state. -/
def GoesOn (s : State) : Prop := ∃ t, step s = .next t

/-- The run has ended (R266): no task is pending, and no agent has a further step to offer. -/
def Final (s : State) : Prop := s.inbox = [] ∧ ∀ cpu ch, s.tasks cpu ch = 0

/-! Invariants of the state. -/

/-- No bit outside its writable mask is set in any configuration register (R160). -/
def Masked (s : State) : Prop :=
  ∀ cpu ch,
    (s.chan cpu ch).sourceAddr &&& ~~~sadMask s.cfg cpu ch = 0#32
    ∧ (s.chan cpu ch).destAddr &&& ~~~dadMask s.cfg cpu ch = 0#32
    ∧ (s.chan cpu ch).control &&& ~~~cntMask s.cfg cpu ch = 0#32

/-- The reserved bits of `divControl` and `sqrtControl` are 0 (R21, R27). -/
def ReservedZero (u : ArithmeticUnit) : Prop :=
  u.divControl &&& ~~~divControlBits = 0#16 ∧ u.sqrtControl &&& ~~~sqrtControlMask = 0#16

/-- Every listed byte stands where some CPU's view shows it. -/
def Stands (c : Config) (h : Home) (m : Memory) : Prop := ∀ p ∈ m, ∃ cpu, homeOf c cpu (BitVec.ofNat 32 p.1) = h

/-- The memories are in canonical form, and no byte is listed where no view shows it (log 5). -/
def MemoryWf (s : State) : Prop := ∀ h, Memory.wf (s.memOf h) = true ∧ Stands s.cfg h (s.memOf h)

/-- The invariant that every step keeps. -/
def Inv (s : State) : Prop := Masked s ∧ ReservedZero s.au ∧ MemoryWf s

/-- `(divControl[14], divResult, divRemainder) = Div(divControl[1:0], divNumerator, divDenominator)` (R26). -/
def DivConsistent (u : ArithmeticUnit) : Prop :=
  divide (divMode u.divControl) u.divNumerator u.divDenominator = ⟨div0 u.divControl, u.divResult, u.divRemainder⟩

/-- `sqrtResult = Sqrt(sqrtControl[0], sqrtParameter)` (R30). -/
def SqrtConsistent (u : ArithmeticUnit) : Prop :=
  squareRoot (sqrtWidth u.sqrtControl) u.sqrtParameter = u.sqrtResult

/-! The lifecycle of a channel (R200). -/

def Idle (s : State) (cpu : Cpu) (ch : Chan) : Prop := ctlEnable (s.chan cpu ch).control = false

def Armed (s : State) (cpu : Cpu) (ch : Chan) : Prop :=
  ctlEnable (s.chan cpu ch).control = true ∧ s.tasks cpu ch = 0

def Pending (s : State) (cpu : Cpu) (ch : Chan) : Prop := 0 < s.tasks cpu ch

/-! What a register write leaves. -/

/-- Bit `i` after a masked write of the access `a` through the register's own mask `own`, at bit `base` of the register
(R51): the value's bit where both masks select it, else the old bit. -/
def bitAfter (a : WAccess) (own : Word) (base : Nat) (old : Bool) (i : Nat) : Bool :=
  if base ≤ i ∧ (maskOf a).getLsbD (i - base) ∧ own.getLsbD (i - base) then (valueOf a).getLsbD (i - base) else old

/-- The divider's six values are the same (R26). -/
def SameDivider (u v : ArithmeticUnit) : Prop :=
  u.divControl = v.divControl ∧ u.divNumerator = v.divNumerator ∧ u.divDenominator = v.divDenominator
  ∧ u.divResult = v.divResult ∧ u.divRemainder = v.divRemainder

/-- The square-root registers are the same. -/
def SameSqrt (u v : ArithmeticUnit) : Prop :=
  u.sqrtControl = v.sqrtControl ∧ u.sqrtParameter = v.sqrtParameter ∧ u.sqrtResult = v.sqrtResult

/-- The two control registers differ in `div0` alone. -/
def SameButFlag (c d : Half) : Prop := ∀ i, i ≠ 14 → c.getLsbD i = d.getLsbD i

/-! The operands of the divide operation (R100, R122). -/

/-- The numerator a mode uses, as a signed integer. -/
def divNum (mode : BitVec 2) (num : DWord) : Int := if mode = 0#2 then (lowHalf num).toInt else num.toInt

/-- The divisor a mode uses, as a signed integer. -/
def divDen (mode : BitVec 2) (den : DWord) : Int := if mode = 2#2 then den.toInt else (lowHalf den).toInt

/-- The overflow case of a mode (R120): the least value of the numerator operand divided by -1. -/
def divOverflows (mode : BitVec 2) (num den : DWord) : Prop :=
  divNum mode num = (if mode = 0#2 then -2 ^ 31 else -2 ^ 63) ∧ divDen mode den = -1

/-! What a burst accesses. -/

/-- A unit access that the model gives a meaning. -/
def lands (c : Config) (cpu : Cpu) (a : Word) (w : Width) : Bool :=
  match landing c cpu a w with
  | .ok _ => true
  | .error _ => false

/-- The source and the destination address of the `i`-th unit of the burst that DISPATCH would run (R186 to R188). -/
def unitSrc (s : State) (cpu : Cpu) (ch : Chan) (i : Nat) : Word :=
  (s.chan cpu ch).currentSrc + BitVec.ofNat 32 i * (planOf s cpu ch).srcStep

def unitDst (s : State) (cpu : Cpu) (ch : Chan) (i : Nat) : Word :=
  (s.chan cpu ch).currentDst + BitVec.ofNat 32 i * (planOf s cpu ch).dstStep

/-- Every unit of the burst lands where the model gives it a meaning. -/
def BurstLands (s : State) (cpu : Cpu) (ch : Chan) : Prop :=
  ∀ i, i < (planOf s cpu ch).copies →
    lands s.cfg cpu (unitSrc s cpu ch i) (planOf s cpu ch).unit = true
    ∧ lands s.cfg cpu (unitDst s cpu ch i) (planOf s cpu ch).unit = true

/-- The addresses whose bytes a unit write may change. -/
def storedAt (c : Config) (cpu : Cpu) (a : Word) (w : Width) : List Word :=
  match landing c cpu a w with
  | .ok (.memory ea) => (List.range w.bytes).map fun j => ea + BitVec.ofNat 32 j
  | .ok .unknown => (List.range (2 * w.bytes)).map fun j => alignDown a w + BitVec.ofNat 32 j
  | .ok (.register _ _) => []
  | .ok .port => []
  | .error _ => []

/-- The memory accesses of a trace, newest first, each with its value. -/
def transfers : List Event → List Event
  | [] => []
  | .memRead cpu addr w v :: es => .memRead cpu addr w v :: transfers es
  | .memWrite cpu addr w v :: es => .memWrite cpu addr w v :: transfers es
  | .readData _ _ _ :: es => transfers es
  | .schedule _ _ _ :: es => transfers es
  | .irq _ _ :: es => transfers es

/-- The interrupts of a trace, newest first: the CPU and the line. -/
def irqs : List Event → List (Cpu × Nat)
  | [] => []
  | .irq cpu line :: es => (cpu, line) :: irqs es
  | .readData _ _ _ :: es => irqs es
  | .memRead _ _ _ _ :: es => irqs es
  | .memWrite _ _ _ _ :: es => irqs es
  | .schedule _ _ _ :: es => irqs es

/-- The accesses of `n` units in the order of R67 b: read unit 0, write unit 0, read unit 1, and so on; each unit is written
with the value it was read with (R61). -/
def unitTransfers (cpu : Cpu) (w : Width) (src dst value : Nat → Word) (n : Nat) : List Event :=
  (List.range n).flatMap fun i => [.memRead cpu (src i) w (value i), .memWrite cpu (dst i) w (value i)]

/-- Whether step 1 of the bookkeeping ends the dispatch early (R190): units are left in GXFIFO mode, and the FIFO is still
half empty or the channel is to hold. -/
def endsEarly (s : State) (cpu : Cpu) (ch : Chan) : Prop :=
  ctlTrigMode (s.chan cpu ch).control = s.cfg.modeGxfifo
  ∧ (s.chan cpu ch).remainingWords ≠ (planOf s cpu ch).moved
  ∧ (s.fifoHalfEmpty = true ∨ s.cfg.gxfifoHold = true)

/-- Whether step 2 of the bookkeeping takes the repeat branch (R191). -/
def repeats (s : State) (cpu : Cpu) (ch : Chan) : Prop :=
  ctlRepeat (s.chan cpu ch).control = true ∧ ctlTrigMode (s.chan cpu ch).control ≠ 0#3

/-- Nothing but the ArithmeticUnit, the DMA state, the pending tasks, memory, the trace and the draw count has changed. -/
def SameSetting (s t : State) : Prop :=
  t.cfg = s.cfg ∧ t.compat = s.compat ∧ t.fifoHalfEmpty = s.fifoHalfEmpty ∧ t.inbox = s.inbox

/-! Frames. -/

/-- A step has touched the ArithmeticUnit only: every channel, every task, every byte of memory, the trace, the free values
and the setting are as before. -/
def SameOutsideAu (s t : State) : Prop :=
  (∀ cpu ch, t.chan cpu ch = s.chan cpu ch ∧ t.tasks cpu ch = s.tasks cpu ch)
  ∧ (∀ cpu a, t.byteAt cpu a = s.byteAt cpu a)
  ∧ t.trace = s.trace ∧ t.freeCount = s.freeCount ∧ SameSetting s t

/-- A step has touched one channel, its tasks and the trace only. -/
def SameOutsideChannel (cpu : Cpu) (ch : Chan) (s t : State) : Prop :=
  t.au = s.au
  ∧ (∀ d h, d ≠ cpu ∨ h ≠ ch → t.chan d h = s.chan d h ∧ t.tasks d h = s.tasks d h)
  ∧ (∀ d a, t.byteAt d a = s.byteAt d a)
  ∧ t.freeCount = s.freeCount ∧ SameSetting s t

/-- The three shadow registers are the same (R35 to R37). -/
def SameShadow (c d : Channel) : Prop :=
  c.currentSrc = d.currentSrc ∧ c.currentDst = d.currentDst ∧ c.remainingWords = d.remainingWords

/-- The schedule requests of a trace, newest first. -/
def schedules : List Event → List (Cpu × Chan)
  | [] => []
  | .schedule cpu ch _ :: es => (cpu, ch) :: schedules es
  | .readData _ _ _ :: es => schedules es
  | .memRead _ _ _ _ :: es => schedules es
  | .memWrite _ _ _ _ :: es => schedules es
  | .irq _ _ :: es => schedules es

/-! Bursts. -/

/-- DISPATCH of the channel is performed and has a meaning: a task is pending and every unit lands. -/
def Runs (s : State) (cpu : Cpu) (ch : Chan) : Prop := Pending s cpu ch ∧ BurstLands s cpu ch

/-- The addresses of a unit's bytes. -/
def unitBytes (a : Word) (w : Width) : List Word := (List.range w.bytes).map fun j => a + BitVec.ofNat 32 j

/-- Every unit of the burst is read from plain memory and written to plain memory, at the address as it stands. -/
def PlainBurst (s : State) (cpu : Cpu) (ch : Chan) : Prop :=
  ∀ i, i < (planOf s cpu ch).copies →
    landing s.cfg cpu (unitSrc s cpu ch i) (planOf s cpu ch).unit = .ok (.memory (unitSrc s cpu ch i))
    ∧ landing s.cfg cpu (unitDst s cpu ch i) (planOf s cpu ch).unit = .ok (.memory (unitDst s cpu ch i))

end Sys2Proof.Machine
end

