-- ==== Sys2Proof/Certificates/Slice0/Obligations.lean ====
section
/-! DEFINITION. The statements for the provers, in the order of OBLIGATIONS.json. -/

open Sys2Proof Sys2Proof.Machine

/-! Encoding, decoding and the step. -/

/-- Words written out from the operation formats of R70 and the default map of R84, in the numbering of log 1 (the model's),
decode to the operations they stand for; words of no operation are refused by name (R55, R85). -/
def Obligations.SpecWordsDecode : Prop :=
  decodeWord defaultConfig 0x000000000000006404000290#96 = .ok (.wDivNumerL .primary (.word 0x64#32))
  ∧ decodeWord defaultConfig 0x000100000000000204000280#96 = .ok (.wDivcnt .primary (.half false 2#16))
  ∧ decodeWord defaultConfig 0x0001010000008400040000DE#96 = .ok (.wDma3Cnt .secondary (.half true 0x8400#16))
  ∧ decodeWord defaultConfig 0x0001000100000000040002B0#96 = .ok (.rSqrtcnt .primary (.half false))
  ∧ decodeWord defaultConfig 0x0000010100000000040000BC#96 = .ok (.rDma1Sad .secondary .word)
  ∧ decodeWord defaultConfig 0x000001020000000600000003#96 = .ok (.trigger .secondary 3#32 6#4)
  ∧ decodeWord defaultConfig 0x000201030000000000000000#96 = .ok (.dispatch .secondary .ch2)
  ∧ decodeWord defaultConfig 0x000000040000000000000000#96 = .ok .reset
  ∧ decodeWord defaultConfig 0x000200000000000104000280#96 = .error .byteAccess
  ∧ decodeWord defaultConfig 0x000000000000000104000282#96 = .error .misaligned
  ∧ decodeWord defaultConfig 0x000000000000000104000284#96 = .error .notThisBlock
  ∧ decodeWord defaultConfig 0x000001000000000104000280#96 = .error .notThisBlock

/-- Under every configuration whose registers stand at distinct multiples of 4, the word of every well-formed operation
decodes to that operation, with every operand (R82, R84, R85; the numbering is log 1's). -/
def Obligations.DecodeEncodeAgrees : Prop :=
  ∀ (c : Config) (i : Instr), c.regMap.wf = true → i.wf c = true → decodeWord c (encodeWord c i) = .ok i

/-- The other direction: a bus access that decodes is the request its operation encodes to, up to the data bits above the
access width, which R82 does not use; and an event is exactly its own request (R82, R84, R85, R88). -/
def Obligations.EncodeReversesDecode : Prop :=
  ∀ (c : Config) (i : Instr),
    (∀ cpu addr w data, decode c (.regw cpu addr w data) = .ok i →
      encode c i = .regw cpu addr w (BitVec.ofNat 32 (data.toNat % 2 ^ (8 * w.bytes))))
    ∧ (∀ cpu addr w, decode c (.regr cpu addr w) = .ok i → encode c i = .regr cpu addr w)
    ∧ (∀ cpu mode m, decode c (.trigger cpu mode m) = .ok i → encode c i = .trigger cpu mode m)
    ∧ (∀ cpu ch, decode c (.dispatch cpu ch) = .ok i → encode c i = .dispatch cpu ch)
    ∧ (decode c .reset = .ok i → encode c i = .reset)

/-- What the decoder answers is well-formed under the configuration it decodes with (R55, R85). -/
def Obligations.DecodedIsWellFormed : Prop :=
  ∀ (c : Config) (v : BitVec 96) (i : Instr), decodeWord c v = .ok i → i.wf c = true

/-- Decoding is total and its three answers exclude each other (R55, R85): an access is refused exactly for a width that is
not admitted or an address that is no multiple of its width, is not this block's exactly where no register the CPU reaches
stands at its slot, and is an operation otherwise. That width and alignment come first is log 27. -/
def Obligations.AccessIsOneOfThree : Prop :=
  ∀ (c : Config) (cpu : Cpu) (addr : Word) (w : Width) (data : Word),
    let r := decode c (.regw cpu addr w data)
    let q := decode c (.regr cpu addr w)
    let admitted := addr.toNat % w.bytes = 0 ∧ (w = .byte → c.byteAccess = true)
    let here := ∃ id, (c.regMap.get id).toNat = addr.toNat - addr.toNat % 4 ∧ id.reachable c cpu = true
    ((∃ i, r = .ok i) ↔ admitted ∧ here) ∧ ((∃ i, q = .ok i) ↔ admitted ∧ here)
    ∧ (r = .error .notThisBlock ↔ admitted ∧ ¬here) ∧ (q = .error .notThisBlock ↔ admitted ∧ ¬here)
    ∧ (r = .error .misaligned ↔ addr.toNat % w.bytes ≠ 0) ∧ (q = .error .misaligned ↔ addr.toNat % w.bytes ≠ 0)
    ∧ (r = .error .byteAccess ↔ w = .byte ∧ c.byteAccess = false)
    ∧ (q = .error .byteAccess ↔ w = .byte ∧ c.byteAccess = false)

/-- The operands of a register write (R52, R82): with `k = addr mod 4` the operation is the write of the register at
`addr - k`, its mask is `((2^(8w) - 1) << 8k) mod 2^32` and its value `(data << 8k) mod 2^32`, where the data are `8w` bits. -/
def Obligations.WriteOperands : Prop :=
  ∀ (c : Config) (cpu : Cpu) (addr : Word) (w : Width) (data : Word) (i : Instr),
    decode c (.regw cpu addr w data) = .ok i →
      ∃ id a, i = Instr.ofWrite cpu a id
        ∧ (c.regMap.get id).toNat = addr.toNat - addr.toNat % 4
        ∧ (maskOf a).toNat = (2 ^ (8 * w.bytes) - 1) * 2 ^ (8 * (addr.toNat % 4)) % 2 ^ 32
        ∧ (valueOf a).toNat = data.toNat % 2 ^ (8 * w.bytes) * 2 ^ (8 * (addr.toNat % 4)) % 2 ^ 32

/-- The data of a register read (R52, R82): with `k = addr mod 4` the operation is the read of the register at `addr - k`,
and of the slot value `v` it answers `(v >> 8k)[8w-1:0]`. -/
def Obligations.ReadOperands : Prop :=
  ∀ (c : Config) (cpu : Cpu) (addr : Word) (w : Width) (i : Instr),
    decode c (.regr cpu addr w) = .ok i →
      ∃ id a, i = Instr.ofRead cpu a id ∧ a.width = w
        ∧ (c.regMap.get id).toNat = addr.toNat - addr.toNat % 4
        ∧ ∀ v : Word, (readValue a v).toNat = v.toNat / 2 ^ (8 * (addr.toNat % 4)) % 2 ^ (8 * w.bytes)

/-- A step takes the first stimulus of the inbox and runs the operation its request decodes to, in the state in which the
stimulus is gone, the FIFO answers as the stimulus says, and nothing of the block is changed; where the outside did
nothing to memory, memory is as before. A word placed with `withFetchWord` is run by the very next step (log 2). -/
def Obligations.StepRunsDecoded : Prop :=
  ∀ (s : State) (x : Stimulus) (rest : List Stimulus) (i : Instr) (n w : Nat),
    (s.inbox = x :: rest → decode s.cfg x.request = .ok i →
      step s = exec i (s.take x rest)
      ∧ (s.take x rest).au = s.au ∧ (s.take x rest).dma = s.dma ∧ (s.take x rest).pending = s.pending
      ∧ (s.take x rest).cfg = s.cfg ∧ (s.take x rest).compat = s.compat ∧ (s.take x rest).trace = s.trace
      ∧ (s.take x rest).freeCount = s.freeCount ∧ (s.take x rest).inbox = rest
      ∧ (s.take x rest).fifoHalfEmpty = x.fifoHalfEmpty
      ∧ (x.outside = [] → (s.take x rest).mem = s.mem))
    ∧ (decode s.cfg (wordRequest n w) = .ok i → step (s.withFetchWord n w) = exec i s)

/-- What a step does where no request decodes. With an empty inbox and no task pending the run has ended, and nothing changes;
with an empty inbox and a task pending it has not (R266), and the step is the DISPATCH of some pending pair, under some answer
of the FIFO (which pair and which answer are free values: log 16, log 17); a request that stands for no operation is refused,
with the reason (R55, R85; log 13). -/
def Obligations.StepWithoutOperation : Prop :=
  ∀ (s : State) (x : Stimulus) (rest : List Stimulus) (e : Reject),
    (Final s → step s = .next s)
    ∧ (s.inbox = [] → (∃ cpu ch, s.tasks cpu ch ≠ 0) →
        ∃ cpu ch fifo, s.tasks cpu ch ≠ 0
          ∧ step s = exec (.dispatch cpu ch) { s with fifoHalfEmpty := fifo, freeCount := s.freeCount + 2 })
    ∧ (s.inbox = x :: rest → decode s.cfg x.request = .error e → step s = .refused (.rejected e))

/-! The divider. -/

/-- R101: `W.DIVCNT` completes; it writes the bits 1:0 its mask selects and no other bit of the merge, keeps both operands,
and leaves the flag and both results as `Div` gives them; an access to the upper half of the slot is not this operation and
does nothing (R54). Nothing outside the ArithmeticUnit and nothing of the square-root unit changes. (The reserved bits and the
upper half are the spec's decisions D7 and D34.) -/
def Obligations.DivcntWrite : Prop :=
  ∀ (cpu : Cpu) (a : WAccess) (s : State),
    encode s.cfg (.wDivcnt cpu a) = .regw cpu (s.cfg.regMap.divcnt ||| a.lane.setWidth 32) a.width a.data
    ∧ ∃ t, exec (.wDivcnt cpu a) s = .next t ∧ SameOutsideAu s t ∧ SameSqrt t.au s.au
      ∧ t.au.divNumerator = s.au.divNumerator ∧ t.au.divDenominator = s.au.divDenominator
      ∧ (2 ≤ a.lane.toNat → t = s)
      ∧ (a.lane.toNat < 2 →
          DivConsistent t.au
          ∧ ∀ i, i ≠ 14 → t.au.divControl.getLsbD i = bitAfter a 0x00000003#32 0 (s.au.divControl.getLsbD i) i)

/-- R102 to R105: each of the four operand writes completes, replaces exactly the bits of its half that the mask selects by
the value's, keeps the other half and the other operand, and leaves the flag and both results as `Div` gives them; of the
control register only the flag can change. Where the results were consistent before, a write to the high half of the
numerator in mode 0 keeps flag and results, and one to the high half of the denominator in every mode but 2 keeps the
results. Nothing outside the ArithmeticUnit and nothing of the square-root unit changes. -/
def Obligations.DivOperandWrites : Prop :=
  ∀ (cpu : Cpu) (a : WAccess) (s : State),
    (encode s.cfg (.wDivNumerL cpu a) = .regw cpu (s.cfg.regMap.divNumerL ||| a.lane.setWidth 32) a.width a.data
      ∧ ∃ t, exec (.wDivNumerL cpu a) s = .next t ∧ SameOutsideAu s t ∧ SameSqrt t.au s.au
        ∧ (∀ i, t.au.divNumerator.getLsbD i = bitAfter a 0xFFFFFFFF#32 0 (s.au.divNumerator.getLsbD i) i)
        ∧ t.au.divDenominator = s.au.divDenominator
        ∧ SameButFlag t.au.divControl s.au.divControl ∧ DivConsistent t.au)
    ∧ (encode s.cfg (.wDivNumerH cpu a) = .regw cpu (s.cfg.regMap.divNumerH ||| a.lane.setWidth 32) a.width a.data
      ∧ ∃ t, exec (.wDivNumerH cpu a) s = .next t ∧ SameOutsideAu s t ∧ SameSqrt t.au s.au
        ∧ (∀ i, t.au.divNumerator.getLsbD i = bitAfter a 0xFFFFFFFF#32 32 (s.au.divNumerator.getLsbD i) i)
        ∧ t.au.divDenominator = s.au.divDenominator
        ∧ SameButFlag t.au.divControl s.au.divControl ∧ DivConsistent t.au
        ∧ (DivConsistent s.au → divMode s.au.divControl = 0#2 →
            t.au.divResult = s.au.divResult ∧ t.au.divRemainder = s.au.divRemainder ∧ t.au.divControl = s.au.divControl))
    ∧ (encode s.cfg (.wDivDenomL cpu a) = .regw cpu (s.cfg.regMap.divDenomL ||| a.lane.setWidth 32) a.width a.data
      ∧ ∃ t, exec (.wDivDenomL cpu a) s = .next t ∧ SameOutsideAu s t ∧ SameSqrt t.au s.au
        ∧ (∀ i, t.au.divDenominator.getLsbD i = bitAfter a 0xFFFFFFFF#32 0 (s.au.divDenominator.getLsbD i) i)
        ∧ t.au.divNumerator = s.au.divNumerator
        ∧ SameButFlag t.au.divControl s.au.divControl ∧ DivConsistent t.au)
    ∧ (encode s.cfg (.wDivDenomH cpu a) = .regw cpu (s.cfg.regMap.divDenomH ||| a.lane.setWidth 32) a.width a.data
      ∧ ∃ t, exec (.wDivDenomH cpu a) s = .next t ∧ SameOutsideAu s t ∧ SameSqrt t.au s.au
        ∧ (∀ i, t.au.divDenominator.getLsbD i = bitAfter a 0xFFFFFFFF#32 32 (s.au.divDenominator.getLsbD i) i)
        ∧ t.au.divNumerator = s.au.divNumerator
        ∧ SameButFlag t.au.divControl s.au.divControl ∧ DivConsistent t.au
        ∧ (DivConsistent s.au → divMode s.au.divControl ≠ 2#2 →
            t.au.divResult = s.au.divResult ∧ t.au.divRemainder = s.au.divRemainder))

/-- The writes to the four result halves of the divider and to the square-root result are accepted and change nothing
(R106 to R109, R134; the spec's decision D9, log 20). -/
def Obligations.ResultWritesIgnored : Prop :=
  ∀ (cpu : Cpu) (a : WAccess) (s : State),
    exec (.wDivResultL cpu a) s = .next s ∧ exec (.wDivResultH cpu a) s = .next s
    ∧ exec (.wDivremResultL cpu a) s = .next s ∧ exec (.wDivremResultH cpu a) s = .next s
    ∧ exec (.wSqrtResult cpu a) s = .next s

/-- R113, R115, R117, R137: these four reads answer the low half of their register and change nothing else; the answer is
the trace's new event (log 15). (That a read changes nothing is the spec's decision D25.) -/
def Obligations.LowHalfReads : Prop :=
  ∀ (cpu : Cpu) (a : RAccess) (s : State),
    exec (.rDivDenomL cpu a) s =
      .next { s with trace := .readData cpu a.width (readValue a (s.au.divDenominator.extractLsb' 0 32)) :: s.trace }
    ∧ exec (.rDivResultL cpu a) s =
      .next { s with trace := .readData cpu a.width (readValue a (s.au.divResult.extractLsb' 0 32)) :: s.trace }
    ∧ exec (.rDivremResultL cpu a) s =
      .next { s with trace := .readData cpu a.width (readValue a (s.au.divRemainder.extractLsb' 0 32)) :: s.trace }
    ∧ exec (.rSqrtParamL cpu a) s =
      .next { s with trace := .readData cpu a.width (readValue a (s.au.sqrtParameter.extractLsb' 0 32)) :: s.trace }

/-- R110 to R112, R114, R116, R118, R135, R136, R138: the other nine ArithmeticUnit reads answer their slot and change
nothing else. The control registers are read zero-extended, given that their reserved bits are 0 (R21, R27; log 19). (The
spec's decisions D25 and D34.) -/
def Obligations.OtherUnitReads : Prop :=
  ∀ (cpu : Cpu) (a : RAccess) (s : State), ReservedZero s.au →
    exec (.rDivcnt cpu a) s =
      .next { s with trace := .readData cpu a.width (readValue a (s.au.divControl.setWidth 32)) :: s.trace }
    ∧ exec (.rDivNumerL cpu a) s =
      .next { s with trace := .readData cpu a.width (readValue a (s.au.divNumerator.extractLsb' 0 32)) :: s.trace }
    ∧ exec (.rDivNumerH cpu a) s =
      .next { s with trace := .readData cpu a.width (readValue a (s.au.divNumerator.extractLsb' 32 32)) :: s.trace }
    ∧ exec (.rDivDenomH cpu a) s =
      .next { s with trace := .readData cpu a.width (readValue a (s.au.divDenominator.extractLsb' 32 32)) :: s.trace }
    ∧ exec (.rDivResultH cpu a) s =
      .next { s with trace := .readData cpu a.width (readValue a (s.au.divResult.extractLsb' 32 32)) :: s.trace }
    ∧ exec (.rDivremResultH cpu a) s =
      .next { s with trace := .readData cpu a.width (readValue a (s.au.divRemainder.extractLsb' 32 32)) :: s.trace }
    ∧ exec (.rSqrtcnt cpu a) s =
      .next { s with trace := .readData cpu a.width (readValue a (s.au.sqrtControl.setWidth 32)) :: s.trace }
    ∧ exec (.rSqrtResult cpu a) s =
      .next { s with trace := .readData cpu a.width (readValue a s.au.sqrtResult) :: s.trace }
    ∧ exec (.rSqrtParamH cpu a) s =
      .next { s with trace := .readData cpu a.width (readValue a (s.au.sqrtParameter.extractLsb' 32 32)) :: s.trace }

/-- R119: for every mode with a nonzero divisor, outside the overflow case, `result * d + remainder = n` over the integers,
`|remainder| < |d|`, and the remainder is 0 or has the sign of `n`; in the overflow case of modes 1, 2 and 3 the first
equation holds modulo 2^64. (Of mode 0 it does not: see the next statement.) -/
def Obligations.DivisionLaw : Prop :=
  ∀ (mode : BitVec 2) (num den : DWord),
    let q := (divide mode num den).result.toInt
    let r := (divide mode num den).remainder.toInt
    (divDen mode den ≠ 0 → ¬divOverflows mode num den →
      q * divDen mode den + r = divNum mode num
      ∧ r.natAbs < (divDen mode den).natAbs
      ∧ (r = 0 ∨ (r < 0 ↔ divNum mode num < 0)))
    ∧ (mode ≠ 0#2 → divOverflows mode num den → (q * divDen mode den + r - divNum mode num) % 2 ^ 64 = 0)

/-- R119's last sentence as it stands, for the overflow case of every mode. It is expected to FAIL: in mode 0 the pseudocode
of R100 and the table of R120, which the model follows, give the result -2^31 for the operands -2^31 and -1, so that the two
sides differ by 2^32 (log 22). -/
def Obligations.OverflowEquationInEveryMode : Prop :=
  ∀ (mode : BitVec 2) (num den : DWord), divOverflows mode num den →
    ((divide mode num den).result.toInt * divDen mode den + (divide mode num den).remainder.toInt - divNum mode num)
      % 2 ^ 64 = 0

/-- R120, the sentinels: the overflow case of each mode gives the least value and remainder 0; a zero divisor gives -1 or +1
by the sign of the numerator operand, and that operand as the remainder. -/
def Obligations.Sentinels : Prop :=
  ∀ (mode : BitVec 2) (num den : DWord),
    (divOverflows mode num den →
      (divide mode num den).result = (if mode = 0#2 then 0xFFFFFFFF80000000#64 else 0x8000000000000000#64)
      ∧ (divide mode num den).remainder = 0#64 ∧ (divide mode num den).div0 = false)
    ∧ (divDen mode den = 0 →
      (divide mode num den).result = (if divNum mode num < 0 then 1#64 else 0xFFFFFFFFFFFFFFFF#64)
      ∧ (divide mode num den).remainder.toInt = divNum mode num)

/-- The flag (R21, R100, 90_conflicts.md C2): it is 1 exactly if the whole denominator register is 0, in every mode, and
then the divisor of the mode is 0; the converse fails in every mode but 2. -/
def Obligations.FlagIsWholeDenominator : Prop :=
  ∀ (mode : BitVec 2) (num den : DWord),
    ((divide mode num den).div0 = true ↔ den = 0#64)
    ∧ ((divide mode num den).div0 = true → divDen mode den = 0)
    ∧ (mode ≠ 2#2 → ∃ den', divDen mode den' = 0 ∧ (divide mode num den').div0 = false)

/-- R122 and the corner cases of R100: mode 3 computes as mode 1; the results of mode 0 depend on the low halves alone and
are sign extensions of 32-bit values; the results of modes 1 and 3 depend on the low half of the denominator alone. -/
def Obligations.ModeWidths : Prop :=
  ∀ (num den num' den' : DWord),
    divide 3#2 num den = divide 1#2 num den
    ∧ (lowHalf num = lowHalf num' → lowHalf den = lowHalf den' →
        (divide 0#2 num den).result = (divide 0#2 num' den').result
        ∧ (divide 0#2 num den).remainder = (divide 0#2 num' den').remainder)
    ∧ (divide 0#2 num den).result = (lowHalf (divide 0#2 num den).result).signExtend 64
    ∧ (divide 0#2 num den).remainder = (lowHalf (divide 0#2 num den).remainder).signExtend 64
    ∧ (lowHalf den = lowHalf den' →
        (divide 1#2 num den).result = (divide 1#2 num den').result
        ∧ (divide 1#2 num den).remainder = (divide 1#2 num den').remainder)

/-! The square root. -/

/-- R131: `W.SQRTCNT` completes; it writes the width bit where the mask selects it and no other bit of the merge, keeps the
parameter, and leaves `sqrtResult` as `Sqrt` gives it; an access to the upper half of the slot is not this operation and does
nothing (R54). Nothing outside the ArithmeticUnit and nothing of the divider changes. (The reserved bits and the upper half
are the spec's decisions D8 and D34.) -/
def Obligations.SqrtcntWrite : Prop :=
  ∀ (cpu : Cpu) (a : WAccess) (s : State),
    encode s.cfg (.wSqrtcnt cpu a) = .regw cpu (s.cfg.regMap.sqrtcnt ||| a.lane.setWidth 32) a.width a.data
    ∧ ∃ t, exec (.wSqrtcnt cpu a) s = .next t ∧ SameOutsideAu s t ∧ SameDivider t.au s.au
      ∧ t.au.sqrtParameter = s.au.sqrtParameter
      ∧ (2 ≤ a.lane.toNat → t = s)
      ∧ (a.lane.toNat < 2 →
          SqrtConsistent t.au
          ∧ ∀ i, t.au.sqrtControl.getLsbD i = bitAfter a 0x00000001#32 0 (s.au.sqrtControl.getLsbD i) i)

/-- R132, R133: the two writes of the parameter complete, replace exactly the bits of their half that the mask selects, keep
the other half and the control register, and leave `sqrtResult` as `Sqrt` gives it; with width 0 a write to the high half
keeps it. Nothing outside the ArithmeticUnit and nothing of the divider changes. -/
def Obligations.SqrtParamWrites : Prop :=
  ∀ (cpu : Cpu) (a : WAccess) (s : State),
    (encode s.cfg (.wSqrtParamL cpu a) = .regw cpu (s.cfg.regMap.sqrtParamL ||| a.lane.setWidth 32) a.width a.data
      ∧ ∃ t, exec (.wSqrtParamL cpu a) s = .next t ∧ SameOutsideAu s t ∧ SameDivider t.au s.au
        ∧ (∀ i, t.au.sqrtParameter.getLsbD i = bitAfter a 0xFFFFFFFF#32 0 (s.au.sqrtParameter.getLsbD i) i)
        ∧ t.au.sqrtControl = s.au.sqrtControl ∧ SqrtConsistent t.au)
    ∧ (encode s.cfg (.wSqrtParamH cpu a) = .regw cpu (s.cfg.regMap.sqrtParamH ||| a.lane.setWidth 32) a.width a.data
      ∧ ∃ t, exec (.wSqrtParamH cpu a) s = .next t ∧ SameOutsideAu s t ∧ SameDivider t.au s.au
        ∧ (∀ i, t.au.sqrtParameter.getLsbD i = bitAfter a 0xFFFFFFFF#32 32 (s.au.sqrtParameter.getLsbD i) i)
        ∧ t.au.sqrtControl = s.au.sqrtControl ∧ SqrtConsistent t.au
        ∧ (SqrtConsistent s.au → sqrtWidth s.au.sqrtControl = false → t.au.sqrtResult = s.au.sqrtResult))

/-- R139: the result is the exact integer root of the selected input, read as unsigned (the spec's decision D12). -/
def Obligations.SquareRootLaw : Prop :=
  ∀ (width : Bool) (param : DWord),
    let r := (squareRoot width param).toNat
    let v := if width then param.toNat else param.toNat % 2 ^ 32
    r * r ≤ v ∧ v < (r + 1) * (r + 1)

/-- R139's consequences: the root of 0 is 0, the root of a square is its side, for every side whose square fits the selected
width, and the root is monotone in the selected input. -/
def Obligations.SquareRootConsequences : Prop :=
  (∀ width, squareRoot width 0#64 = 0#32)
  ∧ (∀ k : Nat, k ≤ 0xFFFF → squareRoot false (BitVec.ofNat 64 (k * k)) = BitVec.ofNat 32 k)
  ∧ (∀ k : Nat, k ≤ 0xFFFFFFFF → squareRoot true (BitVec.ofNat 64 (k * k)) = BitVec.ofNat 32 k)
  ∧ ∀ (width : Bool) (p q : DWord),
      (if width then p.toNat else p.toNat % 2 ^ 32) ≤ (if width then q.toNat else q.toNat % 2 ^ 32) →
        (squareRoot width p).toNat ≤ (squareRoot width q).toNat

/-! The DMA configuration registers. -/

/-- R154, R155: a write to a source or a destination address completes, replaces exactly the bits that the access and the
register's mask select, and changes nothing else: no shadow register, no task, no event. (The eight constructors
`wDma<n>Sad`, `wDma<n>Dad`.) -/
def Obligations.AddressWrites : Prop :=
  ∀ (cpu : Cpu) (ch : Chan) (a : WAccess) (s : State),
    (encode s.cfg (Instr.ofWrite cpu a (.sad ch))
        = .regw cpu ((s.cfg.regMap.dma.get ch).sad ||| a.lane.setWidth 32) a.width a.data
      ∧ ∃ t, exec (Instr.ofWrite cpu a (.sad ch)) s = .next t ∧ SameOutsideChannel cpu ch s t
        ∧ t.tasks cpu ch = s.tasks cpu ch ∧ t.trace = s.trace
        ∧ (∀ i, (t.chan cpu ch).sourceAddr.getLsbD i
            = bitAfter a (sadMask s.cfg cpu ch) 0 ((s.chan cpu ch).sourceAddr.getLsbD i) i)
        ∧ (t.chan cpu ch).destAddr = (s.chan cpu ch).destAddr ∧ (t.chan cpu ch).control = (s.chan cpu ch).control
        ∧ SameShadow (t.chan cpu ch) (s.chan cpu ch))
    ∧ (encode s.cfg (Instr.ofWrite cpu a (.dad ch))
        = .regw cpu ((s.cfg.regMap.dma.get ch).dad ||| a.lane.setWidth 32) a.width a.data
      ∧ ∃ t, exec (Instr.ofWrite cpu a (.dad ch)) s = .next t ∧ SameOutsideChannel cpu ch s t
        ∧ t.tasks cpu ch = s.tasks cpu ch ∧ t.trace = s.trace
        ∧ (∀ i, (t.chan cpu ch).destAddr.getLsbD i
            = bitAfter a (dadMask s.cfg cpu ch) 0 ((s.chan cpu ch).destAddr.getLsbD i) i)
        ∧ (t.chan cpu ch).sourceAddr = (s.chan cpu ch).sourceAddr ∧ (t.chan cpu ch).control = (s.chan cpu ch).control
        ∧ SameShadow (t.chan cpu ch) (s.chan cpu ch))

/-- R150 to R152 and R160's test: a 32-bit write of all ones, to a channel whose registers keep to their masks, leaves
exactly the mask of the table in each configuration register. The tables' reading is the spec's decision D15, the default
values are general knowledge (log 12). -/
def Obligations.AllOnesShowTheMasks : Prop :=
  ∀ (cpu : Cpu) (ch : Chan) (s : State), Masked s →
    (∃ t, exec (Instr.ofWrite cpu (.word 0xFFFFFFFF#32) (.sad ch)) s = .next t
      ∧ (t.chan cpu ch).sourceAddr
        = (if cpu = .secondary ∧ ch = .ch0 then s.cfg.addrMaskNarrow else s.cfg.addrMaskWide))
    ∧ (∃ t, exec (Instr.ofWrite cpu (.word 0xFFFFFFFF#32) (.dad ch)) s = .next t
      ∧ (t.chan cpu ch).destAddr
        = (if cpu = .secondary ∧ ch ≠ .ch3 then s.cfg.addrMaskNarrow else s.cfg.addrMaskWide))
    ∧ (∃ t, exec (Instr.ofWrite cpu (.word 0xFFFFFFFF#32) (.cnt ch)) s = .next t
      ∧ (t.chan cpu ch).control
        = (match cpu with | .primary => 0xFFFFFFFF#32 | .secondary => s.cfg.cntMaskSecondary.get ch))

/-- R153: a write to a channel's control register completes; it merges under the access and the register's mask, loads the
shadow registers exactly at a 0 to 1 transition of `enable`, and adds one task for the GXFIFO condition and one for the
immediate start; nothing else changes, and no unit is copied. (The four constructors `wDma<n>Cnt`; the enable test of part
1 is the spec's decision D20.) -/
def Obligations.ControlWrite : Prop :=
  ∀ (cpu : Cpu) (ch : Chan) (a : WAccess) (s : State),
    encode s.cfg (Instr.ofWrite cpu a (.cnt ch))
        = .regw cpu ((s.cfg.regMap.dma.get ch).cnt ||| a.lane.setWidth 32) a.width a.data
    ∧ ∃ t, exec (Instr.ofWrite cpu a (.cnt ch)) s = .next t ∧ SameOutsideChannel cpu ch s t
      ∧ (∀ i, (t.chan cpu ch).control.getLsbD i
          = bitAfter a (cntMask s.cfg cpu ch) 0 ((s.chan cpu ch).control.getLsbD i) i)
      ∧ (t.chan cpu ch).sourceAddr = (s.chan cpu ch).sourceAddr ∧ (t.chan cpu ch).destAddr = (s.chan cpu ch).destAddr
      ∧ (let starts := (s.chan cpu ch).control.getLsbD 31 = false ∧ (t.chan cpu ch).control.getLsbD 31 = true
         let fifo := (t.chan cpu ch).control.getLsbD 31 = true
           ∧ (t.chan cpu ch).control.extractLsb' 27 3 = s.cfg.modeGxfifo ∧ s.fifoHalfEmpty = true
         let now := starts ∧ (t.chan cpu ch).control.extractLsb' 27 3 = 0#3
         let n := (if fifo then 1 else 0) + (if now then 1 else 0)
         (starts → (t.chan cpu ch).currentSrc = (s.chan cpu ch).sourceAddr
            ∧ (t.chan cpu ch).currentDst = (s.chan cpu ch).destAddr
            ∧ (t.chan cpu ch).remainingWords = (t.chan cpu ch).control.extractLsb' 0 21)
         ∧ (¬starts → SameShadow (t.chan cpu ch) (s.chan cpu ch))
         ∧ t.tasks cpu ch = s.tasks cpu ch + n
         ∧ t.trace = List.replicate n (.schedule cpu ch s.cfg.schedDelay) ++ s.trace)

/-- R156 to R158: the three reads of a channel answer the configuration registers, never the working ones; the count
half-word of the control register reads 0 in compatibility mode; nothing else changes. (The twelve constructors
`rDma<n>Sad`, `rDma<n>Dad`, `rDma<n>Cnt`; the spec's decision D25.) -/
def Obligations.ChannelReads : Prop :=
  ∀ (cpu : Cpu) (ch : Chan) (a : RAccess) (s : State),
    exec (Instr.ofRead cpu a (.sad ch)) s =
      .next { s with trace := .readData cpu a.width (readValue a (s.chan cpu ch).sourceAddr) :: s.trace }
    ∧ exec (Instr.ofRead cpu a (.dad ch)) s =
      .next { s with trace := .readData cpu a.width (readValue a (s.chan cpu ch).destAddr) :: s.trace }
    ∧ exec (Instr.ofRead cpu a (.cnt ch)) s =
      .next { s with trace := .readData cpu a.width (readValue a
        (if s.compat then (s.chan cpu ch).control &&& 0xFFFF0000#32 else (s.chan cpu ch).control)) :: s.trace }

/-- R159: no operation but a DISPATCH adds a task for a channel that is disabled after it, nor sends a schedule request for
one; the address writes send none at all; and TRIGGER adds none for a channel that is disabled before it. -/
def Obligations.DisabledIsNeverScheduled : Prop :=
  ∀ (i : Instr) (s t : State), exec i s = .next t →
    (∀ cpu ch, (∀ d h, i ≠ .dispatch d h) → (t.chan cpu ch).control.getLsbD 31 = false →
      t.tasks cpu ch ≤ s.tasks cpu ch
      ∧ (schedules t.trace).count (cpu, ch) = (schedules s.trace).count (cpu, ch))
    ∧ (∀ cpu ch a, i = Instr.ofWrite cpu a (.sad ch) ∨ i = Instr.ofWrite cpu a (.dad ch) →
      t.pending = s.pending ∧ t.trace = s.trace)
    ∧ (∀ cpu mode m ch, i = .trigger cpu mode m → (s.chan cpu ch).control.getLsbD 31 = false →
      t.tasks cpu ch = s.tasks cpu ch)

/-- `Schedule` adds one task of its channel, sends one request with `SCHED_DELAY`, and does nothing else: no unit is copied
(R63, R181). -/
def Obligations.ScheduleOnlyQueues : Prop :=
  ∀ (cpu : Cpu) (ch : Chan) (s : State),
    (schedule cpu ch s).tasks cpu ch = s.tasks cpu ch + 1
    ∧ (∀ d h, d ≠ cpu ∨ h ≠ ch → (schedule cpu ch s).tasks d h = s.tasks d h)
    ∧ (schedule cpu ch s).trace = .schedule cpu ch s.cfg.schedDelay :: s.trace
    ∧ (schedule cpu ch s).dma = s.dma ∧ (schedule cpu ch s).au = s.au ∧ (schedule cpu ch s).mem = s.mem
    ∧ (schedule cpu ch s).freeCount = s.freeCount ∧ SameSetting s (schedule cpu ch s)

/-! The DMA state machine. -/

/-- R182: TRIGGER completes and adds one task for exactly the channels of its own CPU that the mask selects, that are
enabled, and whose trigger field equals the mode, doubled on the secondary CPU (the spec's decision D18); it changes no
register, no byte, no interrupt, and accesses no memory. -/
def Obligations.TriggerQueuesMatching : Prop :=
  ∀ (cpu : Cpu) (mode : Word) (m : BitVec 4) (s : State),
    ∃ t, exec (.trigger cpu mode m) s = .next t
      ∧ (∀ ch, t.tasks cpu ch = s.tasks cpu ch
          + (if m.getLsbD ch.index = true ∧ (s.chan cpu ch).control.getLsbD 31 = true
                ∧ ((s.chan cpu ch).control.extractLsb' 27 3).toNat
                  = (match cpu with | .primary => mode.toNat | .secondary => 2 * mode.toNat)
             then 1 else 0))
      ∧ (∀ d ch, d ≠ cpu → t.tasks d ch = s.tasks d ch)
      ∧ t.au = s.au ∧ t.dma = s.dma ∧ (∀ d a, t.byteAt d a = s.byteAt d a)
      ∧ irqs t.trace = irqs s.trace ∧ transfers t.trace = transfers s.trace
      ∧ t.freeCount = s.freeCount ∧ SameSetting s t

/-- R183: DISPATCH completes exactly if a task of the pair is pending and every unit of the burst lands (where one does not,
the model refuses by name: log 9 to log 11); without a task it is refused (log 14). -/
def Obligations.DispatchCompletes : Prop :=
  ∀ (cpu : Cpu) (ch : Chan) (s : State),
    ((∃ t, exec (.dispatch cpu ch) s = .next t) ↔ Runs s cpu ch)
    ∧ (s.tasks cpu ch = 0 → exec (.dispatch cpu ch) s = .refused .dispatchNotPending)

/-- R202 (the spec's decision D29): a burst whose first unit that does not land reads or writes, at a multiple of the unit's
size, a DMA register that the CPU reaches is refused by that name. -/
def Obligations.DmaRegisterInBurstRefused : Prop :=
  ∀ (cpu : Cpu) (ch : Chan) (s : State) (i : Nat) (id : RegId),
    let p := planOf s cpu ch
    Pending s cpu ch → i < p.copies →
    (∀ j, j < i → lands s.cfg cpu (unitSrc s cpu ch j) p.unit = true ∧ lands s.cfg cpu (unitDst s cpu ch j) p.unit = true) →
    (∀ r, id ≠ .au r) →
    ((unitSrc s cpu ch i).toNat % p.unit.bytes = 0 ∧ regAt s.cfg cpu (slotOf (unitSrc s cpu ch i)) = some id
      ∨ lands s.cfg cpu (unitSrc s cpu ch i) p.unit = true
        ∧ (unitDst s cpu ch i).toNat % p.unit.bytes = 0 ∧ regAt s.cfg cpu (slotOf (unitDst s cpu ch i)) = some id) →
    exec (.dispatch cpu ch) s = .refused .dmaRegisterInBurst

/-- R67 b, R188, R189: the memory accesses of a general burst are `n` unit reads and writes in the order read 1, write 1,
read 2, write 2, each unit written as it was read (R61), with `n` the remaining count, in GXFIFO mode at most
`GXFIFO_BURST_MAX`; the unit and the two address steps are those of R76, R186, R187. -/
def Obligations.GeneralBurstAccesses : Prop :=
  ∀ (cpu : Cpu) (ch : Chan) (s : State), Runs s cpu ch →
    isAudio s.cfg s.compat ch (s.chan cpu ch).control = false →
    ∃ t, exec (.dispatch cpu ch) s = .next t
      ∧ (let c := s.chan cpu ch
         let unit : Width := if c.control.getLsbD 26 then .word else .half
         let srcStep : Int := if c.control.extractLsb' 23 2 = 1#2 then -unit.bytes else unit.bytes
         let dstStep : Int :=
           if c.control.extractLsb' 21 2 = 1#2 then -unit.bytes
           else if c.control.extractLsb' 21 2 = 2#2 then 0 else unit.bytes
         let n := if c.control.extractLsb' 27 3 = s.cfg.modeGxfifo
           then (match s.cfg.gxfifoBurstMax with
             | some b => min c.remainingWords.toNat b
             | none => c.remainingWords.toNat)
           else c.remainingWords.toNat
         ∃ value, transfers t.trace =
           (unitTransfers cpu unit (fun i => BitVec.ofInt 32 (c.currentSrc.toNat + i * srcStep))
             (fun i => BitVec.ofInt 32 (c.currentDst.toNat + i * dstStep)) value n).reverse ++ transfers s.trace)

/-- R185: the audio burst performs exactly four 32-bit copies, each word written as it was read, all to the address
`currentDst`, the source address moving by +4 or -4 per word; `currentDst` and `remainingWords` are as before unless
bookkeeping step 2 reloads them. -/
def Obligations.AudioBurst : Prop :=
  ∀ (cpu : Cpu) (ch : Chan) (s : State), s.cfg.wf = true → Runs s cpu ch →
    s.compat = true → (ch = s.cfg.audioA ∨ ch = s.cfg.audioB) →
    (s.chan cpu ch).control.extractLsb' 27 3 = s.cfg.modeSpecial →
    ∃ t, exec (.dispatch cpu ch) s = .next t
      ∧ (let c := s.chan cpu ch
         let srcStep : Word := if c.control.extractLsb' 23 2 = 1#2 then -4#32 else 4#32
         (∃ v0 v1 v2 v3, transfers t.trace =
           [.memWrite cpu c.currentDst .word v3, .memRead cpu (c.currentSrc + 3#32 * srcStep) .word v3,
            .memWrite cpu c.currentDst .word v2, .memRead cpu (c.currentSrc + 2#32 * srcStep) .word v2,
            .memWrite cpu c.currentDst .word v1, .memRead cpu (c.currentSrc + srcStep) .word v1,
            .memWrite cpu c.currentDst .word v0, .memRead cpu c.currentSrc .word v0] ++ transfers s.trace)
         ∧ (t.chan cpu ch).currentSrc = c.currentSrc + 4#32 * srcStep
         ∧ (c.control.getLsbD 25 = false →
             (t.chan cpu ch).currentDst = c.currentDst ∧ (t.chan cpu ch).remainingWords = c.remainingWords)
         ∧ (c.control.getLsbD 25 = true →
             (t.chan cpu ch).remainingWords = c.control.extractLsb' 0 21
             ∧ (t.chan cpu ch).currentDst = if c.control.extractLsb' 21 2 = 3#2 then c.destAddr else c.currentDst))

/-- R190, bookkeeping step 1: a GXFIFO burst takes the moved units off `remainingWords`, never more than are there. If units
are left, and the FIFO is still half empty, one task is added and the step ends there; if units are left, the FIFO is not
half empty and the channel is to hold, the step ends there without a task. On both early ends `enable` stays, nothing is
reloaded and no interrupt is raised. In every other case the step goes on to step 2. -/
def Obligations.GxfifoContinuation : Prop :=
  ∀ (cpu : Cpu) (ch : Chan) (s : State), Runs s cpu ch →
    ctlTrigMode (s.chan cpu ch).control = s.cfg.modeGxfifo →
    ∃ t, exec (.dispatch cpu ch) s = .next t
      ∧ (let c := s.chan cpu ch
         let moved := (planOf s cpu ch).moved
         moved.toNat ≤ c.remainingWords.toNat
         ∧ (moved ≠ c.remainingWords → s.fifoHalfEmpty = true ∨ s.cfg.gxfifoHold = true →
             (t.chan cpu ch).remainingWords.toNat = c.remainingWords.toNat - moved.toNat
             ∧ (t.chan cpu ch).control = c.control
             ∧ (t.chan cpu ch).currentSrc = unitSrc s cpu ch (planOf s cpu ch).copies
             ∧ (t.chan cpu ch).currentDst = unitDst s cpu ch (planOf s cpu ch).copies
             ∧ t.tasks cpu ch + 1 = s.tasks cpu ch + (if s.fifoHalfEmpty then 1 else 0)
             ∧ irqs t.trace = irqs s.trace)
         ∧ (moved = c.remainingWords ∨ s.fifoHalfEmpty = false ∧ s.cfg.gxfifoHold = false →
             (repeats s cpu ch → (t.chan cpu ch).remainingWords = ctlCount c.control)
             ∧ (¬repeats s cpu ch →
                 (t.chan cpu ch).remainingWords.toNat = c.remainingWords.toNat - moved.toNat
                 ∧ ctlEnable (t.chan cpu ch).control = false)))

/-- R191, bookkeeping step 2: a repeating burst that is not immediate and did not end early reloads `remainingWords` from the
count, and `currentDst` from `destAddr` exactly if the destination mode is 3; the source carries on from where the burst left
it; `control` is unchanged; in GXFIFO mode with the FIFO half empty one task is added. -/
def Obligations.RepeatReload : Prop :=
  ∀ (cpu : Cpu) (ch : Chan) (s : State), Runs s cpu ch → ¬endsEarly s cpu ch → repeats s cpu ch →
    ∃ t, exec (.dispatch cpu ch) s = .next t
      ∧ (let c := s.chan cpu ch
         (t.chan cpu ch).remainingWords = c.control.extractLsb' 0 21
         ∧ (t.chan cpu ch).currentDst
           = (if c.control.extractLsb' 21 2 = 3#2 then c.destAddr else unitDst s cpu ch (planOf s cpu ch).copies)
         ∧ (t.chan cpu ch).currentSrc = unitSrc s cpu ch (planOf s cpu ch).copies
         ∧ (t.chan cpu ch).control = c.control
         ∧ t.tasks cpu ch + 1 = s.tasks cpu ch
           + (if c.control.extractLsb' 27 3 = s.cfg.modeGxfifo ∧ s.fifoHalfEmpty = true then 1 else 0))

/-- R192, bookkeeping step 3: a burst that did not end early and does not take the repeat branch (no repeat bit, or the
immediate mode) clears bit 31 of `control` and no other bit; the shadow registers keep their values; no task is added. (That a burst outside
GXFIFO mode leaves `remainingWords` is the spec's decision D22.) -/
def Obligations.DisableAfterBurst : Prop :=
  ∀ (cpu : Cpu) (ch : Chan) (s : State), Runs s cpu ch → ¬endsEarly s cpu ch → ¬repeats s cpu ch →
    ∃ t, exec (.dispatch cpu ch) s = .next t
      ∧ (let c := s.chan cpu ch
         (∀ i, (t.chan cpu ch).control.getLsbD i = (if i = 31 then false else c.control.getLsbD i))
         ∧ (t.chan cpu ch).currentSrc = unitSrc s cpu ch (planOf s cpu ch).copies
         ∧ (t.chan cpu ch).currentDst = unitDst s cpu ch (planOf s cpu ch).copies
         ∧ (t.chan cpu ch).remainingWords
           = (if ctlTrigMode c.control = s.cfg.modeGxfifo then c.remainingWords - (planOf s cpu ch).moved
              else c.remainingWords)
         ∧ t.tasks cpu ch + 1 = s.tasks cpu ch)

/-- R193, bookkeeping step 4: a burst that did not end early and whose bit 30 is set raises line `8 + ch` of its own CPU
once, as the last action of the step, whether it repeats or not and whatever it moved; with the bit clear, or after an early
end, it raises none. -/
def Obligations.CompletionInterrupt : Prop :=
  ∀ (cpu : Cpu) (ch : Chan) (s : State), Runs s cpu ch →
    ∃ t, exec (.dispatch cpu ch) s = .next t
      ∧ (¬endsEarly s cpu ch → (s.chan cpu ch).control.getLsbD 30 = true →
          irqs t.trace = (cpu, 8 + ch.index) :: irqs s.trace ∧ t.trace.head? = some (.irq cpu (8 + ch.index)))
      ∧ (endsEarly s cpu ch ∨ (s.chan cpu ch).control.getLsbD 30 = false → irqs t.trace = irqs s.trace)

/-- R194: DISPATCH does not look at `enable`. From the state in which bit 31 of the channel's control register is the other
way round it completes too, with the same accesses, interrupts, tasks, memory, ArithmeticUnit and shadow registers, and the
two control registers still agree in every bit but 31. -/
def Obligations.EnableIsNotTested : Prop :=
  ∀ (cpu : Cpu) (ch : Chan) (s t : State), exec (.dispatch cpu ch) s = .next t →
    ∃ t', exec (.dispatch cpu ch)
        (s.setChan cpu ch { s.chan cpu ch with control := (s.chan cpu ch).control ^^^ 0x80000000#32 }) = .next t'
      ∧ t'.trace = t.trace ∧ t'.pending = t.pending ∧ t'.mem = t.mem ∧ t'.au = t.au ∧ t'.freeCount = t.freeCount
      ∧ SameSetting t t'
      ∧ (∀ d h, d ≠ cpu ∨ h ≠ ch → t'.chan d h = t.chan d h)
      ∧ (t'.chan cpu ch).sourceAddr = (t.chan cpu ch).sourceAddr ∧ (t'.chan cpu ch).destAddr = (t.chan cpu ch).destAddr
      ∧ SameShadow (t'.chan cpu ch) (t.chan cpu ch)
      ∧ ∀ i, i ≠ 31 → (t'.chan cpu ch).control.getLsbD i = (t.chan cpu ch).control.getLsbD i

/-- R196: a count of 0 copies nothing and the bookkeeping runs as usual. If a channel that was disabled is enabled with count
0 and not as an audio burst, then a DISPATCH of it, once a task is pending, accesses no memory, changes no byte and no
register of the ArithmeticUnit, leaves the working addresses (but for the repeat reload of the destination), repeats or
disables, and raises the interrupt if asked. -/
def Obligations.ZeroCountCopiesNothing : Prop :=
  ∀ (cpu : Cpu) (ch : Chan) (s : State),
    Pending s cpu ch → isAudio s.cfg s.compat ch (s.chan cpu ch).control = false →
    (s.chan cpu ch).remainingWords = 0#21 →
    ∃ t, exec (.dispatch cpu ch) s = .next t
      ∧ transfers t.trace = transfers s.trace ∧ t.au = s.au ∧ (∀ d a, t.byteAt d a = s.byteAt d a)
      ∧ (t.chan cpu ch).currentSrc = (s.chan cpu ch).currentSrc
      ∧ (repeats s cpu ch →
          (t.chan cpu ch).control = (s.chan cpu ch).control
          ∧ (t.chan cpu ch).remainingWords = ctlCount (s.chan cpu ch).control)
      ∧ (¬repeats s cpu ch →
          ctlEnable (t.chan cpu ch).control = false
          ∧ (t.chan cpu ch).currentDst = (s.chan cpu ch).currentDst ∧ (t.chan cpu ch).remainingWords = 0#21)
      ∧ irqs t.trace
        = (if (s.chan cpu ch).control.getLsbD 30 then [(cpu, 8 + ch.index)] else []) ++ irqs s.trace

/-- R199: what a burst never does. It never writes `sourceAddr`, `destAddr` or a bit of `control` other than 31; it never
touches another channel, the other engine, another channel's tasks, or the setting; it sends no schedule request for another
channel and raises no line but `8 + ch` of its own CPU; it leaves the ArithmeticUnit unless a unit is written to one of its
registers (R202); and unless its mode is GXFIFO it does not depend on the FIFO's answer. -/
def Obligations.BurstNeverDoes : Prop :=
  ∀ (cpu : Cpu) (ch : Chan) (s t : State), exec (.dispatch cpu ch) s = .next t →
    (t.chan cpu ch).sourceAddr = (s.chan cpu ch).sourceAddr ∧ (t.chan cpu ch).destAddr = (s.chan cpu ch).destAddr
    ∧ (∀ i, i ≠ 31 → (t.chan cpu ch).control.getLsbD i = (s.chan cpu ch).control.getLsbD i)
    ∧ (∀ d h, d ≠ cpu ∨ h ≠ ch → t.chan d h = s.chan d h ∧ t.tasks d h = s.tasks d h)
    ∧ SameSetting s t
    ∧ (∃ n, schedules t.trace = List.replicate n (cpu, ch) ++ schedules s.trace)
    ∧ (∃ n, irqs t.trace = List.replicate n (cpu, 8 + ch.index) ++ irqs s.trace)
    ∧ ((∀ i, i < (planOf s cpu ch).copies → ∀ r ea,
          landing s.cfg cpu (unitDst s cpu ch i) (planOf s cpu ch).unit ≠ .ok (.register r ea)) → t.au = s.au)
    ∧ (ctlTrigMode (s.chan cpu ch).control ≠ s.cfg.modeGxfifo → ∀ b,
        exec (.dispatch cpu ch) { s with fifoHalfEmpty := b } = .next { t with fifoHalfEmpty := b })

/-- The frame of a burst in memory (R61, R188, R231): it leaves every byte, in either CPU's view, that is not one of the bytes
its units are stored to, at the addresses the unit writes compute; and in the other CPU's view also those, where that view
shows another memory. (Which addresses show memory of one CPU's own is the parameter of log 5, a design choice; that a unit
in a device's window stores nothing is log 6's, and the bytes an unaligned unit may change are log 9's.) -/
def Obligations.BurstMemoryFrame : Prop :=
  ∀ (cpu : Cpu) (ch : Chan) (s t : State), exec (.dispatch cpu ch) s = .next t →
    ∀ (d : Cpu) (a : Word),
      (homeOf s.cfg d a = homeOf s.cfg cpu a → ∀ i, i < (planOf s cpu ch).copies →
        a ∉ storedAt s.cfg cpu (unitDst s cpu ch i) (planOf s cpu ch).unit) →
      t.byteAt d a = s.byteAt d a

/-- A burst copies (R188): from plain memory to plain memory, where the source bytes are known and the destination units
overlap neither the source nor each other, every destination byte ends up as the source byte was, in the view of every CPU
that shows the same memory there (R231). That memory gives back what was written is the model's plain memory (log 5). -/
def Obligations.BurstCopies : Prop :=
  ∀ (cpu : Cpu) (ch : Chan) (s : State),
    let p := planOf s cpu ch
    Pending s cpu ch → PlainBurst s cpu ch →
    (∀ i, i < p.copies → ∀ x ∈ unitBytes (unitSrc s cpu ch i) p.unit, (s.byteAt cpu x).isSome) →
    (∀ i j, i < p.copies → j < p.copies →
      ∀ x ∈ unitBytes (unitSrc s cpu ch i) p.unit, x ∉ unitBytes (unitDst s cpu ch j) p.unit) →
    (∀ i j, i < p.copies → j < p.copies → i ≠ j →
      ∀ x ∈ unitBytes (unitDst s cpu ch i) p.unit, x ∉ unitBytes (unitDst s cpu ch j) p.unit) →
    ∃ t, exec (.dispatch cpu ch) s = .next t
      ∧ ∀ i k, i < p.copies → k < p.unit.bytes →
          let x := unitDst s cpu ch i + BitVec.ofNat 32 k
          ∀ d, homeOf s.cfg d x = homeOf s.cfg cpu x →
            t.byteAt d x = s.byteAt cpu (unitSrc s cpu ch i + BitVec.ofNat 32 k)

/-- R195: overlap propagates. If a burst of plain memory runs upward with its destination one unit ahead of its source, and
the first unit is known, that unit is replicated through the whole destination range. -/
def Obligations.OverlapPropagates : Prop :=
  ∀ (cpu : Cpu) (ch : Chan) (s : State),
    let p := planOf s cpu ch
    Pending s cpu ch → PlainBurst s cpu ch →
    p.srcStep = BitVec.ofNat 32 p.unit.bytes → p.dstStep = BitVec.ofNat 32 p.unit.bytes →
    (s.chan cpu ch).currentDst = (s.chan cpu ch).currentSrc + BitVec.ofNat 32 p.unit.bytes →
    (∀ x ∈ unitBytes (s.chan cpu ch).currentSrc p.unit, (s.byteAt cpu x).isSome) →
    (p.copies + 1) * p.unit.bytes ≤ 2 ^ 32 →
    ∃ t, exec (.dispatch cpu ch) s = .next t
      ∧ ∀ i k, i < p.copies → k < p.unit.bytes →
          t.byteAt cpu (unitDst s cpu ch i + BitVec.ofNat 32 k)
            = s.byteAt cpu ((s.chan cpu ch).currentSrc + BitVec.ofNat 32 k)

/-- R198, the exactly-N law: a channel without tasks that a write enables, from 0 to 1, in immediate mode with count N, a
source that does not decrement and a destination mode 0 or 3 has one task; its DISPATCH, where every unit lands, performs
exactly N reads at `sourceAddr + i*unit` and N writes at `destAddr + i*unit`, in order, ends with both working addresses
N units on, with `enable` cleared and no task left. -/
def Obligations.ExactlyN : Prop :=
  ∀ (cpu : Cpu) (ch : Chan) (a : WAccess) (s : State),
    s.cfg.wf = true → s.tasks cpu ch = 0 → (s.chan cpu ch).control.getLsbD 31 = false →
    ∃ u, exec (Instr.ofWrite cpu a (.cnt ch)) s = .next u
      ∧ (let c := (u.chan cpu ch).control
         let n := (c.extractLsb' 0 21).toNat
         let unit : Width := if c.getLsbD 26 then .word else .half
         let src := (s.chan cpu ch).sourceAddr
         let dst := (s.chan cpu ch).destAddr
         c.getLsbD 31 = true → c.extractLsb' 27 3 = 0#3 → c.extractLsb' 23 2 ≠ 1#2 →
         (c.extractLsb' 21 2 = 0#2 ∨ c.extractLsb' 21 2 = 3#2) →
         (∀ i, i < n → lands s.cfg cpu (src + BitVec.ofNat 32 (i * unit.bytes)) unit = true
            ∧ lands s.cfg cpu (dst + BitVec.ofNat 32 (i * unit.bytes)) unit = true) →
         u.tasks cpu ch = 1
         ∧ ∃ t, exec (.dispatch cpu ch) u = .next t
           ∧ (∃ value, transfers t.trace =
             (unitTransfers cpu unit (fun i => src + BitVec.ofNat 32 (i * unit.bytes))
               (fun i => dst + BitVec.ofNat 32 (i * unit.bytes)) value n).reverse ++ transfers s.trace)
           ∧ (t.chan cpu ch).currentSrc = src + BitVec.ofNat 32 (n * unit.bytes)
           ∧ (t.chan cpu ch).currentDst = dst + BitVec.ofNat 32 (n * unit.bytes)
           ∧ (t.chan cpu ch).control.getLsbD 31 = false
           ∧ t.tasks cpu ch = 0)

/-! Reset. -/

/-- R250, R252: RESET completes from every state; it makes every configuration register, every operand, the mode and the
width 0, empties `pending`, and touches neither memory nor the setting, and sends nothing. (The values are the spec's
decision D26; what the unspecified elements take is log 4.) -/
def Obligations.ResetEvent : Prop :=
  ∀ s : State, ∃ t, exec .reset s = .next t
    ∧ (∀ i, i ≠ 14 → t.au.divControl.getLsbD i = false) ∧ t.au.divNumerator = 0#64 ∧ t.au.divDenominator = 0#64
    ∧ t.au.sqrtControl = 0#16 ∧ t.au.sqrtParameter = 0#64
    ∧ (∀ cpu ch, (t.chan cpu ch).sourceAddr = 0#32 ∧ (t.chan cpu ch).destAddr = 0#32 ∧ (t.chan cpu ch).control = 0#32
        ∧ t.tasks cpu ch = 0 ∧ Idle t cpu ch)
    ∧ (∀ cpu a, t.byteAt cpu a = s.byteAt cpu a) ∧ t.trace = s.trace ∧ SameSetting s t

/-- R251: what RESET leaves in the four result elements under the two values of RESET_RESULTS that fix them. -/
def Obligations.ResetResultsParameter : Prop :=
  ∀ s t : State, exec .reset s = .next t →
    (s.cfg.resetResults = .zeros →
      t.au.divControl = 0#16 ∧ t.au.divResult = 0#64 ∧ t.au.divRemainder = 0#64 ∧ t.au.sqrtResult = 0#32)
    ∧ (s.cfg.resetResults = .consistent →
      t.au.divControl = 0x4000#16 ∧ t.au.divResult = 0xFFFFFFFFFFFFFFFF#64 ∧ t.au.divRemainder = 0#64
      ∧ t.au.sqrtResult = 0#32 ∧ DivConsistent t.au ∧ SqrtConsistent t.au)

/-- The state after reset (R47, R250) has the values the spec gives: the mode, the operands, the width and all twenty-four
configuration registers are 0, and nothing is pending. It says nothing of the values log 3 chooses. -/
def Obligations.ResetState : Prop :=
  (∀ i, i ≠ 14 → State.reset.au.divControl.getLsbD i = false)
  ∧ State.reset.au.divNumerator = 0#64 ∧ State.reset.au.divDenominator = 0#64
  ∧ State.reset.au.sqrtControl = 0#16 ∧ State.reset.au.sqrtParameter = 0#64
  ∧ ∀ cpu ch, (State.reset.chan cpu ch).sourceAddr = 0#32 ∧ (State.reset.chan cpu ch).destAddr = 0#32
      ∧ (State.reset.chan cpu ch).control = 0#32 ∧ State.reset.tasks cpu ch = 0

/-- The invariant holds after reset. -/
def Obligations.InvAtReset : Prop := Inv State.reset

/-! Invariants of every step, and rules of the whole machine. -/

/-- Every step keeps the invariant (R160, R21, R27, log 5): no bit outside its writable mask is set in a configuration
register, the reserved bits of the two ArithmeticUnit control registers are 0, and every memory is in canonical form and lists
no byte that no view shows. -/
def Obligations.StepKeepsInv : Prop :=
  ∀ s t : State, Inv s → step s = .next t → Inv t

/-- R26, the divider invariant: a step that performs one of the five triggering writes ends with results that are consistent
with the operands and the mode, and from then on every step but RESET keeps them so, a burst that lands on the divider's own
registers (R202) and a DISPATCH by the scheduler's own turn (R266) included. -/
def Obligations.DividerStaysConsistent : Prop :=
  ∀ s t : State, step s = .next t →
    (∀ x rest i, s.inbox = x :: rest → decode s.cfg x.request = .ok i →
      (∃ cpu a, (i = .wDivcnt cpu a ∧ a.lane.toNat < 2) ∨ i = .wDivNumerL cpu a ∨ i = .wDivNumerH cpu a
        ∨ i = .wDivDenomL cpu a ∨ i = .wDivDenomH cpu a) → DivConsistent t.au)
    ∧ ((∀ x rest, s.inbox = x :: rest → decode s.cfg x.request ≠ .ok .reset) → DivConsistent s.au → DivConsistent t.au)

/-- R30, the square-root invariant, likewise. -/
def Obligations.SquareRootStaysConsistent : Prop :=
  ∀ s t : State, step s = .next t →
    (∀ x rest i, s.inbox = x :: rest → decode s.cfg x.request = .ok i →
      (∃ cpu a, (i = .wSqrtcnt cpu a ∧ a.lane.toNat < 2) ∨ i = .wSqrtParamL cpu a ∨ i = .wSqrtParamH cpu a) →
        SqrtConsistent t.au)
    ∧ ((∀ x rest, s.inbox = x :: rest → decode s.cfg x.request ≠ .ok .reset) → SqrtConsistent s.au → SqrtConsistent t.au)

/-- Every step keeps the parameters and COMPAT (R5, R66, R232: the block never writes it; D32). -/
def Obligations.StepKeepsSetting : Prop :=
  ∀ s t : State, step s = .next t → t.cfg = s.cfg ∧ t.compat = s.compat

/-- R223: the block raises a line in a DISPATCH only, at most one, the line `8 + ch` (8 to 11) of the engine's own CPU, and
only if the burst reaches step 4 and bit 30 of the channel is set; no register access, no TRIGGER, no RESET and nothing of
the ArithmeticUnit raises one. -/
def Obligations.InterruptSources : Prop :=
  ∀ (i : Instr) (s t : State), exec i s = .next t →
    irqs t.trace = irqs s.trace
    ∨ ∃ cpu ch, i = .dispatch cpu ch ∧ (s.chan cpu ch).control.getLsbD 30 = true
        ∧ ¬endsEarly s cpu ch
        ∧ irqs t.trace = (cpu, 8 + ch.index) :: irqs s.trace ∧ 8 ≤ 8 + ch.index ∧ 8 + ch.index ≤ 11

/-- R69, R180, R258: nothing is transferred in a register write, a register read, a TRIGGER or a RESET. Only a DISPATCH
accesses memory. -/
def Obligations.OnlyDispatchTransfers : Prop :=
  ∀ (i : Instr) (s t : State), exec i s = .next t → (∀ cpu ch, i ≠ .dispatch cpu ch) →
    transfers t.trace = transfers s.trace ∧ ∀ cpu a, t.byteAt cpu a = s.byteAt cpu a

/-- R38: outside RESET and the DISPATCH of its own channel, a shadow register changes only by the full reload at a 0 to 1
transition of `enable`. -/
def Obligations.ShadowWrittenAtReload : Prop :=
  ∀ (i : Instr) (s t : State) (cpu : Cpu) (ch : Chan), exec i s = .next t → i ≠ .reset → i ≠ .dispatch cpu ch →
    SameShadow (t.chan cpu ch) (s.chan cpu ch)
    ∨ ((∃ a, i = Instr.ofWrite cpu a (.cnt ch))
      ∧ ctlEnable (s.chan cpu ch).control = false ∧ ctlEnable (t.chan cpu ch).control = true
      ∧ (t.chan cpu ch).currentSrc = (s.chan cpu ch).sourceAddr
      ∧ (t.chan cpu ch).currentDst = (s.chan cpu ch).destAddr
      ∧ (t.chan cpu ch).remainingWords = ctlCount (t.chan cpu ch).control)

/-- R32 to R34, R44: who may change what. A configuration address changes only by its own write or RESET; a control register
by its own write, RESET, or the DISPATCH of its channel, which clears bit 31; tasks of a channel become fewer only by its
DISPATCH, one at a time, or RESET: there is no cancellation. -/
def Obligations.WhoChangesWhat : Prop :=
  ∀ (i : Instr) (s t : State) (cpu : Cpu) (ch : Chan), exec i s = .next t → i ≠ .reset →
    ((t.chan cpu ch).sourceAddr ≠ (s.chan cpu ch).sourceAddr → ∃ a, i = Instr.ofWrite cpu a (.sad ch))
    ∧ ((t.chan cpu ch).destAddr ≠ (s.chan cpu ch).destAddr → ∃ a, i = Instr.ofWrite cpu a (.dad ch))
    ∧ ((t.chan cpu ch).control ≠ (s.chan cpu ch).control →
        (∃ a, i = Instr.ofWrite cpu a (.cnt ch))
        ∨ i = .dispatch cpu ch ∧ (t.chan cpu ch).control = (s.chan cpu ch).control &&& 0x7FFFFFFF#32)
    ∧ (t.tasks cpu ch < s.tasks cpu ch → i = .dispatch cpu ch ∧ t.tasks cpu ch + 1 = s.tasks cpu ch)

/-- R181 says that `control[31] = 1` holds at every schedule request. It is expected to FAIL: a stale task of a channel that
the guest disabled (R194) and that is in GXFIFO mode schedules the next burst in bookkeeping step 1 or 2 (R190, R191, which
the model follows) while bit 31 is 0 (log 31). -/
def Obligations.DispatchSchedulesEnabledOnly : Prop :=
  ∀ (cpu : Cpu) (ch : Chan) (s t : State), exec (.dispatch cpu ch) s = .next t →
    schedules t.trace ≠ schedules s.trace → (s.chan cpu ch).control.getLsbD 31 = true

/-! Memory. -/

/-- One byte of memory (R50, R231): after a write through one CPU's view a read of the same address gives the byte written, in
that view and in the other where both show the same memory there; every other byte of either view reads as before; and the
write keeps the canonical form. Where no window of one CPU's own is listed both views show one memory (log 5). -/
def Obligations.ByteReadAfterWrite : Prop :=
  ∀ (s : State) (cpu d : Cpu) (a x : Word) (v : Byte),
    (s.setByte cpu a v).byteAt cpu a = some v
    ∧ (homeOf s.cfg d a = homeOf s.cfg cpu a → (s.setByte cpu a v).byteAt d a = some v)
    ∧ (homeOf s.cfg d x ≠ homeOf s.cfg cpu x ∨ x ≠ a → (s.setByte cpu a v).byteAt d x = s.byteAt d x)
    ∧ (s.cfg.own = [] → homeOf s.cfg d a = homeOf s.cfg cpu a)
    ∧ (MemoryWf s → MemoryWf (s.setByte cpu a v))

/-- A unit that MemWrite puts into plain memory is what MemRead then answers there: its low 16 bits, or all 32 (R53, R60,
R61; the byte order of log 8). -/
def Obligations.UnitRoundTrip : Prop :=
  ∀ (s : State) (cpu : Cpu) (a ea v : Word) (w : Width), landing s.cfg cpu a w = .ok (.memory ea) →
    ∃ t, memWrite cpu a w v s = .next t
      ∧ ∃ u, memRead cpu a w t = .next (BitVec.ofNat 32 (v.toNat % 2 ^ (8 * w.bytes)), u)
end

