-- ==== Sys2Proof/Laws/State.lean ====
section
/-! SUPPORT. The small lemmas of State: what each update leaves in each field, and what the accessors read after it. -/

namespace Sys2Proof

section PerCpu
variable {α : Type}

@[simp] theorem PerCpu.get_set (p : PerCpu α) (c d : Cpu) (x : α) :
    (p.set c x).get d = if d = c then x else p.get d := by
  cases c <;> cases d <;> rfl

@[simp] theorem PerChan.get_set (q : PerChan α) (c d : Chan) (x : α) :
    (q.set c x).get d = if d = c then x else q.get d := by
  cases c <;> cases d <;> rfl

end PerCpu

namespace Machine

@[simp] theorem Store.get_set (m : Store) (k d : Home) (x : Memory) :
    (m.set k x).get d = if d = k then x else m.get d := by
  cases k <;> cases d <;> simp [Store.get, Store.set]

variable (s : State)

section WithAu
variable (u : ArithmeticUnit)

@[simp] theorem withAu_au : (s.withAu u).au = u := rfl

@[simp] theorem withAu_dma : (s.withAu u).dma = s.dma := rfl

@[simp] theorem withAu_pending : (s.withAu u).pending = s.pending := rfl

@[simp] theorem withAu_mem : (s.withAu u).mem = s.mem := rfl

@[simp] theorem withAu_compat : (s.withAu u).compat = s.compat := rfl

@[simp] theorem withAu_fifoHalfEmpty : (s.withAu u).fifoHalfEmpty = s.fifoHalfEmpty := rfl

@[simp] theorem withAu_cfg : (s.withAu u).cfg = s.cfg := rfl

@[simp] theorem withAu_inbox : (s.withAu u).inbox = s.inbox := rfl

@[simp] theorem withAu_trace : (s.withAu u).trace = s.trace := rfl

@[simp] theorem withAu_freeCount : (s.withAu u).freeCount = s.freeCount := rfl

@[simp] theorem withAu_chan (d : Cpu) (h : Chan) : (s.withAu u).chan d h = s.chan d h := rfl

@[simp] theorem withAu_tasks (d : Cpu) (h : Chan) : (s.withAu u).tasks d h = s.tasks d h := rfl

@[simp] theorem withAu_memOf (d : Home) : (s.withAu u).memOf d = s.memOf d := rfl

@[simp] theorem withAu_byteAt (d : Cpu) (x : Word) : (s.withAu u).byteAt d x = s.byteAt d x := rfl

@[simp] theorem withAu_free (i : Nat) : (s.withAu u).free i = s.free i := rfl

end WithAu

section SetChan
variable (cpu : Cpu) (ch : Chan) (c : Channel)

@[simp] theorem setChan_au : (s.setChan cpu ch c).au = s.au := rfl

@[simp] theorem setChan_pending : (s.setChan cpu ch c).pending = s.pending := rfl

@[simp] theorem setChan_mem : (s.setChan cpu ch c).mem = s.mem := rfl

@[simp] theorem setChan_compat : (s.setChan cpu ch c).compat = s.compat := rfl

@[simp] theorem setChan_fifoHalfEmpty : (s.setChan cpu ch c).fifoHalfEmpty = s.fifoHalfEmpty := rfl

@[simp] theorem setChan_cfg : (s.setChan cpu ch c).cfg = s.cfg := rfl

@[simp] theorem setChan_inbox : (s.setChan cpu ch c).inbox = s.inbox := rfl

@[simp] theorem setChan_trace : (s.setChan cpu ch c).trace = s.trace := rfl

@[simp] theorem setChan_freeCount : (s.setChan cpu ch c).freeCount = s.freeCount := rfl

@[simp] theorem setChan_tasks (d : Cpu) (h : Chan) : (s.setChan cpu ch c).tasks d h = s.tasks d h := rfl

@[simp] theorem setChan_memOf (d : Home) : (s.setChan cpu ch c).memOf d = s.memOf d := rfl

@[simp] theorem setChan_byteAt (d : Cpu) (x : Word) : (s.setChan cpu ch c).byteAt d x = s.byteAt d x := rfl

@[simp] theorem setChan_free (i : Nat) : (s.setChan cpu ch c).free i = s.free i := rfl

end SetChan

section SetTasks
variable (cpu : Cpu) (ch : Chan) (n : Nat)

@[simp] theorem setTasks_au : (s.setTasks cpu ch n).au = s.au := rfl

@[simp] theorem setTasks_dma : (s.setTasks cpu ch n).dma = s.dma := rfl

@[simp] theorem setTasks_mem : (s.setTasks cpu ch n).mem = s.mem := rfl

@[simp] theorem setTasks_compat : (s.setTasks cpu ch n).compat = s.compat := rfl

@[simp] theorem setTasks_fifoHalfEmpty : (s.setTasks cpu ch n).fifoHalfEmpty = s.fifoHalfEmpty := rfl

@[simp] theorem setTasks_cfg : (s.setTasks cpu ch n).cfg = s.cfg := rfl

@[simp] theorem setTasks_inbox : (s.setTasks cpu ch n).inbox = s.inbox := rfl

@[simp] theorem setTasks_trace : (s.setTasks cpu ch n).trace = s.trace := rfl

@[simp] theorem setTasks_freeCount : (s.setTasks cpu ch n).freeCount = s.freeCount := rfl

@[simp] theorem setTasks_chan (d : Cpu) (h : Chan) : (s.setTasks cpu ch n).chan d h = s.chan d h := rfl

@[simp] theorem setTasks_memOf (d : Home) : (s.setTasks cpu ch n).memOf d = s.memOf d := rfl

@[simp] theorem setTasks_byteAt (d : Cpu) (x : Word) : (s.setTasks cpu ch n).byteAt d x = s.byteAt d x := rfl

@[simp] theorem setTasks_free (i : Nat) : (s.setTasks cpu ch n).free i = s.free i := rfl

end SetTasks

section SetMem
variable (k : Home) (m : Memory)

@[simp] theorem setMem_au : (s.setMem k m).au = s.au := rfl

@[simp] theorem setMem_dma : (s.setMem k m).dma = s.dma := rfl

@[simp] theorem setMem_pending : (s.setMem k m).pending = s.pending := rfl

@[simp] theorem setMem_compat : (s.setMem k m).compat = s.compat := rfl

@[simp] theorem setMem_fifoHalfEmpty : (s.setMem k m).fifoHalfEmpty = s.fifoHalfEmpty := rfl

@[simp] theorem setMem_cfg : (s.setMem k m).cfg = s.cfg := rfl

@[simp] theorem setMem_inbox : (s.setMem k m).inbox = s.inbox := rfl

@[simp] theorem setMem_trace : (s.setMem k m).trace = s.trace := rfl

@[simp] theorem setMem_freeCount : (s.setMem k m).freeCount = s.freeCount := rfl

@[simp] theorem setMem_chan (d : Cpu) (h : Chan) : (s.setMem k m).chan d h = s.chan d h := rfl

@[simp] theorem setMem_tasks (d : Cpu) (h : Chan) : (s.setMem k m).tasks d h = s.tasks d h := rfl

@[simp] theorem setMem_free (i : Nat) : (s.setMem k m).free i = s.free i := rfl

end SetMem

section Emit
variable (e : Event)

@[simp] theorem emit_au : (s.emit e).au = s.au := rfl

@[simp] theorem emit_dma : (s.emit e).dma = s.dma := rfl

@[simp] theorem emit_pending : (s.emit e).pending = s.pending := rfl

@[simp] theorem emit_mem : (s.emit e).mem = s.mem := rfl

@[simp] theorem emit_compat : (s.emit e).compat = s.compat := rfl

@[simp] theorem emit_fifoHalfEmpty : (s.emit e).fifoHalfEmpty = s.fifoHalfEmpty := rfl

@[simp] theorem emit_cfg : (s.emit e).cfg = s.cfg := rfl

@[simp] theorem emit_inbox : (s.emit e).inbox = s.inbox := rfl

@[simp] theorem emit_trace : (s.emit e).trace = e :: s.trace := rfl

@[simp] theorem emit_freeCount : (s.emit e).freeCount = s.freeCount := rfl

@[simp] theorem emit_chan (d : Cpu) (h : Chan) : (s.emit e).chan d h = s.chan d h := rfl

@[simp] theorem emit_tasks (d : Cpu) (h : Chan) : (s.emit e).tasks d h = s.tasks d h := rfl

@[simp] theorem emit_memOf (d : Home) : (s.emit e).memOf d = s.memOf d := rfl

@[simp] theorem emit_byteAt (d : Cpu) (x : Word) : (s.emit e).byteAt d x = s.byteAt d x := rfl

@[simp] theorem emit_free (i : Nat) : (s.emit e).free i = s.free i := rfl

end Emit

section Draw
variable (n : Nat)

@[simp] theorem draw_au : (s.draw n).au = s.au := rfl

@[simp] theorem draw_dma : (s.draw n).dma = s.dma := rfl

@[simp] theorem draw_pending : (s.draw n).pending = s.pending := rfl

@[simp] theorem draw_mem : (s.draw n).mem = s.mem := rfl

@[simp] theorem draw_compat : (s.draw n).compat = s.compat := rfl

@[simp] theorem draw_fifoHalfEmpty : (s.draw n).fifoHalfEmpty = s.fifoHalfEmpty := rfl

@[simp] theorem draw_cfg : (s.draw n).cfg = s.cfg := rfl

@[simp] theorem draw_inbox : (s.draw n).inbox = s.inbox := rfl

@[simp] theorem draw_trace : (s.draw n).trace = s.trace := rfl

@[simp] theorem draw_freeCount : (s.draw n).freeCount = s.freeCount + n := rfl

@[simp] theorem draw_chan (d : Cpu) (h : Chan) : (s.draw n).chan d h = s.chan d h := rfl

@[simp] theorem draw_tasks (d : Cpu) (h : Chan) : (s.draw n).tasks d h = s.tasks d h := rfl

@[simp] theorem draw_memOf (d : Home) : (s.draw n).memOf d = s.memOf d := rfl

@[simp] theorem draw_byteAt (d : Cpu) (x : Word) : (s.draw n).byteAt d x = s.byteAt d x := rfl

end Draw

@[simp] theorem setChan_chan (cpu d : Cpu) (ch h : Chan) (c : Channel) :
    (s.setChan cpu ch c).chan d h = if d = cpu ∧ h = ch then c else s.chan d h := by
  simp only [State.chan, State.setChan, PerCpu.get_set]
  by_cases hd : d = cpu <;> simp [hd]

@[simp] theorem setTasks_tasks (cpu d : Cpu) (ch h : Chan) (n : Nat) :
    (s.setTasks cpu ch n).tasks d h = if d = cpu ∧ h = ch then n else s.tasks d h := by
  simp only [State.tasks, State.setTasks, PerCpu.get_set]
  by_cases hd : d = cpu <;> simp [hd]

@[simp] theorem setMem_memOf (k d : Home) (m : Memory) :
    (s.setMem k m).memOf d = if d = k then m else s.memOf d := by
  simp [State.memOf, State.setMem]

/-- Two engines are the same if their channels are. -/
theorem dma_ext {p q : PerCpu (PerChan Channel)} (h : ∀ cpu ch, (p.get cpu).get ch = (q.get cpu).get ch) : p = q := by
  obtain ⟨⟨p0, p1, p2, p3⟩, ⟨p4, p5, p6, p7⟩⟩ := p
  obtain ⟨⟨q0, q1, q2, q3⟩, ⟨q4, q5, q6, q7⟩⟩ := q
  simp only [PerCpu.mk.injEq, PerChan.mk.injEq]
  exact ⟨⟨h .primary .ch0, h .primary .ch1, h .primary .ch2, h .primary .ch3⟩,
    ⟨h .secondary .ch0, h .secondary .ch1, h .secondary .ch2, h .secondary .ch3⟩⟩

section SchedulerTurn

@[simp] theorem schedulerTurn_au : s.schedulerTurn.au = s.au := rfl

@[simp] theorem schedulerTurn_dma : s.schedulerTurn.dma = s.dma := rfl

@[simp] theorem schedulerTurn_pending : s.schedulerTurn.pending = s.pending := rfl

@[simp] theorem schedulerTurn_mem : s.schedulerTurn.mem = s.mem := rfl

@[simp] theorem schedulerTurn_compat : s.schedulerTurn.compat = s.compat := rfl

@[simp] theorem schedulerTurn_cfg : s.schedulerTurn.cfg = s.cfg := rfl

@[simp] theorem schedulerTurn_inbox : s.schedulerTurn.inbox = s.inbox := rfl

@[simp] theorem schedulerTurn_trace : s.schedulerTurn.trace = s.trace := rfl

@[simp] theorem schedulerTurn_fifoHalfEmpty : s.schedulerTurn.fifoHalfEmpty = (s.free 0).getLsbD 0 := rfl

@[simp] theorem schedulerTurn_freeCount : s.schedulerTurn.freeCount = s.freeCount + 2 := rfl

@[simp] theorem schedulerTurn_chan (d : Cpu) (h : Chan) : s.schedulerTurn.chan d h = s.chan d h := rfl

@[simp] theorem schedulerTurn_tasks (d : Cpu) (h : Chan) : s.schedulerTurn.tasks d h = s.tasks d h := rfl

@[simp] theorem schedulerTurn_memOf (d : Home) : s.schedulerTurn.memOf d = s.memOf d := rfl

@[simp] theorem schedulerTurn_byteAt (d : Cpu) (x : Word) : s.schedulerTurn.byteAt d x = s.byteAt d x := rfl

end SchedulerTurn

/-! The shared operations over those updates. -/

@[simp] theorem schedule_au (cpu : Cpu) (ch : Chan) : (schedule cpu ch s).au = s.au := rfl

@[simp] theorem schedule_dma (cpu : Cpu) (ch : Chan) : (schedule cpu ch s).dma = s.dma := rfl

@[simp] theorem schedule_mem (cpu : Cpu) (ch : Chan) : (schedule cpu ch s).mem = s.mem := rfl

@[simp] theorem schedule_compat (cpu : Cpu) (ch : Chan) : (schedule cpu ch s).compat = s.compat := rfl

@[simp] theorem schedule_fifoHalfEmpty (cpu : Cpu) (ch : Chan) : (schedule cpu ch s).fifoHalfEmpty = s.fifoHalfEmpty := rfl

@[simp] theorem schedule_cfg (cpu : Cpu) (ch : Chan) : (schedule cpu ch s).cfg = s.cfg := rfl

@[simp] theorem schedule_inbox (cpu : Cpu) (ch : Chan) : (schedule cpu ch s).inbox = s.inbox := rfl

@[simp] theorem schedule_freeCount (cpu : Cpu) (ch : Chan) : (schedule cpu ch s).freeCount = s.freeCount := rfl

@[simp] theorem schedule_chan (cpu d : Cpu) (ch h : Chan) : (schedule cpu ch s).chan d h = s.chan d h := rfl

@[simp] theorem schedule_memOf (cpu : Cpu) (d : Home) (ch : Chan) : (schedule cpu ch s).memOf d = s.memOf d := rfl

@[simp] theorem schedule_tasks (cpu d : Cpu) (ch h : Chan) :
    (schedule cpu ch s).tasks d h = if d = cpu ∧ h = ch then s.tasks cpu ch + 1 else s.tasks d h := by
  simp [schedule]

@[simp] theorem schedule_trace (cpu : Cpu) (ch : Chan) :
    (schedule cpu ch s).trace = .schedule cpu ch s.cfg.schedDelay :: s.trace := rfl

end Machine

end Sys2Proof
end

