-- ==== Sys2Proof/Laws/Memory.lean ====
section
/-! SUPPORT. Memory: reading after a write, through the writer's view and the other CPU's, and that every operation keeps the
canonical form. -/

namespace Sys2Proof.Machine

/-! One memory. -/

namespace Memory

theorem read_write (m : Memory) (a b : Nat) (v : Byte) :
    Memory.read (Memory.write m a v) b = if b = a then some v else Memory.read m b := by
  induction m with
  | nil => simp [Memory.write, Memory.read]
  | cons p m ih =>
    obtain ⟨c, w⟩ := p
    simp only [Memory.write]
    split
    · simp [Memory.read]
    · split
      · subst_vars
        by_cases h : b = c <;> simp [Memory.read, h]
      · simp only [Memory.read, ih]
        by_cases h : b = c
        · subst h; simp [eq_comm, *]
        · simp [h]

theorem read_erase_ne (m : Memory) {a b : Nat} (h : b ≠ a) : Memory.read (Memory.erase m a) b = Memory.read m b := by
  induction m with
  | nil => rfl
  | cons p m ih =>
    obtain ⟨c, w⟩ := p
    simp only [Memory.erase]
    split
    · subst_vars; simp [Memory.read, h]
    · simp [Memory.read, ih]

theorem rising_mono {lo lo' : Nat} {m : Memory} (hl : lo ≤ lo') (h : Memory.rising lo' m = true) :
    Memory.rising lo m = true := by
  cases m with
  | nil => rfl
  | cons p m =>
    obtain ⟨c, w⟩ := p
    simp only [Memory.rising, Bool.and_eq_true, decide_eq_true_eq] at h ⊢
    exact ⟨⟨hl.trans h.1.1, h.1.2⟩, h.2⟩

theorem rising_write {lo a : Nat} {m : Memory} {v : Byte} (hm : Memory.rising lo m = true) (hl : lo ≤ a)
    (ha : a < 2 ^ 32) : Memory.rising lo (Memory.write m a v) = true := by
  induction m generalizing lo with
  | nil => simp [Memory.write, Memory.rising, hl]; omega
  | cons p m ih =>
    obtain ⟨c, w⟩ := p
    simp only [Memory.rising, Bool.and_eq_true, decide_eq_true_eq] at hm
    simp only [Memory.write]
    split
    · simp only [Memory.rising, Bool.and_eq_true, decide_eq_true_eq]
      exact ⟨⟨hl, ha⟩, ⟨by omega, hm.1.2⟩, hm.2⟩
    · split
      · subst_vars
        simp only [Memory.rising, Bool.and_eq_true, decide_eq_true_eq]
        exact ⟨⟨hl, ha⟩, hm.2⟩
      · simp only [Memory.rising, Bool.and_eq_true, decide_eq_true_eq]
        exact ⟨hm.1, ih hm.2 (by omega)⟩

theorem rising_erase {lo a : Nat} {m : Memory} (hm : Memory.rising lo m = true) :
    Memory.rising lo (Memory.erase m a) = true := by
  induction m generalizing lo with
  | nil => rfl
  | cons p m ih =>
    obtain ⟨c, w⟩ := p
    simp only [Memory.rising, Bool.and_eq_true, decide_eq_true_eq] at hm
    simp only [Memory.erase]
    split
    · exact rising_mono (by omega) hm.2
    · simp only [Memory.rising, Bool.and_eq_true, decide_eq_true_eq]
      exact ⟨hm.1, ih hm.2⟩

theorem read_eq_none_of_rising {lo a : Nat} {m : Memory} (hm : Memory.rising lo m = true) (h : a < lo) :
    Memory.read m a = none := by
  induction m generalizing lo with
  | nil => rfl
  | cons p m ih =>
    obtain ⟨c, w⟩ := p
    simp only [Memory.rising, Bool.and_eq_true, decide_eq_true_eq] at hm
    have hc : a ≠ c := by omega
    simp only [Memory.read, hc, if_false]
    exact ih hm.2 (by omega)

theorem read_erase_same {lo : Nat} {m : Memory} (hm : Memory.rising lo m = true) (a : Nat) :
    Memory.read (Memory.erase m a) a = none := by
  induction m generalizing lo with
  | nil => rfl
  | cons p m ih =>
    obtain ⟨c, w⟩ := p
    simp only [Memory.rising, Bool.and_eq_true, decide_eq_true_eq] at hm
    simp only [Memory.erase]
    split
    · subst_vars; exact read_eq_none_of_rising hm.2 (Nat.lt_succ_self _)
    · rename_i h
      simp only [Memory.read, h, if_false]
      exact ih hm.2

theorem wf_write {m : Memory} (h : Memory.wf m = true) (a : Word) (v : Byte) :
    Memory.wf (Memory.write m a.toNat v) = true := rising_write h (Nat.zero_le _) a.isLt

theorem wf_erase {m : Memory} (h : Memory.wf m = true) (a : Nat) : Memory.wf (Memory.erase m a) = true := rising_erase h

theorem mem_write {m : Memory} {a : Nat} {v : Byte} {p : Host.Cell} (h : p ∈ Memory.write m a v) : p = (a, v) ∨ p ∈ m := by
  induction m with
  | nil => exact .inl (by simpa [Memory.write] using h)
  | cons q m ih =>
    simp only [Memory.write] at h
    split at h
    · simpa using h
    · split at h
      · simp only [List.mem_cons] at h ⊢
        exact h.imp_right .inr
      · simp only [List.mem_cons] at h ⊢
        exact h.elim (fun h => .inr (.inl h)) fun h => (ih h).imp_right .inr

theorem mem_erase {m : Memory} {a : Nat} {p : Host.Cell} (h : p ∈ Memory.erase m a) : p ∈ m := by
  induction m with
  | nil => exact h
  | cons q m ih =>
    simp only [Memory.erase] at h
    split at h
    · exact List.mem_cons_of_mem _ h
    · exact (List.mem_cons.mp h).elim (fun h => h ▸ List.mem_cons_self ..) fun h => List.mem_cons_of_mem _ (ih h)

end Memory

/-! The two views of a state. -/

/-- A byte written through one view is the byte of every view that shows the same memory there, and of no other address. -/
@[simp] theorem setByte_byteAt (s : State) (cpu d : Cpu) (a x : Word) (v : Byte) :
    (s.setByte cpu a v).byteAt d x =
      if x = a ∧ homeOf s.cfg d x = homeOf s.cfg cpu x then some v else s.byteAt d x := by
  show Memory.read ((s.setMem _ _).memOf (homeOf s.cfg d x)) x.toNat = _
  rw [setMem_memOf]
  by_cases hx : x = a
  · subst hx
    by_cases h : homeOf s.cfg d x = homeOf s.cfg cpu x <;> simp [h, Memory.read_write, State.byteAt]
  · have : x.toNat ≠ a.toNat := fun h => hx (BitVec.toNat_inj.mp h)
    simp only [hx, false_and, if_false]
    split
    · rename_i h; simp [Memory.read_write, this, State.byteAt, h]
    · rfl

theorem forgetByte_byteAt (s : State) (cpu d : Cpu) (a x : Word)
    (h : homeOf s.cfg d x = homeOf s.cfg cpu x → x ≠ a) : (s.forgetByte cpu a).byteAt d x = s.byteAt d x := by
  show Memory.read ((s.setMem _ _).memOf (homeOf s.cfg d x)) x.toNat = _
  rw [setMem_memOf]
  split
  · rename_i hd
    have hx : x ≠ a := by rintro rfl; exact h hd rfl
    rw [Memory.read_erase_ne _ fun hn => hx (BitVec.toNat_inj.mp hn), ← hd]
    rfl
  · rfl

section SetByte
variable (s : State) (cpu : Cpu) (a : Word) (v : Byte)

@[simp] theorem setByte_au : (s.setByte cpu a v).au = s.au := rfl

@[simp] theorem setByte_dma : (s.setByte cpu a v).dma = s.dma := rfl

@[simp] theorem setByte_pending : (s.setByte cpu a v).pending = s.pending := rfl

@[simp] theorem setByte_compat : (s.setByte cpu a v).compat = s.compat := rfl

@[simp] theorem setByte_fifoHalfEmpty : (s.setByte cpu a v).fifoHalfEmpty = s.fifoHalfEmpty := rfl

@[simp] theorem setByte_cfg : (s.setByte cpu a v).cfg = s.cfg := rfl

@[simp] theorem setByte_inbox : (s.setByte cpu a v).inbox = s.inbox := rfl

@[simp] theorem setByte_trace : (s.setByte cpu a v).trace = s.trace := rfl

@[simp] theorem setByte_freeCount : (s.setByte cpu a v).freeCount = s.freeCount := rfl

@[simp] theorem setByte_chan (d : Cpu) (h : Chan) : (s.setByte cpu a v).chan d h = s.chan d h := by
  simp [State.chan]

@[simp] theorem setByte_tasks (d : Cpu) (h : Chan) : (s.setByte cpu a v).tasks d h = s.tasks d h := by
  simp [State.tasks]

end SetByte

section ForgetByte
variable (s : State) (cpu : Cpu) (a : Word)

@[simp] theorem forgetByte_au : (s.forgetByte cpu a).au = s.au := rfl

@[simp] theorem forgetByte_dma : (s.forgetByte cpu a).dma = s.dma := rfl

@[simp] theorem forgetByte_pending : (s.forgetByte cpu a).pending = s.pending := rfl

@[simp] theorem forgetByte_compat : (s.forgetByte cpu a).compat = s.compat := rfl

@[simp] theorem forgetByte_fifoHalfEmpty : (s.forgetByte cpu a).fifoHalfEmpty = s.fifoHalfEmpty := rfl

@[simp] theorem forgetByte_cfg : (s.forgetByte cpu a).cfg = s.cfg := rfl

@[simp] theorem forgetByte_inbox : (s.forgetByte cpu a).inbox = s.inbox := rfl

@[simp] theorem forgetByte_trace : (s.forgetByte cpu a).trace = s.trace := rfl

@[simp] theorem forgetByte_freeCount : (s.forgetByte cpu a).freeCount = s.freeCount := rfl

@[simp] theorem forgetByte_chan (d : Cpu) (h : Chan) : (s.forgetByte cpu a).chan d h = s.chan d h := by
  simp [State.chan]

@[simp] theorem forgetByte_tasks (d : Cpu) (h : Chan) : (s.forgetByte cpu a).tasks d h = s.tasks d h := by
  simp [State.tasks]

end ForgetByte

section Poke
variable (s : State) (p : Poke)

@[simp] theorem poke_au : (s.poke p).au = s.au := by
  cases h : p.value <;> simp [State.poke, h]

@[simp] theorem poke_dma : (s.poke p).dma = s.dma := by
  cases h : p.value <;> simp [State.poke, h]

@[simp] theorem poke_pending : (s.poke p).pending = s.pending := by
  cases h : p.value <;> simp [State.poke, h]

@[simp] theorem poke_compat : (s.poke p).compat = s.compat := by
  cases h : p.value <;> simp [State.poke, h]

@[simp] theorem poke_fifoHalfEmpty : (s.poke p).fifoHalfEmpty = s.fifoHalfEmpty := by
  cases h : p.value <;> simp [State.poke, h]

@[simp] theorem poke_cfg : (s.poke p).cfg = s.cfg := by
  cases h : p.value <;> simp [State.poke, h]

@[simp] theorem poke_inbox : (s.poke p).inbox = s.inbox := by
  cases h : p.value <;> simp [State.poke, h]

@[simp] theorem poke_trace : (s.poke p).trace = s.trace := by
  cases h : p.value <;> simp [State.poke, h]

@[simp] theorem poke_freeCount : (s.poke p).freeCount = s.freeCount := by
  cases h : p.value <;> simp [State.poke, h]

@[simp] theorem poke_chan (d : Cpu) (h : Chan) : (s.poke p).chan d h = s.chan d h := by
  simp [State.chan]

@[simp] theorem poke_tasks (d : Cpu) (h : Chan) : (s.poke p).tasks d h = s.tasks d h := by
  simp [State.tasks]

end Poke

section StoreBytes
variable (s : State) (cpu : Cpu) (a v : Word) (n : Nat)

@[simp] theorem storeBytes_au : (s.storeBytes cpu a v n).au = s.au := by
  induction n <;> simp [State.storeBytes, *]

@[simp] theorem storeBytes_dma : (s.storeBytes cpu a v n).dma = s.dma := by
  induction n <;> simp [State.storeBytes, *]

@[simp] theorem storeBytes_pending : (s.storeBytes cpu a v n).pending = s.pending := by
  induction n <;> simp [State.storeBytes, *]

@[simp] theorem storeBytes_compat : (s.storeBytes cpu a v n).compat = s.compat := by
  induction n <;> simp [State.storeBytes, *]

@[simp] theorem storeBytes_fifoHalfEmpty : (s.storeBytes cpu a v n).fifoHalfEmpty = s.fifoHalfEmpty := by
  induction n <;> simp [State.storeBytes, *]

@[simp] theorem storeBytes_cfg : (s.storeBytes cpu a v n).cfg = s.cfg := by
  induction n <;> simp [State.storeBytes, *]

@[simp] theorem storeBytes_inbox : (s.storeBytes cpu a v n).inbox = s.inbox := by
  induction n <;> simp [State.storeBytes, *]

@[simp] theorem storeBytes_trace : (s.storeBytes cpu a v n).trace = s.trace := by
  induction n <;> simp [State.storeBytes, *]

@[simp] theorem storeBytes_freeCount : (s.storeBytes cpu a v n).freeCount = s.freeCount := by
  induction n <;> simp [State.storeBytes, *]

@[simp] theorem storeBytes_chan (d : Cpu) (h : Chan) : (s.storeBytes cpu a v n).chan d h = s.chan d h := by
  simp [State.chan]

@[simp] theorem storeBytes_tasks (d : Cpu) (h : Chan) : (s.storeBytes cpu a v n).tasks d h = s.tasks d h := by
  simp [State.tasks]

end StoreBytes

section ForgetBytes
variable (s : State) (cpu : Cpu) (a : Word) (n : Nat)

@[simp] theorem forgetBytes_au : (s.forgetBytes cpu a n).au = s.au := by
  induction n <;> simp [State.forgetBytes, *]

@[simp] theorem forgetBytes_dma : (s.forgetBytes cpu a n).dma = s.dma := by
  induction n <;> simp [State.forgetBytes, *]

@[simp] theorem forgetBytes_pending : (s.forgetBytes cpu a n).pending = s.pending := by
  induction n <;> simp [State.forgetBytes, *]

@[simp] theorem forgetBytes_compat : (s.forgetBytes cpu a n).compat = s.compat := by
  induction n <;> simp [State.forgetBytes, *]

@[simp] theorem forgetBytes_fifoHalfEmpty : (s.forgetBytes cpu a n).fifoHalfEmpty = s.fifoHalfEmpty := by
  induction n <;> simp [State.forgetBytes, *]

@[simp] theorem forgetBytes_cfg : (s.forgetBytes cpu a n).cfg = s.cfg := by
  induction n <;> simp [State.forgetBytes, *]

@[simp] theorem forgetBytes_inbox : (s.forgetBytes cpu a n).inbox = s.inbox := by
  induction n <;> simp [State.forgetBytes, *]

@[simp] theorem forgetBytes_trace : (s.forgetBytes cpu a n).trace = s.trace := by
  induction n <;> simp [State.forgetBytes, *]

@[simp] theorem forgetBytes_freeCount : (s.forgetBytes cpu a n).freeCount = s.freeCount := by
  induction n <;> simp [State.forgetBytes, *]

@[simp] theorem forgetBytes_chan (d : Cpu) (h : Chan) : (s.forgetBytes cpu a n).chan d h = s.chan d h := by
  simp [State.chan]

@[simp] theorem forgetBytes_tasks (d : Cpu) (h : Chan) : (s.forgetBytes cpu a n).tasks d h = s.tasks d h := by
  simp [State.tasks]

end ForgetBytes

/-! The canonical form. -/

theorem setMem_memoryWf {s : State} (hs : MemoryWf s) (k : Home) {m : Memory} (hm : Memory.wf m = true)
    (hk : Stands s.cfg k m) : MemoryWf (s.setMem k m) := by
  intro d
  simp only [setMem_memOf, setMem_cfg]
  split
  · rename_i h; exact ⟨hm, h ▸ hk⟩
  · exact hs d

theorem setByte_memoryWf {s : State} (hs : MemoryWf s) (cpu : Cpu) (a : Word) (v : Byte) :
    MemoryWf (s.setByte cpu a v) := by
  refine setMem_memoryWf hs _ (Memory.wf_write (hs _).1 a v) fun p hp => ?_
  obtain rfl | hp := Memory.mem_write hp
  · exact ⟨cpu, by simp⟩
  · exact (hs _).2 p hp

theorem forgetByte_memoryWf {s : State} (hs : MemoryWf s) (cpu : Cpu) (a : Word) : MemoryWf (s.forgetByte cpu a) :=
  setMem_memoryWf hs _ (Memory.wf_erase (hs _).1 a.toNat) fun p hp => (hs _).2 p (Memory.mem_erase hp)

theorem poke_memoryWf {s : State} (hs : MemoryWf s) (p : Poke) : MemoryWf (s.poke p) := by
  cases h : p.value with
  | none => simpa [State.poke, h] using forgetByte_memoryWf hs p.cpu p.addr
  | some v => simpa [State.poke, h] using setByte_memoryWf hs p.cpu p.addr v

theorem storeBytes_memoryWf {s : State} (hs : MemoryWf s) (cpu : Cpu) (a v : Word) (n : Nat) :
    MemoryWf (s.storeBytes cpu a v n) := by
  induction n with
  | zero => exact hs
  | succ n ih => exact setByte_memoryWf ih cpu _ _

theorem forgetBytes_memoryWf {s : State} (hs : MemoryWf s) (cpu : Cpu) (a : Word) (n : Nat) :
    MemoryWf (s.forgetBytes cpu a n) := by
  induction n with
  | zero => exact hs
  | succ n ih => exact forgetByte_memoryWf ih cpu _

theorem reset_memoryWf : MemoryWf State.reset := by
  intro h
  have : State.reset.memOf h = [] := by cases h with
    | shared => rfl
    | own cpu => cases cpu <;> rfl
  rw [this]
  exact ⟨rfl, fun p hp => absurd hp (List.not_mem_nil)⟩

/-! What several bytes leave. -/

theorem storeBytes_byteAt_ne (s : State) (cpu d : Cpu) (a v x : Word) (n : Nat)
    (h : homeOf s.cfg d x = homeOf s.cfg cpu x → ∀ j, j < n → x ≠ a + BitVec.ofNat 32 j) : (s.storeBytes cpu a v n).byteAt d x = s.byteAt d x := by
  induction n with
  | zero => rfl
  | succ n ih =>
    simp only [State.storeBytes, setByte_byteAt, storeBytes_cfg]
    rw [if_neg (fun hc => h hc.2 n (Nat.lt_succ_self n) hc.1)]
    exact ih fun hd j hj => h hd j (Nat.lt_succ_of_lt hj)

theorem forgetBytes_byteAt_ne (s : State) (cpu d : Cpu) (a x : Word) (n : Nat)
    (h : homeOf s.cfg d x = homeOf s.cfg cpu x → ∀ j, j < n → x ≠ a + BitVec.ofNat 32 j) : (s.forgetBytes cpu a n).byteAt d x = s.byteAt d x := by
  induction n with
  | zero => rfl
  | succ n ih =>
    simp only [State.forgetBytes]
    rw [forgetByte_byteAt _ _ _ _ _ (fun hc => h (by simpa using hc) n (Nat.lt_succ_self n))]
    exact ih fun hd j hj => h hd j (Nat.lt_succ_of_lt hj)

/-- The byte stored at the `j`-th address, as every view that shows the same memory there reads it. -/
theorem storeBytes_byteAt (s : State) (cpu d : Cpu) (a v : Word) {n j : Nat} (hj : j < n) (hn : n ≤ 4)
    (hd : homeOf s.cfg d (a + BitVec.ofNat 32 j) = homeOf s.cfg cpu (a + BitVec.ofNat 32 j)) :
    (s.storeBytes cpu a v n).byteAt d (a + BitVec.ofNat 32 j) = some (v.extractLsb' (8 * j) 8) := by
  induction n with
  | zero => omega
  | succ n ih =>
    simp only [State.storeBytes, setByte_byteAt, storeBytes_cfg, hd, and_true]
    by_cases h : j = n
    · subst h; simp
    · have : a + BitVec.ofNat 32 j ≠ a + BitVec.ofNat 32 n := by
        intro hc
        have hc' := (BitVec.add_right_inj a).mp hc
        have := congrArg BitVec.toNat hc'
        simp only [BitVec.toNat_ofNat] at this
        omega
      rw [if_neg this]
      exact ih (by omega) (by omega)

end Sys2Proof.Machine
end

