-- ==== Sys2Proof/Laws/Operands.lean ====
section
/-! SUPPORT. Operand forms and the ArithmeticUnit's two operations: one lemma for each that says what it leaves. -/

namespace Sys2Proof.Machine

/-! Masked writes, bit by bit. -/

theorem merge_getLsbD {n : Nat} (old mask value : BitVec n) (i : Nat) :
    (merge old mask value).getLsbD i = if mask.getLsbD i then value.getLsbD i else old.getLsbD i := by
  by_cases hi : i < n
  · cases h : mask.getLsbD i <;>
      simp only [merge, BitVec.getLsbD_or, BitVec.getLsbD_and, BitVec.getLsbD_not, h, hi] <;> simp
  · simp [BitVec.getLsbD_of_ge _ i (Nat.le_of_not_lt hi)]

theorem setLowHalf_getLsbD (x : DWord) (v : Word) (i : Nat) :
    (setLowHalf x v).getLsbD i = if i < 32 then v.getLsbD i else (highHalf x).getLsbD (i - 32) :=
  (BitVec.getLsbD_append (x := highHalf x) (y := v) (i := i)).trans (by split <;> simp [*])

theorem setHighHalf_getLsbD (x : DWord) (v : Word) (i : Nat) :
    (setHighHalf x v).getLsbD i = if i < 32 then (lowHalf x).getLsbD i else v.getLsbD (i - 32) :=
  (BitVec.getLsbD_append (x := v) (y := lowHalf x) (i := i)).trans (by split <;> simp [*])

theorem lowHalf_getLsbD (x : DWord) {i : Nat} (hi : i < 32) : (lowHalf x).getLsbD i = x.getLsbD i := by
  rw [lowHalf, BitVec.getLsbD_extractLsb', decide_eq_true hi, Bool.true_and, Nat.zero_add]

theorem highHalf_getLsbD (x : DWord) {i : Nat} (hi : i < 32) : (highHalf x).getLsbD i = x.getLsbD (32 + i) := by
  rw [highHalf, BitVec.getLsbD_extractLsb', decide_eq_true hi, Bool.true_and]

@[simp] theorem lowHalf_setHighHalf (x : DWord) (v : Word) : lowHalf (setHighHalf x v) = lowHalf x := by
  apply BitVec.eq_of_getLsbD_eq
  intro i hi
  rw [lowHalf_getLsbD _ hi, setHighHalf_getLsbD, if_pos hi]

@[simp] theorem highHalf_setLowHalf (x : DWord) (v : Word) : highHalf (setLowHalf x v) = highHalf x := by
  apply BitVec.eq_of_getLsbD_eq
  intro i hi
  rw [highHalf_getLsbD _ hi, setLowHalf_getLsbD, if_neg (by omega), Nat.add_sub_cancel_left]

@[simp] theorem lowHalf_setLowHalf (x : DWord) (v : Word) : lowHalf (setLowHalf x v) = v := by
  apply BitVec.eq_of_getLsbD_eq
  intro i hi
  rw [lowHalf_getLsbD _ hi, setLowHalf_getLsbD, if_pos hi]

@[simp] theorem highHalf_setHighHalf (x : DWord) (v : Word) : highHalf (setHighHalf x v) = v := by
  apply BitVec.eq_of_getLsbD_eq
  intro i hi
  rw [highHalf_getLsbD _ hi, setHighHalf_getLsbD, if_neg (by omega), Nat.add_sub_cancel_left]

theorem mergeLow_getLsbD (x : DWord) (a : WAccess) {i : Nat} (hi : i < 64) :
    (mergeLow x a).getLsbD i =
      if i < 32 ∧ (maskOf a).getLsbD i then (valueOf a).getLsbD i else x.getLsbD i := by
  rw [mergeLow, setLowHalf_getLsbD]
  by_cases h : i < 32
  · simp only [h, if_true, merge_getLsbD, lowHalf_getLsbD x h, true_and]
  · rw [if_neg h, if_neg (by simp [h]), highHalf_getLsbD x (by omega), show 32 + (i - 32) = i by omega]

theorem mergeHigh_getLsbD (x : DWord) (a : WAccess) {i : Nat} (hi : i < 64) :
    (mergeHigh x a).getLsbD i =
      if 32 ≤ i ∧ (maskOf a).getLsbD (i - 32) then (valueOf a).getLsbD (i - 32) else x.getLsbD i := by
  rw [mergeHigh, setHighHalf_getLsbD]
  by_cases h : i < 32
  · rw [if_pos h, if_neg (by omega), lowHalf_getLsbD x h]
  · have h4 : 32 ≤ i := by omega
    rw [if_neg h, merge_getLsbD, highHalf_getLsbD x (by omega), show 32 + (i - 32) = i by omega]
    simp only [h4, true_and]

/-- An access delivers a bit to a 16-bit register exactly if its lane is one of the two lower bytes (R54). -/
theorem maskOf16_eq_zero_iff (a : WAccess) : maskOf16 a = 0#16 ↔ 2 ≤ a.lane.toNat := by
  have h : ∀ (w : Width) (k : BitVec 2), (w = .word → k = 0#2) → (w = .half → k = 0#2 ∨ k = 2#2) →
      ((laneMask w k).setWidth 16 = 0#16 ↔ 2 ≤ k.toNat) := by
    intro w
    cases w <;> decide
  refine h a.width a.lane ?_ ?_ <;> cases a <;> simp [WAccess.width, WAccess.lane]

/-! The flag. -/

theorem withDiv0_getLsbD (c : Half) (b : Bool) (i : Nat) :
    (withDiv0 c b).getLsbD i = if i = 14 then b else c.getLsbD i := by
  by_cases hi : i < 16
  · have : i = 0 ∨ i = 1 ∨ i = 2 ∨ i = 3 ∨ i = 4 ∨ i = 5 ∨ i = 6 ∨ i = 7 ∨ i = 8 ∨ i = 9 ∨ i = 10 ∨ i = 11 ∨ i = 12
        ∨ i = 13 ∨ i = 14 ∨ i = 15 := by omega
    cases b <;> rcases this with h | h | h | h | h | h | h | h | h | h | h | h | h | h | h | h <;> subst h <;>
      simp [withDiv0]
  · have h14 : i ≠ 14 := by omega
    simp [BitVec.getLsbD_of_ge _ i (by omega : 16 ≤ i), h14]

@[simp] theorem div0_withDiv0 (c : Half) (b : Bool) : div0 (withDiv0 c b) = b := by
  rw [div0, withDiv0_getLsbD, if_pos rfl]

@[simp] theorem divMode_withDiv0 (c : Half) (b : Bool) : divMode (withDiv0 c b) = divMode c := by
  apply BitVec.eq_of_getLsbD_eq
  intro i hi
  have h : i ≠ 14 := by omega
  simp [divMode, withDiv0_getLsbD, h]

/-! The divide operation. -/

theorem divide_div0 (mode : BitVec 2) (num den : DWord) : (divide mode num den).div0 = zeroDivFlag den := by
  unfold divide
  simp only
  repeat' split
  all_goals rfl

@[simp] theorem runDivide_divNumerator (u : ArithmeticUnit) : (runDivide u).divNumerator = u.divNumerator := by
  cases u; rfl

@[simp] theorem runDivide_divDenominator (u : ArithmeticUnit) : (runDivide u).divDenominator = u.divDenominator := by
  cases u; rfl

@[simp] theorem runDivide_sqrtControl (u : ArithmeticUnit) : (runDivide u).sqrtControl = u.sqrtControl := by
  cases u; rfl

@[simp] theorem runDivide_sqrtParameter (u : ArithmeticUnit) : (runDivide u).sqrtParameter = u.sqrtParameter := by
  cases u; rfl

@[simp] theorem runDivide_sqrtResult (u : ArithmeticUnit) : (runDivide u).sqrtResult = u.sqrtResult := by
  cases u; rfl

theorem runDivide_divControl (u : ArithmeticUnit) : (runDivide u).divControl = withDiv0 u.divControl (zeroDivFlag u.divDenominator) := by
  simp only [runDivide, divide_div0]

theorem runDivide_divResult (u : ArithmeticUnit) :
    (runDivide u).divResult = (divide (divMode u.divControl) u.divNumerator u.divDenominator).result := by
  simp only [runDivide]

theorem runDivide_divRemainder (u : ArithmeticUnit) :
    (runDivide u).divRemainder = (divide (divMode u.divControl) u.divNumerator u.divDenominator).remainder := by
  simp only [runDivide]

theorem runDivide_sameSqrt (u : ArithmeticUnit) : SameSqrt (runDivide u) u := by
  simp [SameSqrt]

theorem runDivide_sameButFlag (u : ArithmeticUnit) : SameButFlag (runDivide u).divControl u.divControl := by
  intro i hi
  rw [runDivide_divControl, withDiv0_getLsbD, if_neg hi]

/-- After the divide operation the divider is consistent (R26). -/
theorem runDivide_consistent (u : ArithmeticUnit) : DivConsistent (runDivide u) := by
  simp [DivConsistent, runDivide]

/-- A consistent divider is a fixed point of the divide operation (R121). -/
theorem runDivide_of_consistent {u : ArithmeticUnit} (h : DivConsistent u) : runDivide u = u := by
  have hc : withDiv0 u.divControl (div0 u.divControl) = u.divControl := by
    apply BitVec.eq_of_getLsbD_eq
    intro i _
    rw [withDiv0_getLsbD]
    split
    · subst_vars; rfl
    · rfl
  unfold DivConsistent at h
  simp [runDivide, h, hc]

/-! The square-root operation. -/

@[simp] theorem runSqrt_divControl (u : ArithmeticUnit) : (runSqrt u).divControl = u.divControl := by
  cases u; rfl

@[simp] theorem runSqrt_divNumerator (u : ArithmeticUnit) : (runSqrt u).divNumerator = u.divNumerator := by
  cases u; rfl

@[simp] theorem runSqrt_divDenominator (u : ArithmeticUnit) : (runSqrt u).divDenominator = u.divDenominator := by
  cases u; rfl

@[simp] theorem runSqrt_divResult (u : ArithmeticUnit) : (runSqrt u).divResult = u.divResult := by
  cases u; rfl

@[simp] theorem runSqrt_divRemainder (u : ArithmeticUnit) : (runSqrt u).divRemainder = u.divRemainder := by
  cases u; rfl

@[simp] theorem runSqrt_sqrtControl (u : ArithmeticUnit) : (runSqrt u).sqrtControl = u.sqrtControl := by
  cases u; rfl

@[simp] theorem runSqrt_sqrtParameter (u : ArithmeticUnit) : (runSqrt u).sqrtParameter = u.sqrtParameter := by
  cases u; rfl

theorem runSqrt_sqrtResult (u : ArithmeticUnit) :
    (runSqrt u).sqrtResult = squareRoot (sqrtWidth u.sqrtControl) u.sqrtParameter := by
  simp only [runSqrt]

/-- After the square-root operation the unit is consistent (R30). -/
theorem runSqrt_consistent (u : ArithmeticUnit) : SqrtConsistent (runSqrt u) := by
  simp only [SqrtConsistent, runSqrt_sqrtControl, runSqrt_sqrtParameter, runSqrt_sqrtResult]

theorem runSqrt_sameDivider (u : ArithmeticUnit) : SameDivider (runSqrt u) u := by
  simp [SameDivider]

theorem divConsistent_of_same {u v : ArithmeticUnit} (h : SameDivider u v) (hv : DivConsistent v) : DivConsistent u := by
  obtain ⟨h1, h2, h3, h4, h5⟩ := h
  simpa only [DivConsistent, h1, h2, h3, h4, h5] using hv

theorem sqrtConsistent_of_same {u v : ArithmeticUnit} (h : SameSqrt u v) (hv : SqrtConsistent v) : SqrtConsistent u := by
  obtain ⟨h1, h2, h3⟩ := h
  simpa only [SqrtConsistent, h1, h2, h3] using hv

/-! Register writes of the ArithmeticUnit. -/

/-- The writes of the divider's registers. -/
def isDivReg : AuReg → Bool
  | .divcnt | .divNumerL | .divNumerH | .divDenomL | .divDenomH => true
  | .divResultL | .divResultH | .divremResultL | .divremResultH => true
  | .sqrtcnt | .sqrtResult | .sqrtParamL | .sqrtParamH => false

/-- A write of a square-root register leaves the divider alone (R30). -/
theorem writeAuReg_sameDivider {r : AuReg} (hr : isDivReg r = false) (a : WAccess) (u : ArithmeticUnit) :
    SameDivider (writeAuReg r a u) u := by
  cases r <;> simp_all [isDivReg, writeAuReg, writeSqrtcnt, writeSqrtResult, writeSqrtParamL, writeSqrtParamH, SameDivider]
  split <;> simp

/-- A write of a divider register leaves the square-root registers alone (R30). -/
theorem writeAuReg_sameSqrt {r : AuReg} (hr : isDivReg r = true) (a : WAccess) (u : ArithmeticUnit) :
    SameSqrt (writeAuReg r a u) u := by
  cases r <;> simp_all [isDivReg, writeAuReg, writeDivcnt, writeDivNumerL, writeDivNumerH, writeDivDenomL, writeDivDenomH,
    writeDivResultL, writeDivResultH, writeDivremResultL, writeDivremResultH, SameSqrt]
  split <;> simp

/-- A write keeps the divider consistent (R26). -/
theorem writeAuReg_divConsistent (r : AuReg) (a : WAccess) {u : ArithmeticUnit} (h : DivConsistent u) :
    DivConsistent (writeAuReg r a u) := by
  cases hr : isDivReg r with
  | false => exact divConsistent_of_same (writeAuReg_sameDivider hr a u) h
  | true =>
    cases r <;> simp_all only [isDivReg, writeAuReg, writeDivcnt, writeDivNumerL, writeDivNumerH, writeDivDenomL,
      writeDivDenomH, writeDivResultL, writeDivResultH, writeDivremResultL, writeDivremResultH, runDivide_consistent,
      Bool.false_eq_true]
    split
    · exact h
    · exact runDivide_consistent _

/-- A write keeps the square-root unit consistent (R30). -/
theorem writeAuReg_sqrtConsistent (r : AuReg) (a : WAccess) {u : ArithmeticUnit} (h : SqrtConsistent u) :
    SqrtConsistent (writeAuReg r a u) := by
  cases hr : isDivReg r with
  | true => exact sqrtConsistent_of_same (writeAuReg_sameSqrt hr a u) h
  | false =>
    cases r <;> simp_all only [isDivReg, writeAuReg, writeSqrtcnt, writeSqrtResult, writeSqrtParamL, writeSqrtParamH,
      runSqrt_consistent, Bool.true_eq_false]
    split
    · exact h
    · exact runSqrt_consistent _

/-! Reserved bits, stated bit by bit. -/

theorem and_not_eq_zero_iff {n : Nat} (x m : BitVec n) :
    x &&& ~~~m = 0#n ↔ ∀ i, i < n → m.getLsbD i = false → x.getLsbD i = false := by
  constructor
  · intro h i hi hm
    have h' : (x &&& ~~~m).getLsbD i = false := by rw [h]; exact BitVec.getLsbD_zero
    rw [BitVec.getLsbD_and, BitVec.getLsbD_not, hm, decide_eq_true hi] at h'
    simpa using h'
  · intro h
    apply BitVec.eq_of_getLsbD_eq
    intro i hi
    rw [BitVec.getLsbD_and, BitVec.getLsbD_not, BitVec.getLsbD_zero]
    cases hm : m.getLsbD i with
    | false => rw [h i hi hm]; rfl
    | true => simp

/-- A merge through a mask that lies inside the register's own mask sets no bit outside it. -/
theorem merge_masked {n : Nat} {old own : BitVec n} (mask value : BitVec n) (h : old &&& ~~~own = 0#n) :
    merge old (mask &&& own) value &&& ~~~own = 0#n := by
  rw [and_not_eq_zero_iff] at h ⊢
  intro i hi ho
  rw [merge_getLsbD, BitVec.getLsbD_and, ho, Bool.and_false, if_neg Bool.false_ne_true, h i hi ho]

/-- The writable bits of `divControl` are bits it may hold. -/
theorem divControlMask_le : ∀ i, i < 16 → divControlBits.getLsbD i = false → divControlMask.getLsbD i = false ∧ i ≠ 14 := by
  decide

theorem runDivide_reserved {u : ArithmeticUnit} (h : ReservedZero u) : ReservedZero (runDivide u) := by
  refine ⟨?_, by simpa using h.2⟩
  have h1 := h.1
  rw [and_not_eq_zero_iff] at h1 ⊢
  intro i hi hm
  rw [runDivide_divControl, withDiv0_getLsbD, if_neg (divControlMask_le i hi hm).2]
  exact h1 i hi hm

theorem runSqrt_reserved {u : ArithmeticUnit} (h : ReservedZero u) : ReservedZero (runSqrt u) := by
  simpa [ReservedZero] using h

theorem writeAuReg_reserved (r : AuReg) (a : WAccess) {u : ArithmeticUnit} (h : ReservedZero u) :
    ReservedZero (writeAuReg r a u) := by
  cases r with
  | divcnt =>
    simp only [writeAuReg, writeDivcnt]
    split
    · exact h
    · refine runDivide_reserved ⟨?_, h.2⟩
      have h1 := h.1
      rw [and_not_eq_zero_iff] at h1 ⊢
      intro i hi hm
      rw [merge_getLsbD, BitVec.getLsbD_and, (divControlMask_le i hi hm).1, Bool.and_false, if_neg Bool.false_ne_true]
      exact h1 i hi hm
  | sqrtcnt =>
    simp only [writeAuReg, writeSqrtcnt]
    split
    · exact h
    · exact runSqrt_reserved ⟨h.1, merge_masked _ _ h.2⟩
  | divNumerL | divNumerH | divDenomL | divDenomH => exact runDivide_reserved ⟨h.1, h.2⟩
  | sqrtParamL | sqrtParamH => exact runSqrt_reserved ⟨h.1, h.2⟩
  | divResultL | divResultH | divremResultL | divremResultH | sqrtResult => exact h

end Sys2Proof.Machine
end

