-- ==== Sys2Proof/Laws/PerInstr.lean ====
section
/-! SUPPORT. Per-instruction families. EncodeSlot: the request that encodes a register operation carries the operation's CPU,
width and data, the register's own slot address (R84), and the lane in the two low address bits (R82); an event's request
carries the event's arguments (R70). -/

namespace Sys2Proof.Laws.EncodeSlot

/-- What the encoding of an operation holds. -/
def Statement (i : Instr) : Prop :=
  ∀ c : Config, c.regMap.wf = true →
    match i.form with
    | .write id cpu a =>
      ∃ addr, encode c i = .regw cpu addr a.width a.data ∧ slotOf addr = c.regMap.get id ∧ laneOf addr = a.lane
    | .read id cpu a =>
      ∃ addr, encode c i = .regr cpu addr a.width ∧ slotOf addr = c.regMap.get id ∧ laneOf addr = a.lane
    | .trigger cpu mode m => encode c i = .trigger cpu mode m
    | .dispatch cpu ch => encode c i = .dispatch cpu ch
    | .reset => encode c i = .reset

/-- Every register is in the list of all registers. -/
theorem mem_all (id : RegId) : id ∈ RegId.all := by
  cases id with
  | au r => cases r <;> decide
  | sad ch => cases ch <;> decide
  | dad ch => cases ch <;> decide
  | cnt ch => cases ch <;> decide

/-- A register stands at a multiple of 4 (R52). -/
theorem aligned {m : RegMap} (h : m.wf = true) (id : RegId) : m.get id &&& 3#32 = 0#32 := by
  have := List.all_eq_true.mp h id (mem_all id)
  simp only [Bool.and_eq_true, beq_iff_eq] at this
  exact this.1

theorem slotOf_or {x : Word} (h : x &&& 3#32 = 0#32) (k : BitVec 2) : slotOf (x ||| k.setWidth 32) = x := by
  have hk : ∀ k : BitVec 2, k.setWidth 32 &&& 0xFFFFFFFC#32 = 0#32 := by decide
  have hx : x &&& 0xFFFFFFFC#32 = x := by
    have h1 : x &&& (3#32 ||| 0xFFFFFFFC#32) = x := by
      rw [show (3#32 ||| 0xFFFFFFFC#32) = BitVec.allOnes 32 by decide, BitVec.and_allOnes]
    rwa [BitVec.and_or_distrib_left, h, BitVec.zero_or] at h1
  rw [slotOf, BitVec.and_comm, BitVec.and_or_distrib_left, BitVec.and_comm _ x, hx, BitVec.and_comm _ (k.setWidth 32), hk,
    BitVec.or_zero]

theorem laneOf_or {x : Word} (h : x &&& 3#32 = 0#32) (k : BitVec 2) : laneOf (x ||| k.setWidth 32) = k := by
  have h1 : (x &&& 3#32).setWidth 2 = 0#2 := by rw [h]; rfl
  rw [BitVec.setWidth_and, show (3#32).setWidth 2 = BitVec.allOnes 2 by decide, BitVec.and_allOnes] at h1
  rw [laneOf, BitVec.setWidth_or, h1, BitVec.zero_or, BitVec.setWidth_setWidth_of_le _ (by decide), BitVec.setWidth_eq]

theorem write_case {i : Instr} {id : RegId} {cpu : Cpu} {a : WAccess} (h : i.form = .write id cpu a) : Statement i := by
  intro c hc
  simp only [h, encode]
  exact ⟨_, rfl, slotOf_or (aligned hc id) _, laneOf_or (aligned hc id) _⟩

theorem read_case {i : Instr} {id : RegId} {cpu : Cpu} {a : RAccess} (h : i.form = .read id cpu a) : Statement i := by
  intro c hc
  simp only [h, encode]
  exact ⟨_, rfl, slotOf_or (aligned hc id) _, laneOf_or (aligned hc id) _⟩

theorem wDivcnt (cpu : Cpu) (a : WAccess) : Statement (.wDivcnt cpu a) := write_case rfl

theorem rDivcnt (cpu : Cpu) (a : RAccess) : Statement (.rDivcnt cpu a) := read_case rfl

theorem wDivNumerL (cpu : Cpu) (a : WAccess) : Statement (.wDivNumerL cpu a) := write_case rfl

theorem rDivNumerL (cpu : Cpu) (a : RAccess) : Statement (.rDivNumerL cpu a) := read_case rfl

theorem wDivNumerH (cpu : Cpu) (a : WAccess) : Statement (.wDivNumerH cpu a) := write_case rfl

theorem rDivNumerH (cpu : Cpu) (a : RAccess) : Statement (.rDivNumerH cpu a) := read_case rfl

theorem wDivDenomL (cpu : Cpu) (a : WAccess) : Statement (.wDivDenomL cpu a) := write_case rfl

theorem rDivDenomL (cpu : Cpu) (a : RAccess) : Statement (.rDivDenomL cpu a) := read_case rfl

theorem wDivDenomH (cpu : Cpu) (a : WAccess) : Statement (.wDivDenomH cpu a) := write_case rfl

theorem rDivDenomH (cpu : Cpu) (a : RAccess) : Statement (.rDivDenomH cpu a) := read_case rfl

theorem wDivResultL (cpu : Cpu) (a : WAccess) : Statement (.wDivResultL cpu a) := write_case rfl

theorem rDivResultL (cpu : Cpu) (a : RAccess) : Statement (.rDivResultL cpu a) := read_case rfl

theorem wDivResultH (cpu : Cpu) (a : WAccess) : Statement (.wDivResultH cpu a) := write_case rfl

theorem rDivResultH (cpu : Cpu) (a : RAccess) : Statement (.rDivResultH cpu a) := read_case rfl

theorem wDivremResultL (cpu : Cpu) (a : WAccess) : Statement (.wDivremResultL cpu a) := write_case rfl

theorem rDivremResultL (cpu : Cpu) (a : RAccess) : Statement (.rDivremResultL cpu a) := read_case rfl

theorem wDivremResultH (cpu : Cpu) (a : WAccess) : Statement (.wDivremResultH cpu a) := write_case rfl

theorem rDivremResultH (cpu : Cpu) (a : RAccess) : Statement (.rDivremResultH cpu a) := read_case rfl

theorem wSqrtcnt (cpu : Cpu) (a : WAccess) : Statement (.wSqrtcnt cpu a) := write_case rfl

theorem rSqrtcnt (cpu : Cpu) (a : RAccess) : Statement (.rSqrtcnt cpu a) := read_case rfl

theorem wSqrtResult (cpu : Cpu) (a : WAccess) : Statement (.wSqrtResult cpu a) := write_case rfl

theorem rSqrtResult (cpu : Cpu) (a : RAccess) : Statement (.rSqrtResult cpu a) := read_case rfl

theorem wSqrtParamL (cpu : Cpu) (a : WAccess) : Statement (.wSqrtParamL cpu a) := write_case rfl

theorem rSqrtParamL (cpu : Cpu) (a : RAccess) : Statement (.rSqrtParamL cpu a) := read_case rfl

theorem wSqrtParamH (cpu : Cpu) (a : WAccess) : Statement (.wSqrtParamH cpu a) := write_case rfl

theorem rSqrtParamH (cpu : Cpu) (a : RAccess) : Statement (.rSqrtParamH cpu a) := read_case rfl

theorem wDma0Sad (cpu : Cpu) (a : WAccess) : Statement (.wDma0Sad cpu a) := write_case rfl

theorem rDma0Sad (cpu : Cpu) (a : RAccess) : Statement (.rDma0Sad cpu a) := read_case rfl

theorem wDma0Dad (cpu : Cpu) (a : WAccess) : Statement (.wDma0Dad cpu a) := write_case rfl

theorem rDma0Dad (cpu : Cpu) (a : RAccess) : Statement (.rDma0Dad cpu a) := read_case rfl

theorem wDma0Cnt (cpu : Cpu) (a : WAccess) : Statement (.wDma0Cnt cpu a) := write_case rfl

theorem rDma0Cnt (cpu : Cpu) (a : RAccess) : Statement (.rDma0Cnt cpu a) := read_case rfl

theorem wDma1Sad (cpu : Cpu) (a : WAccess) : Statement (.wDma1Sad cpu a) := write_case rfl

theorem rDma1Sad (cpu : Cpu) (a : RAccess) : Statement (.rDma1Sad cpu a) := read_case rfl

theorem wDma1Dad (cpu : Cpu) (a : WAccess) : Statement (.wDma1Dad cpu a) := write_case rfl

theorem rDma1Dad (cpu : Cpu) (a : RAccess) : Statement (.rDma1Dad cpu a) := read_case rfl

theorem wDma1Cnt (cpu : Cpu) (a : WAccess) : Statement (.wDma1Cnt cpu a) := write_case rfl

theorem rDma1Cnt (cpu : Cpu) (a : RAccess) : Statement (.rDma1Cnt cpu a) := read_case rfl

theorem wDma2Sad (cpu : Cpu) (a : WAccess) : Statement (.wDma2Sad cpu a) := write_case rfl

theorem rDma2Sad (cpu : Cpu) (a : RAccess) : Statement (.rDma2Sad cpu a) := read_case rfl

theorem wDma2Dad (cpu : Cpu) (a : WAccess) : Statement (.wDma2Dad cpu a) := write_case rfl

theorem rDma2Dad (cpu : Cpu) (a : RAccess) : Statement (.rDma2Dad cpu a) := read_case rfl

theorem wDma2Cnt (cpu : Cpu) (a : WAccess) : Statement (.wDma2Cnt cpu a) := write_case rfl

theorem rDma2Cnt (cpu : Cpu) (a : RAccess) : Statement (.rDma2Cnt cpu a) := read_case rfl

theorem wDma3Sad (cpu : Cpu) (a : WAccess) : Statement (.wDma3Sad cpu a) := write_case rfl

theorem rDma3Sad (cpu : Cpu) (a : RAccess) : Statement (.rDma3Sad cpu a) := read_case rfl

theorem wDma3Dad (cpu : Cpu) (a : WAccess) : Statement (.wDma3Dad cpu a) := write_case rfl

theorem rDma3Dad (cpu : Cpu) (a : RAccess) : Statement (.rDma3Dad cpu a) := read_case rfl

theorem wDma3Cnt (cpu : Cpu) (a : WAccess) : Statement (.wDma3Cnt cpu a) := write_case rfl

theorem rDma3Cnt (cpu : Cpu) (a : RAccess) : Statement (.rDma3Cnt cpu a) := read_case rfl

theorem trigger (cpu : Cpu) (mode : Word) (channelMask : BitVec 4) : Statement (.trigger cpu mode channelMask) :=
  fun _ _ => rfl

theorem dispatch (cpu : Cpu) (ch : Chan) : Statement (.dispatch cpu ch) := fun _ _ => rfl

theorem reset : Statement .reset := fun _ _ => rfl

end Sys2Proof.Laws.EncodeSlot
end

