-- ==== Sys2Proof/Laws/Transfer.lean ====
section
/-! SUPPORT. The DMA state machine: what one unit access, one unit copy, a whole burst, the bookkeeping, a DISPATCH, an
operation and a step can do, each said once. -/

namespace Sys2Proof.Machine

/-! Running on. -/

theorem andThen_next {α β : Type} {o : Host.Outcome α Fault Refusal} {f : α → Host.Outcome β Fault Refusal} {b : β} :
    andThen o f = .next b ↔ ∃ a, o = .next a ∧ f a = .next b := by
  cases o <;> simp [andThen]

/-! Where a unit write lands. -/

section WriteLanding
variable (cpu : Cpu) (addr : Word) (w : Width) (v : Word) (l : Landing) (s : State)

@[simp] theorem writeLanding_dma : (writeLanding cpu addr w v l s).dma = s.dma := by
  cases l <;> simp [writeLanding]

@[simp] theorem writeLanding_pending : (writeLanding cpu addr w v l s).pending = s.pending := by
  cases l <;> simp [writeLanding]

@[simp] theorem writeLanding_compat : (writeLanding cpu addr w v l s).compat = s.compat := by
  cases l <;> simp [writeLanding]

@[simp] theorem writeLanding_fifoHalfEmpty : (writeLanding cpu addr w v l s).fifoHalfEmpty = s.fifoHalfEmpty := by
  cases l <;> simp [writeLanding]

@[simp] theorem writeLanding_cfg : (writeLanding cpu addr w v l s).cfg = s.cfg := by
  cases l <;> simp [writeLanding]

@[simp] theorem writeLanding_inbox : (writeLanding cpu addr w v l s).inbox = s.inbox := by
  cases l <;> simp [writeLanding]

@[simp] theorem writeLanding_trace : (writeLanding cpu addr w v l s).trace = s.trace := by
  cases l <;> simp [writeLanding]

@[simp] theorem writeLanding_freeCount : (writeLanding cpu addr w v l s).freeCount = s.freeCount := by
  cases l <;> simp [writeLanding]

@[simp] theorem writeLanding_chan (d : Cpu) (h : Chan) : (writeLanding cpu addr w v l s).chan d h = s.chan d h := by
  simp [State.chan]

@[simp] theorem writeLanding_tasks (d : Cpu) (h : Chan) : (writeLanding cpu addr w v l s).tasks d h = s.tasks d h := by
  simp [State.tasks]

/-- A unit write changes the ArithmeticUnit only by one register write (R202). -/
theorem writeLanding_au :
    (writeLanding cpu addr w v l s).au = s.au ∨ ∃ r a, (writeLanding cpu addr w v l s).au = writeAuReg r a s.au := by
  cases l with
  | register r ea => exact .inr ⟨r, _, rfl⟩
  | memory ea => exact .inl (by simp [writeLanding])
  | port => exact .inl rfl
  | unknown => exact .inl (by simp [writeLanding])

theorem writeLanding_memoryWf (hs : MemoryWf s) : MemoryWf (writeLanding cpu addr w v l s) := by
  cases l with
  | register r ea => exact hs
  | memory ea => exact storeBytes_memoryWf hs cpu ea v w.bytes
  | port => exact hs
  | unknown => exact forgetBytes_memoryWf hs cpu _ _

end WriteLanding

/-- A unit write leaves every byte that is not one of `storedAt`, in every view, and every byte of another memory. -/
theorem writeLanding_byteAt {cpu : Cpu} {addr : Word} {w : Width} {l : Landing} {s : State}
    (hl : landing s.cfg cpu addr w = .ok l) (v : Word) (d : Cpu) (x : Word)
    (h : homeOf s.cfg d x = homeOf s.cfg cpu x → x ∉ storedAt s.cfg cpu addr w) : (writeLanding cpu addr w v l s).byteAt d x = s.byteAt d x := by
  cases l with
  | register r ea => rfl
  | memory ea =>
    refine storeBytes_byteAt_ne s cpu d ea v x w.bytes fun hd j hj hx => h hd ?_
    simp only [storedAt, hl, List.mem_map, List.mem_range]
    exact ⟨j, hj, hx.symm⟩
  | port => rfl
  | unknown =>
    refine forgetBytes_byteAt_ne s cpu d _ x _ fun hd j hj hx => h hd ?_
    simp only [storedAt, hl, List.mem_map, List.mem_range]
    exact ⟨j, hj, hx.symm⟩

theorem lands_iff {c : Config} {cpu : Cpu} {a : Word} {w : Width} :
    lands c cpu a w = true ↔ ∃ l, landing c cpu a w = .ok l := by
  unfold lands
  cases landing c cpu a w <;> simp

/-! One unit. -/

/-- The state after one unit copy whose read lands at `l1` and whose write lands at `l2`. -/
def afterUnit (cpu : Cpu) (ch : Chan) (p : Plan) (l1 l2 : Landing) (s : State) : State :=
  let src := (s.chan cpu ch).currentSrc
  let dst := (s.chan cpu ch).currentDst
  let v := readLanding cpu p.unit l1 s
  advance cpu ch p
    ((writeLanding cpu dst p.unit v l2 ((s.emit (.memRead cpu src p.unit v)).draw p.unit.bytes)).emit
      (.memWrite cpu dst p.unit v))

/-- A unit copy goes on exactly if both accesses land, and then this is the state after it. -/
theorem copyUnit_next {cpu : Cpu} {ch : Chan} {p : Plan} {s t : State} :
    copyUnit cpu ch p s = .next t ↔
      ∃ l1 l2, landing s.cfg cpu (s.chan cpu ch).currentSrc p.unit = .ok l1
        ∧ landing s.cfg cpu (s.chan cpu ch).currentDst p.unit = .ok l2
        ∧ t = afterUnit cpu ch p l1 l2 s := by
  simp only [copyUnit, memRead]
  cases h1 : landing s.cfg cpu (s.chan cpu ch).currentSrc p.unit with
  | error e => simp [andThen]
  | ok l1 =>
    simp only [andThen, memWrite, draw_cfg, emit_cfg, draw_chan, emit_chan]
    cases h2 : landing s.cfg cpu (s.chan cpu ch).currentDst p.unit with
    | error e => simp
    | ok l2 => simp [afterUnit, eq_comm]

section AfterUnit
variable (cpu : Cpu) (ch : Chan) (p : Plan) (l1 l2 : Landing) (s : State)

@[simp] theorem afterUnit_pending : (afterUnit cpu ch p l1 l2 s).pending = s.pending := by
  simp [afterUnit, advance]

@[simp] theorem afterUnit_compat : (afterUnit cpu ch p l1 l2 s).compat = s.compat := by
  simp [afterUnit, advance]

@[simp] theorem afterUnit_fifoHalfEmpty : (afterUnit cpu ch p l1 l2 s).fifoHalfEmpty = s.fifoHalfEmpty := by
  simp [afterUnit, advance]

@[simp] theorem afterUnit_cfg : (afterUnit cpu ch p l1 l2 s).cfg = s.cfg := by
  simp [afterUnit, advance]

@[simp] theorem afterUnit_inbox : (afterUnit cpu ch p l1 l2 s).inbox = s.inbox := by
  simp [afterUnit, advance]

@[simp] theorem afterUnit_tasks (d : Cpu) (h : Chan) : (afterUnit cpu ch p l1 l2 s).tasks d h = s.tasks d h := by
  simp [State.tasks]

@[simp] theorem afterUnit_freeCount : (afterUnit cpu ch p l1 l2 s).freeCount = s.freeCount + p.unit.bytes := by
  simp [afterUnit, advance]

@[simp] theorem afterUnit_chan (d : Cpu) (h : Chan) :
    (afterUnit cpu ch p l1 l2 s).chan d h =
      if d = cpu ∧ h = ch then
        { s.chan cpu ch with
          currentSrc := (s.chan cpu ch).currentSrc + p.srcStep
          currentDst := (s.chan cpu ch).currentDst + p.dstStep }
      else s.chan d h := by
  simp [afterUnit, advance]

@[simp] theorem afterUnit_trace :
    (afterUnit cpu ch p l1 l2 s).trace =
      .memWrite cpu (s.chan cpu ch).currentDst p.unit (readLanding cpu p.unit l1 s)
        :: .memRead cpu (s.chan cpu ch).currentSrc p.unit (readLanding cpu p.unit l1 s) :: s.trace := by
  simp [afterUnit, advance]

theorem afterUnit_au :
    (afterUnit cpu ch p l1 l2 s).au = s.au ∨ ∃ r a, (afterUnit cpu ch p l1 l2 s).au = writeAuReg r a s.au := by
  simp only [afterUnit, advance, setChan_au, emit_au]
  exact writeLanding_au cpu _ _ _ l2 _

theorem afterUnit_memoryWf (hs : MemoryWf s) : MemoryWf (afterUnit cpu ch p l1 l2 s) :=
  writeLanding_memoryWf cpu _ _ _ l2 _ hs

end AfterUnit

theorem afterUnit_byteAt {cpu : Cpu} {ch : Chan} {p : Plan} (l1 : Landing) {l2 : Landing} {s : State}
    (hl : landing s.cfg cpu (s.chan cpu ch).currentDst p.unit = .ok l2) (d : Cpu) (x : Word)
    (h : homeOf s.cfg d x = homeOf s.cfg cpu x → x ∉ storedAt s.cfg cpu (s.chan cpu ch).currentDst p.unit) :
    (afterUnit cpu ch p l1 l2 s).byteAt d x = s.byteAt d x := by
  simp only [afterUnit, advance, setChan_byteAt, emit_byteAt]
  rw [writeLanding_byteAt (by simpa using hl) _ _ _ (by simpa using h)]
  simp

/-! The burst. -/

/-- What every unit copy keeps, a burst keeps. -/
theorem copyUnits_induct {cpu : Cpu} {ch : Chan} {p : Plan} (Q : State → Prop)
    (hQ : ∀ s l1 l2, Q s → Q (afterUnit cpu ch p l1 l2 s)) {n : Nat} {s t : State}
    (h : copyUnits cpu ch p n s = .next t) (hs : Q s) : Q t := by
  induction n generalizing s with
  | zero => simp only [copyUnits, Host.Outcome.next.injEq] at h; exact h ▸ hs
  | succ n ih =>
    simp only [copyUnits, andThen_next] at h
    obtain ⟨u, hu, ht⟩ := h
    obtain ⟨l1, l2, -, -, rfl⟩ := copyUnit_next.mp hu
    exact ih ht (hQ s l1 l2 hs)

/-- The address `n` units on. -/
theorem step_address (a d : Word) (n : Nat) : a + d + BitVec.ofNat 32 n * d = a + BitVec.ofNat 32 (n + 1) * d := by
  rw [BitVec.ofNat_add, add_mul, add_assoc, add_comm d]
  congr 2
  exact (one_mul d).symm

/-- The channel after `n` units: both working addresses moved, nothing else (R199). -/
def movedChannel (c : Channel) (p : Plan) (n : Nat) : Channel :=
  { c with
    currentSrc := c.currentSrc + BitVec.ofNat 32 n * p.srcStep
    currentDst := c.currentDst + BitVec.ofNat 32 n * p.dstStep }

/-- What a burst leaves, apart from the ArithmeticUnit and memory. -/
theorem copyUnits_frame {cpu : Cpu} {ch : Chan} {p : Plan} {n : Nat} {s t : State}
    (h : copyUnits cpu ch p n s = .next t) :
    SameSetting s t ∧ t.pending = s.pending
    ∧ t.freeCount = s.freeCount + n * p.unit.bytes
    ∧ (∀ d k, t.chan d k = if d = cpu ∧ k = ch then movedChannel (s.chan cpu ch) p n else s.chan d k)
    ∧ irqs t.trace = irqs s.trace := by
  induction n generalizing s with
  | zero =>
    simp only [copyUnits, Host.Outcome.next.injEq] at h
    subst h
    refine ⟨⟨rfl, rfl, rfl, rfl⟩, rfl, by simp, fun d k => ?_, rfl⟩
    split
    · rename_i hd; simp [movedChannel, hd.1, hd.2]
    · rfl
  | succ n ih =>
    simp only [copyUnits, andThen_next] at h
    obtain ⟨u, hu, ht⟩ := h
    obtain ⟨l1, l2, -, -, rfl⟩ := copyUnit_next.mp hu
    obtain ⟨⟨i1, i2, i3, i4⟩, i5, i6, i7, i8⟩ := ih ht
    refine ⟨⟨by simpa using i1, by simpa using i2, by simpa using i3, by simpa using i4⟩, by simpa using i5, ?_, ?_, ?_⟩
    · rw [i6, afterUnit_freeCount]; ring
    · intro d k
      rw [i7]
      split
      · simp [movedChannel, step_address]
      · rename_i hd; simp [hd]
    · rw [i8, afterUnit_trace]; rfl

theorem unitTransfers_succ (cpu : Cpu) (w : Width) (src dst value : Nat → Word) (n : Nat) :
    unitTransfers cpu w src dst value (n + 1) =
      [.memRead cpu (src 0) w (value 0), .memWrite cpu (dst 0) w (value 0)]
        ++ unitTransfers cpu w (fun i => src (i + 1)) (fun i => dst (i + 1)) (fun i => value (i + 1)) n := by
  simp [unitTransfers, List.range_succ_eq_map, List.flatMap_map]

/-- The accesses of a burst, in order: every unit is written with the value it was read with (R61, R67 b, R188). -/
theorem copyUnits_transfers {cpu : Cpu} {ch : Chan} {p : Plan} {n : Nat} {s t : State}
    (h : copyUnits cpu ch p n s = .next t) :
    ∃ value, transfers t.trace =
      (unitTransfers cpu p.unit (fun i => (s.chan cpu ch).currentSrc + BitVec.ofNat 32 i * p.srcStep)
        (fun i => (s.chan cpu ch).currentDst + BitVec.ofNat 32 i * p.dstStep) value n).reverse ++ transfers s.trace := by
  induction n generalizing s with
  | zero =>
    simp only [copyUnits, Host.Outcome.next.injEq] at h
    subst h
    exact ⟨fun _ => 0, by simp [unitTransfers]⟩
  | succ n ih =>
    simp only [copyUnits, andThen_next] at h
    obtain ⟨u, hu, ht⟩ := h
    obtain ⟨l1, l2, -, -, rfl⟩ := copyUnit_next.mp hu
    obtain ⟨value, hv⟩ := ih ht
    refine ⟨fun i => i.casesOn (readLanding cpu p.unit l1 s) value, ?_⟩
    rw [hv, unitTransfers_succ]
    simp [transfers, step_address]

/-- A burst goes on exactly if every unit lands. -/
theorem copyUnits_completes {cpu : Cpu} {ch : Chan} {p : Plan} {n : Nat} {s : State} :
    (∃ t, copyUnits cpu ch p n s = .next t) ↔
      ∀ i, i < n →
        lands s.cfg cpu ((s.chan cpu ch).currentSrc + BitVec.ofNat 32 i * p.srcStep) p.unit = true
        ∧ lands s.cfg cpu ((s.chan cpu ch).currentDst + BitVec.ofNat 32 i * p.dstStep) p.unit = true := by
  induction n generalizing s with
  | zero => simp [copyUnits]
  | succ n ih =>
    simp only [copyUnits, andThen_next]
    constructor
    · rintro ⟨t, u, hu, ht⟩ i hi
      obtain ⟨l1, l2, h1, h2, rfl⟩ := copyUnit_next.mp hu
      cases i with
      | zero => exact ⟨lands_iff.mpr ⟨l1, by simpa using h1⟩, lands_iff.mpr ⟨l2, by simpa using h2⟩⟩
      | succ i =>
        have := ih.mp ⟨t, ht⟩ i (by omega)
        simpa [step_address] using this
    · intro h
      have h0 := h 0 (by omega)
      simp only [show BitVec.ofNat 32 0 = 0 from rfl, zero_mul, add_zero] at h0
      obtain ⟨l1, h1⟩ := lands_iff.mp h0.1
      obtain ⟨l2, h2⟩ := lands_iff.mp h0.2
      obtain ⟨t, ht⟩ := (ih (s := afterUnit cpu ch p l1 l2 s)).mpr (by
        intro i hi
        have := h (i + 1) (by omega)
        simpa [step_address] using this)
      exact ⟨t, _, copyUnit_next.mpr ⟨l1, l2, h1, h2, rfl⟩, ht⟩

/-- A burst leaves every byte that no unit write may change. -/
theorem copyUnits_byteAt {cpu : Cpu} {ch : Chan} {p : Plan} {n : Nat} {s t : State}
    (h : copyUnits cpu ch p n s = .next t) (d : Cpu) (x : Word)
    (hx : homeOf s.cfg d x = homeOf s.cfg cpu x → ∀ i, i < n →
      x ∉ storedAt s.cfg cpu ((s.chan cpu ch).currentDst + BitVec.ofNat 32 i * p.dstStep) p.unit) :
    t.byteAt d x = s.byteAt d x := by
  induction n generalizing s with
  | zero => simp only [copyUnits, Host.Outcome.next.injEq] at h; rw [h]
  | succ n ih =>
    simp only [copyUnits, andThen_next] at h
    obtain ⟨u, hu, ht⟩ := h
    obtain ⟨l1, l2, h1, h2, rfl⟩ := copyUnit_next.mp hu
    rw [ih ht fun hd i hi => ?_, afterUnit_byteAt l1 h2 d x fun hd => ?_]
    · simpa using hx hd 0 (by omega)
    · simpa [step_address] using hx (by simpa using hd) (i + 1) (by omega)

/-! The bookkeeping. -/

section Bookkeeping
variable (cpu : Cpu) (ch : Chan) (ctl : Word) (moved : BitVec 21) (s : State)

@[simp] theorem finishIrq_au : (finishIrq cpu ch s).au = s.au := by
  unfold finishIrq sendIrq; split <;> rfl

@[simp] theorem finishIrq_mem : (finishIrq cpu ch s).mem = s.mem := by
  unfold finishIrq sendIrq; split <;> rfl

@[simp] theorem finishIrq_compat : (finishIrq cpu ch s).compat = s.compat := by
  unfold finishIrq sendIrq; split <;> rfl

@[simp] theorem finishIrq_fifoHalfEmpty : (finishIrq cpu ch s).fifoHalfEmpty = s.fifoHalfEmpty := by
  unfold finishIrq sendIrq; split <;> rfl

@[simp] theorem finishIrq_cfg : (finishIrq cpu ch s).cfg = s.cfg := by
  unfold finishIrq sendIrq; split <;> rfl

@[simp] theorem finishIrq_inbox : (finishIrq cpu ch s).inbox = s.inbox := by
  unfold finishIrq sendIrq; split <;> rfl

@[simp] theorem finishIrq_freeCount : (finishIrq cpu ch s).freeCount = s.freeCount := by
  unfold finishIrq sendIrq; split <;> rfl

@[simp] theorem finishIrq_chan (d : Cpu) (h : Chan) : (finishIrq cpu ch s).chan d h = s.chan d h := by
  unfold finishIrq sendIrq; split <;> rfl

@[simp] theorem finishIrq_tasks (d : Cpu) (h : Chan) : (finishIrq cpu ch s).tasks d h = s.tasks d h := by
  unfold finishIrq sendIrq; split <;> rfl

@[simp] theorem repeatReload_au : (repeatReload cpu ch ctl s).au = s.au := by
  unfold repeatReload; simp only; split <;> rfl

@[simp] theorem disable_au : (disable cpu ch s).au = s.au := rfl

@[simp] theorem repeatOrDisable_au : (repeatOrDisable cpu ch ctl s).au = s.au := by
  unfold repeatOrDisable; split <;> simp

@[simp] theorem bookkeeping_au : (bookkeeping cpu ch ctl moved s).au = s.au := by
  unfold bookkeeping; simp only; split_ifs <;> simp

@[simp] theorem repeatReload_mem : (repeatReload cpu ch ctl s).mem = s.mem := by
  unfold repeatReload; simp only; split <;> rfl

@[simp] theorem disable_mem : (disable cpu ch s).mem = s.mem := rfl

@[simp] theorem repeatOrDisable_mem : (repeatOrDisable cpu ch ctl s).mem = s.mem := by
  unfold repeatOrDisable; split <;> simp

@[simp] theorem bookkeeping_mem : (bookkeeping cpu ch ctl moved s).mem = s.mem := by
  unfold bookkeeping; simp only; split_ifs <;> simp

@[simp] theorem repeatReload_compat : (repeatReload cpu ch ctl s).compat = s.compat := by
  unfold repeatReload; simp only; split <;> rfl

@[simp] theorem disable_compat : (disable cpu ch s).compat = s.compat := rfl

@[simp] theorem repeatOrDisable_compat : (repeatOrDisable cpu ch ctl s).compat = s.compat := by
  unfold repeatOrDisable; split <;> simp

@[simp] theorem bookkeeping_compat : (bookkeeping cpu ch ctl moved s).compat = s.compat := by
  unfold bookkeeping; simp only; split_ifs <;> simp

@[simp] theorem repeatReload_fifoHalfEmpty : (repeatReload cpu ch ctl s).fifoHalfEmpty = s.fifoHalfEmpty := by
  unfold repeatReload; simp only; split <;> rfl

@[simp] theorem disable_fifoHalfEmpty : (disable cpu ch s).fifoHalfEmpty = s.fifoHalfEmpty := rfl

@[simp] theorem repeatOrDisable_fifoHalfEmpty : (repeatOrDisable cpu ch ctl s).fifoHalfEmpty = s.fifoHalfEmpty := by
  unfold repeatOrDisable; split <;> simp

@[simp] theorem bookkeeping_fifoHalfEmpty : (bookkeeping cpu ch ctl moved s).fifoHalfEmpty = s.fifoHalfEmpty := by
  unfold bookkeeping; simp only; split_ifs <;> simp

@[simp] theorem repeatReload_cfg : (repeatReload cpu ch ctl s).cfg = s.cfg := by
  unfold repeatReload; simp only; split <;> rfl

@[simp] theorem disable_cfg : (disable cpu ch s).cfg = s.cfg := rfl

@[simp] theorem repeatOrDisable_cfg : (repeatOrDisable cpu ch ctl s).cfg = s.cfg := by
  unfold repeatOrDisable; split <;> simp

@[simp] theorem bookkeeping_cfg : (bookkeeping cpu ch ctl moved s).cfg = s.cfg := by
  unfold bookkeeping; simp only; split_ifs <;> simp

@[simp] theorem repeatReload_inbox : (repeatReload cpu ch ctl s).inbox = s.inbox := by
  unfold repeatReload; simp only; split <;> rfl

@[simp] theorem disable_inbox : (disable cpu ch s).inbox = s.inbox := rfl

@[simp] theorem repeatOrDisable_inbox : (repeatOrDisable cpu ch ctl s).inbox = s.inbox := by
  unfold repeatOrDisable; split <;> simp

@[simp] theorem bookkeeping_inbox : (bookkeeping cpu ch ctl moved s).inbox = s.inbox := by
  unfold bookkeeping; simp only; split_ifs <;> simp

@[simp] theorem repeatReload_freeCount : (repeatReload cpu ch ctl s).freeCount = s.freeCount := by
  unfold repeatReload; simp only; split <;> rfl

@[simp] theorem disable_freeCount : (disable cpu ch s).freeCount = s.freeCount := rfl

@[simp] theorem repeatOrDisable_freeCount : (repeatOrDisable cpu ch ctl s).freeCount = s.freeCount := by
  unfold repeatOrDisable; split <;> simp

@[simp] theorem bookkeeping_freeCount : (bookkeeping cpu ch ctl moved s).freeCount = s.freeCount := by
  unfold bookkeeping; simp only; split_ifs <;> simp

@[simp] theorem repeatReload_chan (d : Cpu) (h : Chan) :
    (repeatReload cpu ch ctl s).chan d h =
      if d = cpu ∧ h = ch then
        { s.chan cpu ch with
          remainingWords := ctlCount ctl
          currentDst := if ctlDstMode ctl == 3#2 then (s.chan cpu ch).destAddr else (s.chan cpu ch).currentDst }
      else s.chan d h := by
  unfold repeatReload
  simp only
  split <;> simp

@[simp] theorem disable_chan (d : Cpu) (h : Chan) :
    (disable cpu ch s).chan d h =
      if d = cpu ∧ h = ch then { s.chan cpu ch with control := clearEnable (s.chan cpu ch).control } else s.chan d h := by
  simp [disable]

@[simp] theorem disable_tasks (d : Cpu) (h : Chan) : (disable cpu ch s).tasks d h = s.tasks d h := by
  simp [disable]

@[simp] theorem repeatReload_tasks (d : Cpu) (h : Chan) :
    (repeatReload cpu ch ctl s).tasks d h =
      if d = cpu ∧ h = ch ∧ ctlTrigMode ctl = s.cfg.modeGxfifo ∧ s.fifoHalfEmpty = true then s.tasks cpu ch + 1
      else s.tasks d h := by
  unfold repeatReload
  by_cases h3 : ctlTrigMode ctl = s.cfg.modeGxfifo <;> cases h4 : s.fifoHalfEmpty <;> simp [h3]

end Bookkeeping

/-- What the bookkeeping may do to a channel: its own working address, count and `enable` bit, and to no other channel
anything (R199). -/
theorem bookkeeping_chan (cpu : Cpu) (ch : Chan) (ctl : Word) (moved : BitVec 21) (s : State) (d : Cpu) (h : Chan) :
    (d = cpu ∧ h = ch →
      ((bookkeeping cpu ch ctl moved s).chan d h).sourceAddr = (s.chan d h).sourceAddr
      ∧ ((bookkeeping cpu ch ctl moved s).chan d h).destAddr = (s.chan d h).destAddr
      ∧ ((bookkeeping cpu ch ctl moved s).chan d h).currentSrc = (s.chan d h).currentSrc
      ∧ (((bookkeeping cpu ch ctl moved s).chan d h).control = (s.chan d h).control
        ∨ ((bookkeeping cpu ch ctl moved s).chan d h).control = clearEnable (s.chan d h).control))
    ∧ (¬(d = cpu ∧ h = ch) → (bookkeeping cpu ch ctl moved s).chan d h = s.chan d h) := by
  constructor
  · rintro ⟨rfl, rfl⟩
    unfold bookkeeping repeatOrDisable
    simp only
    split_ifs <;> simp
  · intro hd
    unfold bookkeeping repeatOrDisable
    simp only
    split_ifs <;> simp [hd]

/-! DISPATCH. -/

@[simp] theorem planOf_takeTask (s : State) (cpu d : Cpu) (ch h : Chan) :
    planOf (takeTask cpu ch s) d h = planOf s d h := rfl

/-- What a DISPATCH that goes on has done (R183). -/
theorem execDispatch_next {cpu : Cpu} {ch : Chan} {s t : State} :
    execDispatch cpu ch s = .next t ↔
      s.tasks cpu ch ≠ 0 ∧ ∃ u, copyUnits cpu ch (planOf s cpu ch) (planOf s cpu ch).copies (takeTask cpu ch s) = .next u
        ∧ t = bookkeeping cpu ch (s.chan cpu ch).control (planOf s cpu ch).moved u := by
  unfold execDispatch
  split
  · simp [*]
  · simp only [runTask, andThen_next, planOf_takeTask, ne_eq, *, not_false_eq_true, true_and, Host.Outcome.next.injEq]
    exact exists_congr fun u => and_congr_right fun _ => eq_comm

/-! Operations. -/

/-- What each operation is, by its format: every write and read, and the three events. -/
theorem exec_of_form (i : Instr) (s : State) :
    match i.form with
    | .write (.au r) _ a => exec i s = .next (s.withAu (writeAuReg r a s.au))
    | .write (.sad ch) cpu a => exec i s = .next (writeSad cpu ch a s)
    | .write (.dad ch) cpu a => exec i s = .next (writeDad cpu ch a s)
    | .write (.cnt ch) cpu a => exec i s = .next (writeCnt cpu ch a s)
    | .read (.au r) cpu a => exec i s = .next (respond cpu a (readAuReg r s.au) s)
    | .read (.sad ch) cpu a => exec i s = .next (respond cpu a (readSad cpu ch s) s)
    | .read (.dad ch) cpu a => exec i s = .next (respond cpu a (readDad cpu ch s) s)
    | .read (.cnt ch) cpu a => exec i s = .next (respond cpu a (readCnt cpu ch s) s)
    | .trigger cpu mode m => exec i s = .next (Chan.all.foldl (triggerChan cpu mode m) s)
    | .dispatch cpu ch => exec i s = execDispatch cpu ch s
    | .reset => exec i s = execReset s := by
  cases i <;> rfl

/-- Every state after an operation is one of these. -/
theorem exec_cases {i : Instr} {s t : State} (h : exec i s = .next t) :
    (∃ r a, t = s.withAu (writeAuReg r a s.au))
    ∨ (∃ cpu ch a, t = writeSad cpu ch a s)
    ∨ (∃ cpu ch a, t = writeDad cpu ch a s)
    ∨ (∃ cpu ch a, t = writeCnt cpu ch a s)
    ∨ (∃ cpu a v, t = respond cpu a v s)
    ∨ (∃ cpu mode m, t = Chan.all.foldl (triggerChan cpu mode m) s)
    ∨ (∃ cpu ch, execDispatch cpu ch s = .next t)
    ∨ (i = .reset ∧ execReset s = .next t) := by
  have hf := exec_of_form i s
  cases hi : i.form with
  | write id cpu a =>
    rw [hi] at hf
    cases id with
    | au r => rw [hf] at h; exact .inl ⟨r, a, by simpa using h.symm⟩
    | sad ch => rw [hf] at h; exact .inr (.inl ⟨cpu, ch, a, by simpa using h.symm⟩)
    | dad ch => rw [hf] at h; exact .inr (.inr (.inl ⟨cpu, ch, a, by simpa using h.symm⟩))
    | cnt ch => rw [hf] at h; exact .inr (.inr (.inr (.inl ⟨cpu, ch, a, by simpa using h.symm⟩)))
  | read id cpu a =>
    rw [hi] at hf
    refine .inr (.inr (.inr (.inr (.inl ⟨cpu, a, ?_⟩))))
    cases id <;> (rw [hf] at h; exact ⟨_, by simpa using h.symm⟩)
  | trigger cpu mode m =>
    rw [hi] at hf
    rw [hf] at h
    exact .inr (.inr (.inr (.inr (.inr (.inl ⟨cpu, mode, m, by simpa using h.symm⟩)))))
  | dispatch cpu ch =>
    rw [hi] at hf
    exact .inr (.inr (.inr (.inr (.inr (.inr (.inl ⟨cpu, ch, hf.symm.trans h⟩))))))
  | reset =>
    rw [hi] at hf
    refine .inr (.inr (.inr (.inr (.inr (.inr (.inr ⟨?_, hf.symm.trans h⟩))))))
    cases i <;> simp_all [Instr.form]

/-! Configuration writes and TRIGGER. -/

/-- The two ways a control write may schedule (R153 parts 1 and 3). -/
def cntSchedules (c : Config) (fifo : Bool) (old new : Word) : Nat :=
  (if ctlEnable new = true ∧ ctlTrigMode new = c.modeGxfifo ∧ fifo = true then 1 else 0)
  + (if ctlEnable old = false ∧ ctlEnable new = true ∧ ctlTrigMode new = 0#3 then 1 else 0)

@[simp] theorem writeCnt_au (cpu : Cpu) (ch : Chan) (a : WAccess) (s : State) : (writeCnt cpu ch a s).au = s.au := by
  unfold writeCnt; simp only; split_ifs <;> simp

@[simp] theorem triggerChan_au (cpu : Cpu) (mode : Word) (m : BitVec 4) (s : State) (ch : Chan) :
    (triggerChan cpu mode m s ch).au = s.au := by
  unfold triggerChan; split <;> simp

@[simp] theorem writeCnt_mem (cpu : Cpu) (ch : Chan) (a : WAccess) (s : State) : (writeCnt cpu ch a s).mem = s.mem := by
  unfold writeCnt; simp only; split_ifs <;> simp

@[simp] theorem triggerChan_mem (cpu : Cpu) (mode : Word) (m : BitVec 4) (s : State) (ch : Chan) :
    (triggerChan cpu mode m s ch).mem = s.mem := by
  unfold triggerChan; split <;> simp

@[simp] theorem writeCnt_compat (cpu : Cpu) (ch : Chan) (a : WAccess) (s : State) : (writeCnt cpu ch a s).compat = s.compat := by
  unfold writeCnt; simp only; split_ifs <;> simp

@[simp] theorem triggerChan_compat (cpu : Cpu) (mode : Word) (m : BitVec 4) (s : State) (ch : Chan) :
    (triggerChan cpu mode m s ch).compat = s.compat := by
  unfold triggerChan; split <;> simp

@[simp] theorem writeCnt_fifoHalfEmpty (cpu : Cpu) (ch : Chan) (a : WAccess) (s : State) : (writeCnt cpu ch a s).fifoHalfEmpty = s.fifoHalfEmpty := by
  unfold writeCnt; simp only; split_ifs <;> simp

@[simp] theorem triggerChan_fifoHalfEmpty (cpu : Cpu) (mode : Word) (m : BitVec 4) (s : State) (ch : Chan) :
    (triggerChan cpu mode m s ch).fifoHalfEmpty = s.fifoHalfEmpty := by
  unfold triggerChan; split <;> simp

@[simp] theorem writeCnt_cfg (cpu : Cpu) (ch : Chan) (a : WAccess) (s : State) : (writeCnt cpu ch a s).cfg = s.cfg := by
  unfold writeCnt; simp only; split_ifs <;> simp

@[simp] theorem triggerChan_cfg (cpu : Cpu) (mode : Word) (m : BitVec 4) (s : State) (ch : Chan) :
    (triggerChan cpu mode m s ch).cfg = s.cfg := by
  unfold triggerChan; split <;> simp

@[simp] theorem writeCnt_inbox (cpu : Cpu) (ch : Chan) (a : WAccess) (s : State) : (writeCnt cpu ch a s).inbox = s.inbox := by
  unfold writeCnt; simp only; split_ifs <;> simp

@[simp] theorem triggerChan_inbox (cpu : Cpu) (mode : Word) (m : BitVec 4) (s : State) (ch : Chan) :
    (triggerChan cpu mode m s ch).inbox = s.inbox := by
  unfold triggerChan; split <;> simp

@[simp] theorem writeCnt_freeCount (cpu : Cpu) (ch : Chan) (a : WAccess) (s : State) : (writeCnt cpu ch a s).freeCount = s.freeCount := by
  unfold writeCnt; simp only; split_ifs <;> simp

@[simp] theorem triggerChan_freeCount (cpu : Cpu) (mode : Word) (m : BitVec 4) (s : State) (ch : Chan) :
    (triggerChan cpu mode m s ch).freeCount = s.freeCount := by
  unfold triggerChan; split <;> simp

@[simp] theorem triggerChan_chan (cpu : Cpu) (mode : Word) (m : BitVec 4) (s : State) (ch : Chan) (d : Cpu) (h : Chan) :
    (triggerChan cpu mode m s ch).chan d h = s.chan d h := by
  unfold triggerChan; split <;> simp

@[simp] theorem triggerChan_dma (cpu : Cpu) (mode : Word) (m : BitVec 4) (s : State) (ch : Chan) :
    (triggerChan cpu mode m s ch).dma = s.dma := by
  unfold triggerChan; split <;> simp

theorem triggerChan_tasks (cpu : Cpu) (mode : Word) (m : BitVec 4) (s : State) (ch : Chan) (d : Cpu) (h : Chan) :
    (triggerChan cpu mode m s ch).tasks d h =
      s.tasks d h + if d = cpu ∧ h = ch ∧ triggers cpu mode m ch (s.chan cpu ch).control = true then 1 else 0 := by
  unfold triggerChan
  split <;> rename_i hc
  · by_cases hd : d = cpu ∧ h = ch
    · simp [hd, hc]
    · simp only [schedule_tasks, hd, if_false]
      rw [if_neg (fun hh => hd ⟨hh.1, hh.2.1⟩)]; rfl
  · simp [hc]

/-- The channel after a control write (R153). -/
theorem writeCnt_chan (cpu : Cpu) (ch : Chan) (a : WAccess) (s : State) (d : Cpu) (h : Chan) :
    (writeCnt cpu ch a s).chan d h =
      if d = cpu ∧ h = ch then
        (let c := s.chan cpu ch
         let new := mergedControl s.cfg cpu ch a c.control
         if ctlEnable c.control = false ∧ ctlEnable new = true then reloadShadow { c with control := new }
         else { c with control := new })
      else s.chan d h := by
  unfold writeCnt
  simp only
  cases he : ctlEnable (s.chan cpu ch).control <;>
    cases hn : ctlEnable (mergedControl s.cfg cpu ch a (s.chan cpu ch).control) <;>
    simp only [Bool.not_true, Bool.not_false, Bool.or_true, Bool.or_false, Bool.false_eq_true, if_true, if_false,
      and_true, and_false, Bool.true_eq_false, Bool.or_self] <;>
    split_ifs <;> simp_all

theorem writeCnt_tasks (cpu : Cpu) (ch : Chan) (a : WAccess) (s : State) (d : Cpu) (h : Chan) :
    (writeCnt cpu ch a s).tasks d h =
      s.tasks d h + if d = cpu ∧ h = ch then
        cntSchedules s.cfg s.fifoHalfEmpty (s.chan cpu ch).control
          (mergedControl s.cfg cpu ch a (s.chan cpu ch).control)
      else 0 := by
  by_cases hd : d = cpu ∧ h = ch
  · obtain ⟨rfl, rfl⟩ := hd
    unfold writeCnt cntSchedules schedulesGxfifo
    simp only
    cases he : ctlEnable (s.chan d h).control <;>
      cases hn : ctlEnable (mergedControl s.cfg d h a (s.chan d h).control) <;>
      cases hf : s.fifoHalfEmpty <;>
      by_cases hg : ctlTrigMode (mergedControl s.cfg d h a (s.chan d h).control) = s.cfg.modeGxfifo <;>
      by_cases h0 : ctlTrigMode (mergedControl s.cfg d h a (s.chan d h).control) = 0#3 <;>
      simp_all
  · unfold writeCnt
    simp only
    split_ifs <;> simp [hd]

/-! Steps. -/

section Take
variable (s : State) (x : Stimulus) (rest : List Stimulus)

@[simp] theorem foldl_poke_au (l : List Poke) : (l.foldl State.poke s).au = s.au := by
  induction l generalizing s with
  | nil => rfl
  | cons p l ih => rw [List.foldl_cons, ih, poke_au]

@[simp] theorem take_au : (s.take x rest).au = s.au := by
  simp [State.take, State.arrive]

@[simp] theorem foldl_poke_dma (l : List Poke) : (l.foldl State.poke s).dma = s.dma := by
  induction l generalizing s with
  | nil => rfl
  | cons p l ih => rw [List.foldl_cons, ih, poke_dma]

@[simp] theorem take_dma : (s.take x rest).dma = s.dma := by
  simp [State.take, State.arrive]

@[simp] theorem foldl_poke_pending (l : List Poke) : (l.foldl State.poke s).pending = s.pending := by
  induction l generalizing s with
  | nil => rfl
  | cons p l ih => rw [List.foldl_cons, ih, poke_pending]

@[simp] theorem take_pending : (s.take x rest).pending = s.pending := by
  simp [State.take, State.arrive]

@[simp] theorem foldl_poke_compat (l : List Poke) : (l.foldl State.poke s).compat = s.compat := by
  induction l generalizing s with
  | nil => rfl
  | cons p l ih => rw [List.foldl_cons, ih, poke_compat]

@[simp] theorem take_compat : (s.take x rest).compat = s.compat := by
  simp [State.take, State.arrive]

@[simp] theorem foldl_poke_cfg (l : List Poke) : (l.foldl State.poke s).cfg = s.cfg := by
  induction l generalizing s with
  | nil => rfl
  | cons p l ih => rw [List.foldl_cons, ih, poke_cfg]

@[simp] theorem take_cfg : (s.take x rest).cfg = s.cfg := by
  simp [State.take, State.arrive]

@[simp] theorem foldl_poke_trace (l : List Poke) : (l.foldl State.poke s).trace = s.trace := by
  induction l generalizing s with
  | nil => rfl
  | cons p l ih => rw [List.foldl_cons, ih, poke_trace]

@[simp] theorem take_trace : (s.take x rest).trace = s.trace := by
  simp [State.take, State.arrive]

@[simp] theorem foldl_poke_freeCount (l : List Poke) : (l.foldl State.poke s).freeCount = s.freeCount := by
  induction l generalizing s with
  | nil => rfl
  | cons p l ih => rw [List.foldl_cons, ih, poke_freeCount]

@[simp] theorem take_freeCount : (s.take x rest).freeCount = s.freeCount := by
  simp [State.take, State.arrive]

theorem foldl_poke_inbox (l : List Poke) : (l.foldl State.poke s).inbox = s.inbox := by
  induction l generalizing s with
  | nil => rfl
  | cons p l ih => rw [List.foldl_cons, ih, poke_inbox]

@[simp] theorem take_inbox : (s.take x rest).inbox = rest := by
  simp [State.take, State.arrive, foldl_poke_inbox]

@[simp] theorem take_fifoHalfEmpty : (s.take x rest).fifoHalfEmpty = x.fifoHalfEmpty := rfl

@[simp] theorem take_chan (d : Cpu) (h : Chan) : (s.take x rest).chan d h = s.chan d h := by
  simp [State.chan]

@[simp] theorem take_tasks (d : Cpu) (h : Chan) : (s.take x rest).tasks d h = s.tasks d h := by
  simp [State.tasks]

theorem take_memoryWf (hs : MemoryWf s) : MemoryWf (s.take x rest) := by
  have : ∀ (l : List Poke) (u : State), MemoryWf u → MemoryWf (l.foldl State.poke u) := by
    intro l
    induction l with
    | nil => exact fun u hu => hu
    | cons p l ih => exact fun u hu => ih _ (poke_memoryWf hu p)
  exact this x.outside _ hs

end Take

/-! The scheduler's own turn (R266). -/

theorem mem_waiting {s : State} {p : Cpu × Chan} : p ∈ s.waiting ↔ s.tasks p.1 p.2 ≠ 0 := by
  have h : p ∈ allPairs := by
    obtain ⟨cpu, ch⟩ := p
    cases cpu <;> cases ch <;> decide
  simp [State.waiting, h]

/-- The scheduler has nothing to dispatch exactly if no task is pending. -/
theorem nextTask_eq_none {s : State} : s.nextTask = none ↔ ∀ cpu ch, s.tasks cpu ch = 0 := by
  have hw : s.nextTask = none ↔ s.waiting = [] := by
    unfold State.nextTask
    split <;> simp [*]
  rw [hw, List.eq_nil_iff_forall_not_mem]
  simp [mem_waiting]

/-- Whatever the free value, the scheduler dispatches a pair with a task pending. -/
theorem nextTask_pending {s : State} {p : Cpu × Chan} (h : s.nextTask = some p) : s.tasks p.1 p.2 ≠ 0 := by
  rw [← mem_waiting]
  unfold State.nextTask at h
  split at h
  · cases h
  · rename_i q qs hq
    rw [hq, ← Option.some.inj h,
      List.getD_eq_getElem _ _ (by simpa using Nat.mod_lt _ (Nat.succ_pos qs.length))]
    exact List.getElem_mem _

/-- Where no other agent has a step to offer, the scheduler dispatches the task it has chosen. -/
theorem step_scheduler {s : State} {p : Cpu × Chan} (hi : s.inbox = []) (hn : s.nextTask = some p) :
    step s = exec (.dispatch p.1 p.2) s.schedulerTurn := by
  simp [step, hi, hn]

/-- A run that has ended stays as it is. -/
theorem step_final {s : State} (h : Final s) : step s = .next s := by
  simp [step, h.1, nextTask_eq_none.mpr h.2]

/-- Every step that goes on leaves a run that has ended as it is, is a dispatch by the scheduler, or takes the first stimulus and runs
the operation its request decodes to. -/
theorem step_next {s t : State} :
    step s = .next t ↔
      (Final s ∧ t = s)
      ∨ (∃ cpu ch, s.inbox = [] ∧ s.nextTask = some (cpu, ch) ∧ exec (.dispatch cpu ch) s.schedulerTurn = .next t)
      ∨ ∃ x rest i, s.inbox = x :: rest ∧ decode s.cfg x.request = .ok i ∧ exec i (s.take x rest) = .next t := by
  unfold step Final
  cases h : s.inbox with
  | nil =>
    cases hn : s.nextTask with
    | none => simp [nextTask_eq_none.mp hn, eq_comm]
    | some p =>
      have hp : ¬∀ cpu ch, s.tasks cpu ch = 0 := fun hall => nextTask_pending hn (hall _ _)
      obtain ⟨cpu, ch⟩ := p
      simp [hp, Prod.ext_iff]
  | cons x rest =>
    simp only [reduceCtorEq, false_and, exists_false, List.cons.injEq, false_or]
    cases hd : decode s.cfg x.request with
    | error e =>
      simp only [reduceCtorEq, false_iff, not_exists, not_and]
      rintro y r i ⟨rfl, rfl⟩ hy
      rw [hd] at hy
      cases hy
    | ok i =>
      constructor
      · exact fun ht => ⟨x, rest, i, ⟨rfl, rfl⟩, hd, ht⟩
      · rintro ⟨y, r, j, ⟨rfl, rfl⟩, hy, ht⟩
        rw [hd] at hy
        cases hy
        exact ht

end Sys2Proof.Machine
end

