-- ==== Sys2Proof/Tests/Slice0.lean ====
section
/-! SUPPORT. The model's own tests: the smoke test of WellFormed, decoding of words written out from the spec, single steps
with the results of spec/95_test_vectors.md, and for each statement with hypotheses a witness that meets them. -/

/- Many kernel evaluations at once would each hold a thread of their own. -/
set_option Elab.async false

namespace Sys2Proof.Tests

open Sys2Proof Sys2Proof.Machine

/-! Small states. -/

/-- The state of an outcome, for reading its fields. -/
def after (o : Host.Outcome State Fault Refusal) : State :=
  match o with
  | .next t => t
  | .fault _ => State.reset
  | .refused _ => State.reset

/-- After reset, but for the divider: mode, operands, and the results the divide operation gives. -/
def divState (mode : Half) (num den : DWord) : State :=
  State.reset.withAu (runDivide { ArithmeticUnit.reset with divControl := mode, divNumerator := num, divDenominator := den })

/-- After reset, but for the square-root unit. -/
def sqrtState (width : Half) (param : DWord) : State :=
  State.reset.withAu (runSqrt { ArithmeticUnit.reset with sqrtControl := width, sqrtParameter := param })

/-- The channel of the rows of section 2.7: a burst of `n` units from 0x02000100 to 0x02000200. -/
def burstChannel (ctl : Word) (n : BitVec 21) : Channel :=
  { sourceAddr := 0x02000100#32, destAddr := 0x02000200#32, control := ctl, currentSrc := 0x02000100#32,
    currentDst := 0x02000200#32, remainingWords := n }

/-- Eight known bytes at 0x02000100. -/
def someBytes : Memory := (List.range 8).map fun i => (0x02000100 + i, BitVec.ofNat 8 (0x11 + i))

/-- After reset, but for channel 0 of the primary CPU, `n` tasks of it, the FIFO's answer, and the bytes. -/
def chanState (c : Channel) (n : Nat) (fifo : Bool) : State :=
  { (State.reset.setChan .primary .ch0 c).setTasks .primary .ch0 n with fifoHalfEmpty := fifo, mem := ⟨someBytes, ⟨[], []⟩⟩ }

/-- A state with one request to take. -/
def asked (s : State) (r : Request) : State := { s with inbox := [⟨[], false, r⟩] }

/-! WellFormed refuses. -/

theorem test_wellFormed :
    (Instr.wDivcnt .primary (.word 0#32)).wf defaultConfig = true
    ∧ (Instr.wDivcnt .secondary (.word 0#32)).wf defaultConfig = false
    ∧ (Instr.rSqrtcnt .secondary .word).wf defaultConfig = false
    ∧ (Instr.wDma0Cnt .secondary (.word 0#32)).wf defaultConfig = true
    ∧ (Instr.wDma0Cnt .primary (.byte 0#2 0#8)).wf defaultConfig = false
    ∧ (Instr.rDma0Cnt .primary (.byte 3#2)).wf defaultConfig = false
    ∧ (Instr.rDma0Cnt .primary (.byte 3#2)).wf { defaultConfig with byteAccess := true } = true := by
  decide

/-- The default configuration meets the constraints of R5; a narrow mask that is no part of the wide one, and two registers at
one address, do not. -/
theorem test_config_wf :
    defaultConfig.wf = true
    ∧ ({ defaultConfig with addrMaskNarrow := 0x17FFFFFF#32 } : Config).wf = false
    ∧ ({ defaultConfig with modeSpecial := 7#3 } : Config).wf = false
    ∧ ({ defaultConfig with cntMaskSecondary := ⟨0xFFE03FFF#32, 0#32, 0#32, 0xF7E0FFFF#32⟩ } : Config).wf = false
    ∧ ({ defaultConfig with regMap := { defaultRegMap with sqrtcnt := 0x04000280#32 } } : Config).wf = false := by
  decide +kernel

/-! Decoding: a word for every operation, from the address table of R84 and the lanes of R82. -/

theorem test_decode_divider_writes :
    decodeWord defaultConfig 0x000000008000006404000280#96 = .ok (.wDivcnt .primary (.word 0x80000064#32))
    ∧ decodeWord defaultConfig 0x000100000000806504000290#96 = .ok (.wDivNumerL .primary (.half false 0x8065#16))
    ∧ decodeWord defaultConfig 0x000100000000806604000296#96 = .ok (.wDivNumerH .primary (.half true 0x8066#16))
    ∧ decodeWord defaultConfig 0x000000008000006704000298#96 = .ok (.wDivDenomL .primary (.word 0x80000067#32))
    ∧ decodeWord defaultConfig 0x00010000000080680400029C#96 = .ok (.wDivDenomH .primary (.half false 0x8068#16))
    ∧ decodeWord defaultConfig 0x0001000000008069040002A2#96 = .ok (.wDivResultL .primary (.half true 0x8069#16))
    ∧ decodeWord defaultConfig 0x000000008000006A040002A4#96 = .ok (.wDivResultH .primary (.word 0x8000006A#32))
    ∧ decodeWord defaultConfig 0x000100000000806B040002A8#96 = .ok (.wDivremResultL .primary (.half false 0x806B#16))
    ∧ decodeWord defaultConfig 0x000100000000806C040002AE#96 = .ok (.wDivremResultH .primary (.half true 0x806C#16)) := by
  decide +kernel

theorem test_decode_divider_reads :
    decodeWord defaultConfig 0x000000010000000004000280#96 = .ok (.rDivcnt .primary .word)
    ∧ decodeWord defaultConfig 0x000100010000000004000290#96 = .ok (.rDivNumerL .primary (.half false))
    ∧ decodeWord defaultConfig 0x000100010000000004000296#96 = .ok (.rDivNumerH .primary (.half true))
    ∧ decodeWord defaultConfig 0x000000010000000004000298#96 = .ok (.rDivDenomL .primary .word)
    ∧ decodeWord defaultConfig 0x00010001000000000400029C#96 = .ok (.rDivDenomH .primary (.half false))
    ∧ decodeWord defaultConfig 0x0001000100000000040002A2#96 = .ok (.rDivResultL .primary (.half true))
    ∧ decodeWord defaultConfig 0x0000000100000000040002A4#96 = .ok (.rDivResultH .primary .word)
    ∧ decodeWord defaultConfig 0x0001000100000000040002A8#96 = .ok (.rDivremResultL .primary (.half false))
    ∧ decodeWord defaultConfig 0x0001000100000000040002AE#96 = .ok (.rDivremResultH .primary (.half true)) := by
  decide +kernel

theorem test_decode_sqrt_writes :
    decodeWord defaultConfig 0x000000008000006D040002B0#96 = .ok (.wSqrtcnt .primary (.word 0x8000006D#32))
    ∧ decodeWord defaultConfig 0x000100000000806E040002B4#96 = .ok (.wSqrtResult .primary (.half false 0x806E#16))
    ∧ decodeWord defaultConfig 0x000100000000806F040002BA#96 = .ok (.wSqrtParamL .primary (.half true 0x806F#16))
    ∧ decodeWord defaultConfig 0x0000000080000070040002BC#96 = .ok (.wSqrtParamH .primary (.word 0x80000070#32)) := by
  decide +kernel

theorem test_decode_sqrt_reads :
    decodeWord defaultConfig 0x0000000100000000040002B0#96 = .ok (.rSqrtcnt .primary .word)
    ∧ decodeWord defaultConfig 0x0001000100000000040002B4#96 = .ok (.rSqrtResult .primary (.half false))
    ∧ decodeWord defaultConfig 0x0001000100000000040002BA#96 = .ok (.rSqrtParamL .primary (.half true))
    ∧ decodeWord defaultConfig 0x0000000100000000040002BC#96 = .ok (.rSqrtParamH .primary .word) := by
  decide +kernel

theorem test_decode_dma_writes :
    decodeWord defaultConfig 0x0001010000008071040000B0#96 = .ok (.wDma0Sad .secondary (.half false 0x8071#16))
    ∧ decodeWord defaultConfig 0x0001000000008072040000B6#96 = .ok (.wDma0Dad .primary (.half true 0x8072#16))
    ∧ decodeWord defaultConfig 0x0000010080000073040000B8#96 = .ok (.wDma0Cnt .secondary (.word 0x80000073#32))
    ∧ decodeWord defaultConfig 0x0001000000008074040000BC#96 = .ok (.wDma1Sad .primary (.half false 0x8074#16))
    ∧ decodeWord defaultConfig 0x0001010000008075040000C2#96 = .ok (.wDma1Dad .secondary (.half true 0x8075#16))
    ∧ decodeWord defaultConfig 0x0000000080000076040000C4#96 = .ok (.wDma1Cnt .primary (.word 0x80000076#32))
    ∧ decodeWord defaultConfig 0x0001010000008077040000C8#96 = .ok (.wDma2Sad .secondary (.half false 0x8077#16))
    ∧ decodeWord defaultConfig 0x0001000000008078040000CE#96 = .ok (.wDma2Dad .primary (.half true 0x8078#16))
    ∧ decodeWord defaultConfig 0x0000010080000079040000D0#96 = .ok (.wDma2Cnt .secondary (.word 0x80000079#32))
    ∧ decodeWord defaultConfig 0x000100000000807A040000D4#96 = .ok (.wDma3Sad .primary (.half false 0x807A#16))
    ∧ decodeWord defaultConfig 0x000101000000807B040000DA#96 = .ok (.wDma3Dad .secondary (.half true 0x807B#16))
    ∧ decodeWord defaultConfig 0x000000008000007C040000DC#96 = .ok (.wDma3Cnt .primary (.word 0x8000007C#32)) := by
  decide +kernel

theorem test_decode_dma_reads :
    decodeWord defaultConfig 0x0001010100000000040000B0#96 = .ok (.rDma0Sad .secondary (.half false))
    ∧ decodeWord defaultConfig 0x0001000100000000040000B6#96 = .ok (.rDma0Dad .primary (.half true))
    ∧ decodeWord defaultConfig 0x0000010100000000040000B8#96 = .ok (.rDma0Cnt .secondary .word)
    ∧ decodeWord defaultConfig 0x0001000100000000040000BC#96 = .ok (.rDma1Sad .primary (.half false))
    ∧ decodeWord defaultConfig 0x0001010100000000040000C2#96 = .ok (.rDma1Dad .secondary (.half true))
    ∧ decodeWord defaultConfig 0x0000000100000000040000C4#96 = .ok (.rDma1Cnt .primary .word)
    ∧ decodeWord defaultConfig 0x0001010100000000040000C8#96 = .ok (.rDma2Sad .secondary (.half false))
    ∧ decodeWord defaultConfig 0x0001000100000000040000CE#96 = .ok (.rDma2Dad .primary (.half true))
    ∧ decodeWord defaultConfig 0x0000010100000000040000D0#96 = .ok (.rDma2Cnt .secondary .word)
    ∧ decodeWord defaultConfig 0x0001000100000000040000D4#96 = .ok (.rDma3Sad .primary (.half false))
    ∧ decodeWord defaultConfig 0x0001010100000000040000DA#96 = .ok (.rDma3Dad .secondary (.half true))
    ∧ decodeWord defaultConfig 0x0000000100000000040000DC#96 = .ok (.rDma3Cnt .primary .word) := by
  decide +kernel

theorem test_decode_events :
    decodeWord defaultConfig 0x00000102000000060000000A#96 = .ok (.trigger .secondary 10#32 6#4)
    ∧ decodeWord defaultConfig 0x000300030000000000000000#96 = .ok (.dispatch .primary .ch3)
    ∧ decodeWord defaultConfig 0x000000040000000000000000#96 = .ok .reset
    ∧ decodeWord defaultConfig 0x000000050000000000000000#96 = .error .unknownFormat
    ∧ decodeWord defaultConfig 0x000400030000000000000000#96 = .error .unknownChannel
    ∧ decodeWord defaultConfig 0x000002030000000000000000#96 = .error .unknownCpu
    ∧ decodeWord defaultConfig 0x000300000000000004000280#96 = .error .unknownWidth := by
  decide +kernel

/-- The last rows of section 2.3: misaligned, 8-bit, another CPU's; and an address between the slots (R85). -/
theorem test_decode_rejects :
    decode defaultConfig (.regw .primary 0x04000291#32 .word 0#32) = .error .misaligned
    ∧ decode defaultConfig (.regr .primary 0x04000291#32 .half) = .error .misaligned
    ∧ decode defaultConfig (.regw .primary 0x04000290#32 .byte 0#32) = .error .byteAccess
    ∧ decode defaultConfig (.regw .secondary 0x04000280#32 .word 0#32) = .error .notThisBlock
    ∧ decode defaultConfig (.regr .primary 0x04000284#32 .word) = .error .notThisBlock := by
  decide +kernel

/-- The rows of the opcode table as the host numbers them: a slot address alone is a 32-bit write by CPU 0 (log 1). -/
theorem test_table_words :
    decodeTableWord 32 0x04000280 = some (.wDivcnt .primary (.word 0#32))
    ∧ decodeTableWord 32 0x040000DC = some (.wDma3Cnt .primary (.word 0#32))
    ∧ decodeTableWord 32 0x04000284 = none := by
  decide +kernel

/-! The divider (sections 2.1 and 2.3). -/

theorem test_divide_mode0 :
    divide 0#2 0xFFFFFFFFFFFFFF9C#64 7#64 = ⟨false, 0xFFFFFFFFFFFFFFF2#64, 0xFFFFFFFFFFFFFFFE#64⟩
    ∧ divide 0#2 0x80000000#64 0x1FFFFFFFF#64 = ⟨false, 0xFFFFFFFF80000000#64, 0#64⟩
    ∧ divide 0#2 0x7FFFFFFF#64 0xFFFFFFFF#64 = ⟨false, 0xFFFFFFFF80000001#64, 0#64⟩
    ∧ divide 0#2 0xFFFFFFFB#64 0xABCD00000000#64 = ⟨false, 1#64, 0xFFFFFFFFFFFFFFFB#64⟩
    ∧ divide 0#2 5#64 0#64 = ⟨true, 0xFFFFFFFFFFFFFFFF#64, 5#64⟩ := by
  decide +kernel

theorem test_divide_modes_1_3 :
    divide 1#2 0xFFFFFF172B5AF000#64 0xFFFFFFF9#64 = ⟨false, 0x0000002142F30249#64, 0xFFFFFFFFFFFFFFFF#64⟩
    ∧ divide 1#2 0x8000000000000000#64 0xABCDEF12FFFFFFFF#64 = ⟨false, 0x8000000000000000#64, 0#64⟩
    ∧ divide 1#2 0x3E8#64 0x80000000#64 = ⟨false, 0#64, 0x3E8#64⟩
    ∧ divide 3#2 0x123456789ABCDEF0#64 0xFFFF0010#64 = ⟨false, 0xFFFFEDCA862FC840#64, 0x5AF0#64⟩
    ∧ divide 3#2 0xFFFFFFFFFFFFFFFB#64 0#64 = ⟨true, 1#64, 0xFFFFFFFFFFFFFFFB#64⟩ := by
  decide +kernel

theorem test_divide_mode2 :
    divide 2#2 0x123456789ABCDEF0#64 0x100000000#64 = ⟨false, 0x12345678#64, 0x9ABCDEF0#64⟩
    ∧ divide 2#2 0x8000000000000000#64 0xFFFFFFFFFFFFFFFF#64 = ⟨false, 0x8000000000000000#64, 0#64⟩
    ∧ divide 2#2 0x8000000000000000#64 0xFFFFFFFF#64 = ⟨false, 0xFFFFFFFF80000000#64, 0xFFFFFFFF80000000#64⟩
    ∧ divide 2#2 7#64 0x500000000#64 = ⟨false, 0#64, 7#64⟩ := by
  decide +kernel

theorem test_wDivcnt :
    (after (exec (.wDivcnt .primary (.word 0xFFFFFFFF#32)) (divState 0#16 100#64 7#64))).au.divControl = 3#16
    ∧ (after (exec (.wDivcnt .primary (.half false 1#16)) (divState 1#16 5#64 0#64))).au.divControl = 0x4001#16
    ∧ (after (exec (.wDivcnt .primary (.half false 0x4001#16)) (divState 1#16 5#64 2#64))).au.divControl = 1#16
    ∧ (after (exec (.wDivcnt .primary (.half false 1#16)) (divState 0#16 0x100000000#64 2#64))).au.divResult = 0x80000000#64 := by
  decide +kernel

/-- The upper half of the DIVCNT slot is no register: nothing is recomputed, also from results that are not consistent. -/
theorem test_wDivcnt_upper :
    (after (exec (.wDivcnt .primary (.half true 0xFFFF#16)) State.reset)).au = ArithmeticUnit.reset
    ∧ (after (exec (.wDivcnt .primary (.half false 0#16)) State.reset)).au.divResult = 0xFFFFFFFFFFFFFFFF#64 := by
  decide +kernel

theorem test_divider_operand_writes :
    (after (exec (.wDivNumerL .primary (.half true 0x1234#16)) (divState 0#16 0xABCD#64 1#64))).au.divResult = 0x1234ABCD#64
    ∧ (after (exec (.wDivNumerL .primary (.half false 0xFFFF#16)) (divState 0#16 0x12345678#64 1#64))).au.divNumerator
      = 0x1234FFFF#64
    ∧ (after (exec (.wDivNumerH .primary (.word 1#32)) (divState 1#16 0#64 0x10#64))).au.divResult = 0x10000000#64
    ∧ (after (exec (.wDivDenomL .primary (.word 0#32)) (divState 0#16 5#64 0x100000003#64))).au.divControl = 0#16
    ∧ (after (exec (.wDivDenomL .primary (.word 0#32)) (divState 0#16 5#64 0x100000003#64))).au.divRemainder = 5#64
    ∧ div0 (divState 0#16 5#64 0#64).au.divControl = true
    ∧ (after (exec (.wDivDenomH .primary (.word 1#32)) (divState 0#16 5#64 0#64))).au.divControl = 0#16
    ∧ (after (exec (.wDivDenomH .primary (.word 1#32)) (divState 0#16 5#64 0#64))).au.divResult = 0xFFFFFFFFFFFFFFFF#64 := by
  decide +kernel

theorem test_divider_reads :
    (after (exec (.rDivResultL .primary (.half true)) (divState 0#16 0xFFFFFF9C#64 7#64))).trace
      = [.readData .primary .half 0xFFFF#32]
    ∧ (after (exec (.rDivResultL .primary (.half false)) (divState 0#16 0xFFFFFF9C#64 7#64))).trace
      = [.readData .primary .half 0xFFF2#32]
    ∧ (after (exec (.rDivResultH .primary .word) (divState 0#16 0xFFFFFF9C#64 7#64))).trace
      = [.readData .primary .word 0xFFFFFFFF#32]
    ∧ (after (exec (.rDivcnt .primary (.half false)) (divState 2#16 5#64 0#64))).trace
      = [.readData .primary .half 0x4002#32]
    ∧ (after (exec (.rDivremResultL .primary .word) (divState 0#16 0xFFFFFF9C#64 7#64))).trace
      = [.readData .primary .word 0xFFFFFFFE#32] := by
  decide +kernel

/-! The square root (sections 2.2 and 2.3). -/

theorem test_squareRoot :
    squareRoot false 0x1234567800000019#64 = 5#32
    ∧ squareRoot false 0xFFFFFFFF#64 = 0xFFFF#32
    ∧ squareRoot false 0xFFFE0000#64 = 0xFFFE#32
    ∧ squareRoot true 0xFFFFFFFFFFFFFFFF#64 = 0xFFFFFFFF#32
    ∧ squareRoot true 0xFFFFFFFE00000001#64 = 0xFFFFFFFF#32
    ∧ squareRoot true 0xFFFFFFFE00000000#64 = 0xFFFFFFFE#32
    ∧ squareRoot true 0x8000000000000000#64 = 0xB504F333#32
    ∧ squareRoot true 0x1234567800000019#64 = 0x44444443#32 := by
  decide +kernel

theorem test_sqrt_writes :
    (after (exec (.wSqrtcnt .primary (.half false 0xFFFF#16)) (sqrtState 0#16 0x100000000#64))).au.sqrtControl = 1#16
    ∧ (after (exec (.wSqrtcnt .primary (.half false 0xFFFF#16)) (sqrtState 0#16 0x100000000#64))).au.sqrtResult = 0x10000#32
    ∧ (after (exec (.wSqrtcnt .primary (.half true 0xFFFF#16)) (sqrtState 0#16 4#64))).au.sqrtControl = 0#16
    ∧ (after (exec (.wSqrtParamL .primary (.word 0x19#32)) (sqrtState 0#16 0#64))).au.sqrtResult = 5#32
    ∧ (after (exec (.wSqrtParamH .primary (.word 0xE8#32)) (sqrtState 1#16 0xD4A51000#64))).au.sqrtResult = 0xF4240#32
    ∧ (after (exec (.wSqrtResult .primary (.word 0#32)) (sqrtState 0#16 25#64))).au.sqrtResult = 5#32 := by
  decide +kernel

/-! The DMA configuration registers (sections 2.4 and 2.5). -/

theorem test_dma_address_writes :
    ((after (exec (.wDma0Sad .secondary (.word 0xFFFFFFFF#32)) State.reset)).chan .secondary .ch0).sourceAddr = 0x07FFFFFF#32
    ∧ ((after (exec (.wDma1Sad .secondary (.word 0xFFFFFFFF#32)) State.reset)).chan .secondary .ch1).sourceAddr
      = 0x0FFFFFFF#32
    ∧ ((after (exec (.wDma2Dad .secondary (.word 0xFFFFFFFF#32)) State.reset)).chan .secondary .ch2).destAddr = 0x07FFFFFF#32
    ∧ ((after (exec (.wDma3Dad .secondary (.word 0xFFFFFFFF#32)) State.reset)).chan .secondary .ch3).destAddr = 0x0FFFFFFF#32
    ∧ ((after (exec (.wDma0Sad .primary (.half true 0xF200#16)) State.reset)).chan .primary .ch0).sourceAddr
      = 0x02000000#32 := by
  decide +kernel

theorem test_dma_control_write_immediate :
    (after (exec (.wDma0Cnt .primary (.word 0x84000004#32)) (chanState (burstChannel 0#32 0#21) 0 false))).chan .primary .ch0
      = burstChannel 0x84000004#32 4#21
    ∧ (after (exec (.wDma0Cnt .primary (.word 0x84000004#32)) (chanState (burstChannel 0#32 0#21) 0 false))).trace
      = [.schedule .primary .ch0 1]
    ∧ (after (exec (.wDma0Cnt .primary (.half false 0x10#16)) (chanState (burstChannel 0x84000004#32 4#21) 1 false))).chan
      .primary .ch0 = burstChannel 0x84000010#32 4#21 := by
  decide +kernel

theorem test_dma_control_write_gxfifo :
    (after (exec (.wDma0Cnt .primary (.word 0xFC40012C#32)) (chanState (burstChannel 0#32 0#21) 0 true))).tasks .primary .ch0 = 1
    ∧ (after (exec (.wDma0Cnt .primary (.word 0xFC40012C#32)) (chanState (burstChannel 0#32 0#21) 0 false))).tasks .primary .ch0
      = 0
    ∧ (after (exec (.wDma0Cnt .primary (.half false 0x012C#16)) (chanState (burstChannel 0xFC40012C#32 300#21) 1 true))).tasks
      .primary .ch0 = 2
    ∧ (after (exec (.wDma0Cnt .primary (.word 0x38000010#32)) (chanState (burstChannel 0#32 0#21) 0 true))).tasks .primary .ch0
      = 0 := by
  decide +kernel

theorem test_dma_control_write_secondary :
    ((after (exec (.wDma0Cnt .secondary (.word 0xFFFFFFFF#32)) State.reset)).chan .secondary .ch0).control = 0xF7E03FFF#32
    ∧ ((after (exec (.wDma3Cnt .secondary (.word 0x9E610002#32)) State.reset)).chan .secondary .ch3).control = 0x96600002#32
    ∧ (after (exec (.wDma1Cnt .secondary (.word 0x88000001#32)) State.reset)).tasks .secondary .ch1 = 1 := by
  decide +kernel

theorem test_dma_reads :
    (after (exec (.rDma0Cnt .primary .word) (chanState (burstChannel 0x84000004#32 4#21) 1 false))).trace
      = [.readData .primary .word 0x84000004#32]
    ∧ (after (exec (.rDma0Cnt .primary .word) { chanState (burstChannel 0x84000004#32 4#21) 1 false with compat := true })).trace
      = [.readData .primary .word 0x84000000#32]
    ∧ (after (exec (.rDma0Cnt .primary (.half true))
        { chanState (burstChannel 0x84000004#32 4#21) 1 false with compat := true })).trace
      = [.readData .primary .half 0x8400#32] := by
  decide +kernel

/-! TRIGGER and DISPATCH (sections 2.6 and 2.7). -/

theorem test_trigger :
    (after (exec (.trigger .primary 1#32 0xF#4) (chanState (burstChannel 0x8C000002#32 2#21) 0 false))).tasks .primary .ch0 = 1
    ∧ (after (exec (.trigger .primary 1#32 0x6#4) (chanState (burstChannel 0x8C000002#32 2#21) 0 false))).tasks .primary .ch0 = 0
    ∧ (after (exec (.trigger .primary 1#32 0xF#4) (chanState (burstChannel 0x0C000002#32 2#21) 0 false))).tasks .primary .ch0 = 0
    ∧ (after (exec (.trigger .secondary 3#32 0x6#4)
        (State.reset.setChan .secondary .ch1 (burstChannel 0xB6000000#32 0#21)))).tasks .secondary .ch1 = 1
    ∧ (after (exec (.trigger .secondary 6#32 0xF#4)
        (State.reset.setChan .secondary .ch1 (burstChannel 0xB6000000#32 0#21)))).tasks .secondary .ch1 = 0 := by
  decide +kernel

theorem test_dispatch_steps :
    (after (exec (.dispatch .primary .ch0) (chanState (burstChannel 0x84A00002#32 2#21) 1 false))).chan .primary .ch0
      = { burstChannel 0x04A00002#32 2#21 with currentSrc := 0x020000F8#32, currentDst := 0x020001F8#32 }
    ∧ (after (exec (.dispatch .primary .ch0) (chanState (burstChannel 0x85400002#32 2#21) 1 false))).chan .primary .ch0
      = { burstChannel 0x05400002#32 2#21 with currentSrc := 0x02000108#32, currentDst := 0x02000200#32 }
    ∧ (after (exec (.dispatch .primary .ch0) (chanState (burstChannel 0x8E600002#32 2#21) 1 false))).chan .primary .ch0
      = { burstChannel 0x8E600002#32 2#21 with currentSrc := 0x02000108#32, currentDst := 0x02000200#32 }
    ∧ (after (exec (.dispatch .primary .ch0) (chanState (burstChannel 0xC4000000#32 0#21) 1 false))).trace
      = [.irq .primary 8] := by
  decide +kernel

/-- Two units of four known bytes: the trace, and the bytes at the destination. -/
theorem test_dispatch_copy :
    (after (exec (.dispatch .primary .ch0) (chanState (burstChannel 0x84000002#32 2#21) 1 false))).trace
      = [.memWrite .primary 0x02000204#32 .word 0x18171615#32, .memRead .primary 0x02000104#32 .word 0x18171615#32,
         .memWrite .primary 0x02000200#32 .word 0x14131211#32, .memRead .primary 0x02000100#32 .word 0x14131211#32]
    ∧ (after (exec (.dispatch .primary .ch0) (chanState (burstChannel 0x84000002#32 2#21) 1 false))).byteAt .primary
      0x02000205#32 = some 0x16#8 := by
  decide +kernel

/-! RESET. -/

theorem test_reset :
    (after (exec .reset (divState 3#16 5#64 7#64))).au.divNumerator = 0#64
    ∧ (after (exec .reset { divState 3#16 5#64 7#64 with
        cfg := { defaultConfig with resetResults := .consistent } })).au.divControl = 0x4000#16
    ∧ (after (exec .reset (chanState (burstChannel 0x84000002#32 2#21) 2 true))).tasks .primary .ch0 = 0
    ∧ ((after (exec .reset (chanState (burstChannel 0x84000002#32 2#21) 2 true))).chan .primary .ch0).control = 0#32
    ∧ (after (exec .reset (chanState (burstChannel 0x84000002#32 2#21) 2 true))).mem = ⟨someBytes, ⟨[], []⟩⟩ := by
  decide +kernel

/-! Witnesses: for each statement with hypotheses, a concrete state and operands that meet them, for each clause. -/

theorem witness_DecodeEncodeAgrees :
    defaultConfig.regMap.wf = true ∧ (Instr.wDma3Cnt .secondary (.half true 0x8400#16)).wf defaultConfig = true := by
  decide +kernel

theorem witness_EncodeReversesDecode :
    decode defaultConfig (.regw .primary 0x040000BA#32 .half 0x12348400#32) = .ok (.wDma0Cnt .primary (.half true 0x8400#16))
    ∧ decode defaultConfig (.regr .secondary 0x040000DC#32 .word) = .ok (.rDma3Cnt .secondary .word)
    ∧ decode defaultConfig (.trigger .primary 7#32 1#4) = .ok (.trigger .primary 7#32 1#4)
    ∧ decode defaultConfig (.dispatch .primary .ch0) = .ok (.dispatch .primary .ch0)
    ∧ decode defaultConfig .reset = .ok .reset := by
  decide +kernel

theorem witness_DecodedIsWellFormed :
    decodeWord defaultConfig 0x0001010000008400040000DE#96 = .ok (.wDma3Cnt .secondary (.half true 0x8400#16)) := by
  decide +kernel

theorem witness_WriteOperands :
    decode defaultConfig (.regw .primary 0x04000292#32 .half 0x1234#32) = .ok (.wDivNumerL .primary (.half true 0x1234#16))
    ∧ maskOf (.half true 0x1234#16) = 0xFFFF0000#32 ∧ valueOf (.half true 0x1234#16) = 0x12340000#32 := by
  decide +kernel

theorem witness_ReadOperands :
    decode defaultConfig (.regr .primary 0x040002A2#32 .half) = .ok (.rDivResultL .primary (.half true))
    ∧ readValue (.half true) 0xFFF20001#32 = 0xFFF2#32 := by
  decide +kernel

theorem witness_StepRunsDecoded :
    (asked State.reset (.dispatch .primary .ch0)).inbox = [⟨[], false, .dispatch .primary .ch0⟩]
    ∧ decode (asked State.reset (.dispatch .primary .ch0)).cfg (.dispatch .primary .ch0) = .ok (.dispatch .primary .ch0)
    ∧ decode State.reset.cfg (wordRequest 32 0x04000280) = .ok (.wDivcnt .primary (.word 0#32)) := by
  decide +kernel

theorem witness_StepWithoutOperation :
    Final State.reset
    ∧ ((chanState (burstChannel 0x84000002#32 2#21) 1 false).inbox = []
      ∧ (chanState (burstChannel 0x84000002#32 2#21) 1 false).tasks .primary .ch0 ≠ 0)
    ∧ decode (asked State.reset (.regw .primary 0x04000281#32 .word 0#32)).cfg (.regw .primary 0x04000281#32 .word 0#32)
      = .error .misaligned :=
  ⟨⟨rfl, fun cpu ch => by cases cpu <;> cases ch <;> rfl⟩, ⟨rfl, Nat.one_ne_zero⟩, by decide +kernel⟩

/-- A state with a task pending is not final (R266): the scheduler dispatches the one pair there is, whatever its choice. -/
theorem test_scheduler_turn :
    (chanState (burstChannel 0x84000000#32 0#21) 1 false).nextTask = some (.primary, .ch0)
    ∧ ((after (step (chanState (burstChannel 0x84000000#32 0#21) 1 false))).chan .primary .ch0).control = 0x04000000#32
    ∧ (after (step (chanState (burstChannel 0x84000000#32 0#21) 1 false))).tasks .primary .ch0 = 0 := by
  have h : (chanState (burstChannel 0x84000000#32 0#21) 1 false).nextTask = some (.primary, .ch0) := by
    show some (List.getD [(Cpu.primary, Chan.ch0)] (_ % 1) _) = _
    rw [Nat.mod_one]; rfl
  rw [step_scheduler rfl h]
  exact ⟨h, rfl, rfl⟩

/-- The lanes on both sides of the bound: byte lane 1 is of the register, the upper half-word is not. -/
theorem witness_DivcntWrite_SqrtcntWrite :
    (WAccess.byte 1#2 0xFF#8).lane.toNat < 2 ∧ 2 ≤ (WAccess.half true 0xFFFF#16).lane.toNat := by
  decide

theorem witness_DivOperandWrites :
    DivConsistent (divState 0#16 5#64 0#64).au ∧ divMode (divState 0#16 5#64 0#64).au.divControl = 0#2
    ∧ DivConsistent (divState 3#16 5#64 0x700000000#64).au ∧ divMode (divState 3#16 5#64 0x700000000#64).au.divControl ≠ 2#2 :=
  ⟨runDivide_consistent _, by decide +kernel, runDivide_consistent _, by decide +kernel⟩

theorem witness_SqrtParamWrites :
    SqrtConsistent (sqrtState 0#16 0x100000019#64).au
    ∧ sqrtWidth (sqrtState 0#16 0x100000019#64).au.sqrtControl = false :=
  ⟨runSqrt_consistent _, by decide +kernel⟩

theorem witness_OtherUnitReads : ReservedZero (divState 2#16 5#64 0#64).au :=
  ⟨by decide +kernel, by decide +kernel⟩

theorem witness_DivisionLaw :
    divDen 0#2 0x1FFFFFFF9#64 ≠ 0 ∧ ¬divOverflows 0#2 100#64 0x1FFFFFFF9#64
    ∧ (1#2 ≠ 0#2 ∧ divOverflows 1#2 0x8000000000000000#64 0xFFFFFFFF#64) := by
  unfold divOverflows
  decide +kernel

theorem witness_OverflowEquationInEveryMode : divOverflows 0#2 0x80000000#64 0xFFFFFFFF#64 := by
  unfold divOverflows
  decide +kernel

theorem witness_Sentinels :
    divOverflows 2#2 0x8000000000000000#64 0xFFFFFFFFFFFFFFFF#64 ∧ divDen 3#2 0x100000000#64 = 0 := by
  unfold divOverflows
  decide +kernel

theorem witness_FlagIsWholeDenominator : (divide 1#2 5#64 0#64).div0 = true ∧ (1#2 : BitVec 2) ≠ 2#2 := by
  decide +kernel

/-- The three answers of the decoder, and an 8-bit access where it is admitted. -/
theorem witness_AccessIsOneOfThree :
    (0x04000293#32).toNat % Width.byte.bytes = 0 ∧ defaultConfig.byteAccess = false
    ∧ decode { defaultConfig with byteAccess := true } (.regw .primary 0x04000293#32 .byte 0xAB#32)
      = .ok (.wDivNumerL .primary (.byte 3#2 0xAB#8))
    ∧ (0x04000292#32).toNat % Width.word.bytes ≠ 0
    ∧ decode defaultConfig (.regr .secondary 0x04000290#32 .word) = .error .notThisBlock := by
  decide +kernel

theorem witness_ModeWidths :
    lowHalf 0x1234567800000064#64 = lowHalf 100#64 ∧ lowHalf 0xDEADBEEF00000007#64 = lowHalf 7#64 := by
  decide +kernel

theorem witness_SquareRootConsequences :
    (0xFFFF : Nat) ≤ 0xFFFF ∧ (0xFFFFFFFF : Nat) ≤ 0xFFFFFFFF
    ∧ (if false then (0x100000001#64).toNat else (0x100000001#64).toNat % 2 ^ 32)
      ≤ (if false then (2#64).toNat else (2#64).toNat % 2 ^ 32) := by
  decide +kernel

theorem witness_AllOnesShowTheMasks : Masked State.reset := by
  intro cpu ch
  cases cpu <;> cases ch <;> decide

/-- A write that starts the channel, and one that does not. -/
theorem witness_ControlWrite :
    (burstChannel 0#32 0#21).control.getLsbD 31 = false
    ∧ ((after (exec (.wDma0Cnt .primary (.word 0x84000004#32)) (chanState (burstChannel 0#32 0#21) 0 false))).chan
        .primary .ch0).control.getLsbD 31 = true
    ∧ (burstChannel 0x84000004#32 4#21).control.getLsbD 31 = true := by
  decide +kernel

theorem witness_DisabledIsNeverScheduled :
    (∃ t, exec (.trigger .primary 1#32 15#4) State.reset = .next t)
    ∧ (State.reset.chan .primary .ch0).control.getLsbD 31 = false
    ∧ (∃ t, exec (Instr.ofWrite .primary (.word 0#32) (.sad .ch0)) State.reset = .next t) :=
  ⟨⟨_, rfl⟩, by decide, ⟨_, rfl⟩⟩

/-- The general burst of two words. -/
theorem runs_general (ctl : Word) (h : planOf (chanState (burstChannel ctl 2#21) 1 false) .primary .ch0
      = ⟨2, .word, 4#32, 4#32, 2#21⟩) : Runs (chanState (burstChannel ctl 2#21) 1 false) .primary .ch0 := by
  refine ⟨Nat.one_pos, ?_⟩
  unfold BurstLands unitSrc unitDst
  rw [h]
  show ∀ i, i < 2 → lands defaultConfig .primary (0x02000100#32 + BitVec.ofNat 32 i * 4#32) .word = true
    ∧ lands defaultConfig .primary (0x02000200#32 + BitVec.ofNat 32 i * 4#32) .word = true
  decide +kernel

theorem witness_GeneralBurstAccesses :
    Runs (chanState (burstChannel 0x84000002#32 2#21) 1 false) .primary .ch0
    ∧ isAudio defaultConfig false .ch0 0x84000002#32 = false :=
  ⟨runs_general _ (by decide +kernel), by decide⟩

theorem witness_DispatchCompletes : State.reset.tasks .primary .ch0 = 0 := by
  decide

theorem witness_CompletionInterrupt :
    Runs (chanState (burstChannel 0xC4000002#32 2#21) 1 false) .primary .ch0
    ∧ ¬endsEarly (chanState (burstChannel 0xC4000002#32 2#21) 1 false) .primary .ch0
    ∧ ((chanState (burstChannel 0xC4000002#32 2#21) 1 false).chan .primary .ch0).control.getLsbD 30 = true
    ∧ ((chanState (burstChannel 0x84000002#32 2#21) 1 false).chan .primary .ch0).control.getLsbD 30 = false := by
  refine ⟨runs_general _ (by decide +kernel), ?_, by decide +kernel, by decide +kernel⟩
  unfold endsEarly
  decide +kernel

theorem witness_DisableAfterBurst :
    ¬endsEarly (chanState (burstChannel 0x8C000002#32 2#21) 1 false) .primary .ch0
    ∧ ¬repeats (chanState (burstChannel 0x8C000002#32 2#21) 1 false) .primary .ch0
    ∧ Runs (chanState (burstChannel 0x8C000002#32 2#21) 1 false) .primary .ch0 := by
  refine ⟨?_, ?_, runs_general _ (by decide +kernel)⟩
  · unfold endsEarly; decide +kernel
  · unfold repeats; decide +kernel

theorem witness_RepeatReload :
    Runs (chanState (burstChannel 0x8E600002#32 2#21) 1 false) .primary .ch0
    ∧ ¬endsEarly (chanState (burstChannel 0x8E600002#32 2#21) 1 false) .primary .ch0
    ∧ repeats (chanState (burstChannel 0x8E600002#32 2#21) 1 false) .primary .ch0 := by
  refine ⟨runs_general _ (by decide +kernel), ?_, ?_⟩
  · unfold endsEarly; decide +kernel
  · unfold repeats; decide +kernel

/-- A GXFIFO burst limited to one unit, of two: units are left, with the FIFO half empty and not. -/
def fifoState (fifo : Bool) : State :=
  { chanState (burstChannel 0xBC000002#32 2#21) 1 fifo with cfg := { defaultConfig with gxfifoBurstMax := some 1 } }

theorem witness_GxfifoContinuation :
    (∀ fifo, Runs (fifoState fifo) .primary .ch0
      ∧ ctlTrigMode ((fifoState fifo).chan .primary .ch0).control = (fifoState fifo).cfg.modeGxfifo
      ∧ (planOf (fifoState fifo) .primary .ch0).moved ≠ ((fifoState fifo).chan .primary .ch0).remainingWords)
    ∧ (fifoState true).fifoHalfEmpty = true
    ∧ (fifoState false).fifoHalfEmpty = false ∧ (fifoState false).cfg.gxfifoHold = false
    ∧ ¬repeats (fifoState false) .primary .ch0 := by
  refine ⟨fun fifo => ⟨⟨by unfold Pending; cases fifo <;> decide, ?_⟩, by cases fifo <;> decide +kernel,
    by cases fifo <;> decide +kernel⟩, rfl, rfl, rfl, ?_⟩
  · unfold BurstLands; cases fifo <;> decide +kernel
  · unfold repeats; decide +kernel

/-- Channel 1 of the secondary CPU in compatibility mode, as in section 2.7. -/
def audioState (ctl : Word) : State :=
  { (State.reset.setChan .secondary .ch1 (burstChannel ctl 0#21)).setTasks .secondary .ch1 1 with compat := true }

theorem runs_audio (ctl : Word) (h : planOf (audioState ctl) .secondary .ch1 = ⟨4, .word, 4#32, 0#32, 0#21⟩) :
    Runs (audioState ctl) .secondary .ch1 := by
  refine ⟨Nat.one_pos, ?_⟩
  unfold BurstLands unitSrc unitDst
  rw [h]
  show ∀ i, i < 4 → lands defaultConfig .secondary (0x02000100#32 + BitVec.ofNat 32 i * 4#32) .word = true
    ∧ lands defaultConfig .secondary (0x02000200#32 + BitVec.ofNat 32 i * 0#32) .word = true
  decide +kernel

theorem witness_AudioBurst :
    (audioState 0xB6000000#32).cfg.wf = true ∧ (audioState 0xB6000000#32).compat = true
    ∧ Chan.ch1 = (audioState 0xB6000000#32).cfg.audioA
    ∧ Runs (audioState 0xB6000000#32) .secondary .ch1
    ∧ ((audioState 0xB6000000#32).chan .secondary .ch1).control.extractLsb' 27 3 = (audioState 0xB6000000#32).cfg.modeSpecial
    ∧ Runs (audioState 0xB0000004#32) .secondary .ch1
    ∧ ((audioState 0xB0000004#32).chan .secondary .ch1).control.extractLsb' 27 3
      = (audioState 0xB0000004#32).cfg.modeSpecial :=
  ⟨by decide +kernel, rfl, rfl, runs_audio _ (by decide +kernel), by decide, runs_audio _ (by decide +kernel), by decide⟩

theorem witness_DmaRegisterInBurstRefused :
    let s := chanState { burstChannel 0x84000002#32 2#21 with currentSrc := 0x040000AC#32 } 1 false
    Pending s .primary .ch0 ∧ 1 < (planOf s .primary .ch0).copies
    ∧ (∀ j, j < 1 → lands s.cfg .primary (unitSrc s .primary .ch0 j) .word = true
        ∧ lands s.cfg .primary (unitDst s .primary .ch0 j) .word = true)
    ∧ (unitSrc s .primary .ch0 1).toNat % 4 = 0
    ∧ regAt s.cfg .primary (slotOf (unitSrc s .primary .ch0 1)) = some (.sad .ch0)
    ∧ exec (.dispatch .primary .ch0) s = .refused .dmaRegisterInBurst := by
  unfold Pending
  dsimp only
  refine ⟨?_, ?_, ?_, ?_, ?_, rfl⟩ <;> decide +kernel

/-- The same with the destination. -/
theorem witness_DmaRegisterInBurstRefused_write :
    let s := chanState { burstChannel 0x84000002#32 2#21 with currentDst := 0x040000DC#32 } 1 false
    lands s.cfg .primary (unitSrc s .primary .ch0 0) .word = true
    ∧ (unitDst s .primary .ch0 0).toNat % 4 = 0
    ∧ regAt s.cfg .primary (slotOf (unitDst s .primary .ch0 0)) = some (.cnt .ch3)
    ∧ exec (.dispatch .primary .ch0) s = .refused .dmaRegisterInBurst := by
  dsimp only
  refine ⟨?_, ?_, ?_, rfl⟩ <;> decide +kernel

theorem dispatch_goesOn (ctl : Word) (h : planOf (chanState (burstChannel ctl 2#21) 1 false) .primary .ch0
      = ⟨2, .word, 4#32, 4#32, 2#21⟩) :
    ∃ t, exec (.dispatch .primary .ch0) (chanState (burstChannel ctl 2#21) 1 false) = .next t := by
  obtain ⟨u, hu⟩ := (copyUnits_completes (cpu := .primary) (ch := .ch0)
    (p := planOf (chanState (burstChannel ctl 2#21) 1 false) .primary .ch0)
    (s := takeTask .primary .ch0 (chanState (burstChannel ctl 2#21) 1 false))).mpr (runs_general ctl h).2
  exact ⟨_, execDispatch_next.mpr ⟨Nat.one_ne_zero, u, hu, rfl⟩⟩

/-- EnableIsNotTested, BurstNeverDoes (both clauses with a premise), BurstMemoryFrame, OnlyDispatchTransfers's exception. -/
theorem witness_dispatch_statements :
    (∃ t, exec (.dispatch .primary .ch0) (chanState (burstChannel 0x84000002#32 2#21) 1 false) = .next t)
    ∧ (∀ i, i < 2 → ∀ r ea, landing defaultConfig .primary
        (unitDst (chanState (burstChannel 0x84000002#32 2#21) 1 false) .primary .ch0 i) .word ≠ .ok (.register r ea))
    ∧ ctlTrigMode 0x84000002#32 ≠ defaultConfig.modeGxfifo
    ∧ (∀ i, i < 2 → 0x02000208#32 ∉ storedAt defaultConfig .primary
        (unitDst (chanState (burstChannel 0x84000002#32 2#21) 1 false) .primary .ch0 i) .word) := by
  refine ⟨dispatch_goesOn _ (by decide +kernel), ?_, by decide +kernel, by decide +kernel⟩
  intro i hi r ea
  have h : ∀ i, i < 2 → landing defaultConfig .primary
      (unitDst (chanState (burstChannel 0x84000002#32 2#21) 1 false) .primary .ch0 i) .word
      = .ok (.memory (unitDst (chanState (burstChannel 0x84000002#32 2#21) 1 false) .primary .ch0 i)) := by
    decide +kernel
  rw [h i hi]
  simp

theorem witness_ZeroCountCopiesNothing :
    Pending (chanState (burstChannel 0xC4000000#32 0#21) 1 false) .primary .ch0
    ∧ isAudio defaultConfig false .ch0 0xC4000000#32 = false
    ∧ ¬repeats (chanState (burstChannel 0xC4000000#32 0#21) 1 false) .primary .ch0
    ∧ repeats (chanState (burstChannel 0xCE000000#32 0#21) 1 false) .primary .ch0 := by
  unfold Pending repeats
  decide +kernel

/-- Two statements about every element of a list, as Bools that evaluate. -/
theorem mem_of_all {p : Word → Bool} {l : List Word} (h : l.all p = true) : ∀ x ∈ l, p x = true := List.all_eq_true.mp h

theorem disjoint_of_all {l m : List Word} (h : (l.all fun x => !m.contains x) = true) : ∀ x ∈ l, x ∉ m := by
  simpa using h

theorem below_two {p : Nat → Prop} (h0 : p 0) (h1 : p 1) : ∀ i, i < 2 → p i
  | 0, _ => h0
  | 1, _ => h1

/-- The burst of two words that three statements about copying speak of. -/
def copyState : State := chanState (burstChannel 0x84000002#32 2#21) 1 false

theorem witness_BurstCopies :
    planOf copyState .primary .ch0 = ⟨2, .word, 4#32, 4#32, 2#21⟩
    ∧ Pending copyState .primary .ch0 ∧ PlainBurst copyState .primary .ch0
    ∧ (∀ i, i < 2 → ∀ x ∈ unitBytes (unitSrc copyState .primary .ch0 i) .word, (copyState.byteAt .primary x).isSome = true)
    ∧ (∀ i, i < 2 → ∀ j, j < 2 →
        ∀ x ∈ unitBytes (unitSrc copyState .primary .ch0 i) .word, x ∉ unitBytes (unitDst copyState .primary .ch0 j) .word)
    ∧ (∀ i, i < 2 → ∀ j, j < 2 → i ≠ j →
        ∀ x ∈ unitBytes (unitDst copyState .primary .ch0 i) .word, x ∉ unitBytes (unitDst copyState .primary .ch0 j) .word) := by
  unfold Pending PlainBurst
  refine ⟨by decide +kernel, by decide +kernel, by decide +kernel,
    below_two (mem_of_all (p := fun x => (copyState.byteAt .primary x).isSome) ?_)
      (mem_of_all (p := fun x => (copyState.byteAt .primary x).isSome) ?_),
    below_two (below_two (disjoint_of_all ?_) (disjoint_of_all ?_)) (below_two (disjoint_of_all ?_) (disjoint_of_all ?_)),
    below_two (below_two (fun h => absurd rfl h) (fun _ => disjoint_of_all ?_))
      (below_two (fun _ => disjoint_of_all ?_) (fun h => absurd rfl h))⟩
  all_goals decide +kernel

theorem witness_OverlapPropagates :
    let s := chanState { burstChannel 0x84000002#32 2#21 with currentDst := 0x02000104#32 } 1 false
    Pending s .primary .ch0 ∧ PlainBurst s .primary .ch0
    ∧ planOf s .primary .ch0 = ⟨2, .word, BitVec.ofNat 32 Width.word.bytes, BitVec.ofNat 32 Width.word.bytes, 2#21⟩
    ∧ (s.chan .primary .ch0).currentDst = (s.chan .primary .ch0).currentSrc + BitVec.ofNat 32 Width.word.bytes
    ∧ (∀ x ∈ unitBytes (s.chan .primary .ch0).currentSrc .word, (s.byteAt .primary x).isSome = true)
    ∧ (2 + 1) * Width.word.bytes ≤ 2 ^ 32 := by
  intro s
  refine ⟨Nat.one_pos, ?_, by decide +kernel, by decide +kernel,
    mem_of_all (p := fun x => (s.byteAt .primary x).isSome) (by decide +kernel), by decide⟩
  unfold PlainBurst
  decide +kernel

/-- Overlap, run: the first word stands twice (R195). -/
theorem test_overlap :
    let t := after (exec (.dispatch .primary .ch0)
      (chanState { burstChannel 0x84000002#32 2#21 with currentDst := 0x02000104#32 } 1 false))
    t.byteAt .primary 0x02000104#32 = some 0x11#8 ∧ t.byteAt .primary 0x02000108#32 = some 0x11#8
    ∧ t.byteAt .primary 0x0200010B#32 = some 0x14#8 := by
  decide +kernel

theorem witness_ExactlyN :
    let s := chanState (burstChannel 0#32 0#21) 0 false
    let c := ((after (exec (Instr.ofWrite .primary (.word 0x84000002#32) (.cnt .ch0)) s)).chan .primary .ch0).control
    s.cfg.wf = true ∧ s.tasks .primary .ch0 = 0 ∧ (s.chan .primary .ch0).control.getLsbD 31 = false
    ∧ c.getLsbD 31 = true ∧ c.extractLsb' 27 3 = 0#3 ∧ c.extractLsb' 23 2 ≠ 1#2 ∧ c.extractLsb' 21 2 = 0#2
    ∧ (∀ i, i < 2 → lands s.cfg .primary (0x02000100#32 + BitVec.ofNat 32 (i * 4)) .word = true
        ∧ lands s.cfg .primary (0x02000200#32 + BitVec.ofNat 32 (i * 4)) .word = true) := by
  decide +kernel

theorem witness_ResetResultsParameter :
    (∃ t, exec .reset { State.reset with cfg := { defaultConfig with resetResults := .zeros } } = .next t)
    ∧ (∃ t, exec .reset { State.reset with cfg := { defaultConfig with resetResults := .consistent } } = .next t) :=
  ⟨⟨_, rfl⟩, ⟨_, rfl⟩⟩

theorem inv_asked (r : Request) : Inv (asked State.reset r) := by
  refine ⟨witness_AllOnesShowTheMasks, ?_, reset_memoryWf⟩
  show ReservedZero ArithmeticUnit.reset
  exact ⟨by decide, by decide⟩

/-- StepKeepsInv, StepKeepsSetting. -/
theorem witness_step_statements :
    Inv (asked State.reset (.regw .primary 0x040000B8#32 .word 0x84000004#32))
    ∧ ∃ t, step (asked State.reset (.regw .primary 0x040000B8#32 .word 0x84000004#32)) = .next t :=
  ⟨inv_asked _, _, rfl⟩

/-- A step that performs a triggering write, and one that keeps the results consistent. -/
theorem witness_DividerStaysConsistent :
    decode defaultConfig (.regw .primary 0x04000290#32 .word 5#32) = .ok (.wDivNumerL .primary (.word 5#32))
    ∧ (∃ t, step (asked (divState 0#16 5#64 7#64) (.regw .primary 0x04000290#32 .word 5#32)) = .next t)
    ∧ DivConsistent (asked (divState 0#16 5#64 7#64) (.regw .primary 0x04000290#32 .word 5#32)).au :=
  ⟨by decide +kernel, ⟨_, rfl⟩, runDivide_consistent _⟩

theorem witness_SquareRootStaysConsistent :
    decode defaultConfig (.regw .primary 0x040002B8#32 .word 5#32) = .ok (.wSqrtParamL .primary (.word 5#32))
    ∧ (∃ t, step (asked (sqrtState 0#16 5#64) (.regw .primary 0x040002B8#32 .word 5#32)) = .next t)
    ∧ SqrtConsistent (asked (sqrtState 0#16 5#64) (.regw .primary 0x040002B8#32 .word 5#32)).au :=
  ⟨by decide +kernel, ⟨_, rfl⟩, runSqrt_consistent _⟩

/-- InterruptSources, ShadowWrittenAtReload, WhoChangesWhat, OnlyDispatchTransfers: operations that go on, a write that
reloads, a write that changes an address, and a DISPATCH after which tasks are fewer. -/
theorem witness_exec_statements :
    (∃ t, exec (.dispatch .primary .ch0) (chanState (burstChannel 0xC4000002#32 2#21) 1 false) = .next t)
    ∧ (∃ t, exec (.wDma0Cnt .primary (.word 0x84000004#32)) (chanState (burstChannel 0#32 0#21) 0 false) = .next t)
    ∧ ((after (exec (.wDma0Sad .primary (.word 4#32)) State.reset)).chan .primary .ch0).sourceAddr
      ≠ (State.reset.chan .primary .ch0).sourceAddr
    ∧ ((after (exec (.wDma0Dad .primary (.word 4#32)) State.reset)).chan .primary .ch0).destAddr
      ≠ (State.reset.chan .primary .ch0).destAddr
    ∧ (after (exec (.dispatch .primary .ch0) (chanState (burstChannel 0xC4000000#32 0#21) 1 false))).tasks .primary .ch0 < 1 :=
  ⟨dispatch_goesOn _ (by decide +kernel), ⟨_, rfl⟩, by decide +kernel, by decide +kernel, by decide +kernel⟩

/-- A stale GXFIFO task of a disabled channel schedules again. -/
theorem witness_DispatchSchedulesEnabledOnly :
    let s := { chanState (burstChannel 0x3E000000#32 0#21) 1 true with trace := [] }
    schedules (after (exec (.dispatch .primary .ch0) s)).trace ≠ schedules s.trace
    ∧ (s.chan .primary .ch0).control.getLsbD 31 = false := by
  decide +kernel

/-- Seen by both CPUs, and, where a window says so, by one alone. -/
theorem witness_ByteReadAfterWrite :
    MemoryWf (chanState (burstChannel 0#32 0#21) 0 false)
    ∧ homeOf defaultConfig .secondary 0x02000100#32 = homeOf defaultConfig .primary 0x02000100#32
    ∧ homeOf { defaultConfig with own := [⟨.primary, 0x02000000, 0x1000⟩] } .secondary 0x02000100#32
      ≠ homeOf { defaultConfig with own := [⟨.primary, 0x02000000, 0x1000⟩] } .primary 0x02000100#32 := by
  refine ⟨fun h => ?_, rfl, by decide +kernel⟩
  cases h with
  | shared => exact ⟨by decide +kernel, fun p _ => ⟨.primary, rfl⟩⟩
  | own cpu => cases cpu <;> exact ⟨rfl, fun p hp => absurd hp (List.not_mem_nil)⟩

/-- Memory is shared (R231): what the primary CPU's engine stores, the secondary CPU's view shows. -/
theorem test_shared_memory :
    (after (exec (.dispatch .primary .ch0) (chanState (burstChannel 0x84000002#32 2#21) 1 false))).byteAt .secondary
      0x02000205#32 = some 0x16#8
    ∧ (after (exec (.dispatch .primary .ch0)
        { chanState (burstChannel 0x84000002#32 2#21) 1 false with
          cfg := { defaultConfig with own := [⟨.primary, 0x02000200, 0x100⟩] } })).byteAt .secondary 0x02000205#32 = none := by
  decide +kernel

theorem witness_UnitRoundTrip :
    landing defaultConfig .primary 0x02000100#32 .word = .ok (.memory 0x02000100#32)
    ∧ landing { defaultConfig with unaligned := .force } .primary 0x02000101#32 .half = .ok (.memory 0x02000100#32) := by
  decide +kernel

end Sys2Proof.Tests
end

section
/-! The operand writes of the divider (R102 to R105). -/

namespace Sys2Proof.Machine

/-! A masked write to one half, in the terms of the claims. -/

/-- A register of 32 writable bits takes every bit the access delivers (R51). -/
theorem bitAfter_allWritable (a : WAccess) (base : Nat) (old : Bool) (i : Nat) :
    bitAfter a 0xFFFFFFFF#32 base old i =
      if base ≤ i ∧ (maskOf a).getLsbD (i - base) then (valueOf a).getLsbD (i - base) else old := by
  have hown : (maskOf a).getLsbD (i - base) = true → (0xFFFFFFFF#32).getLsbD (i - base) = true := fun hm => by
    rw [show 0xFFFFFFFF#32 = BitVec.allOnes 32 from rfl, BitVec.getLsbD_allOnes]
    exact decide_eq_true (BitVec.lt_of_getLsbD hm)
  simp only [bitAfter, and_iff_left_of_imp hown]

theorem mergeLow_eq_bitAfter (x : DWord) (a : WAccess) (i : Nat) :
    (mergeLow x a).getLsbD i = bitAfter a 0xFFFFFFFF#32 0 (x.getLsbD i) i := by
  rw [bitAfter_allWritable]
  by_cases hi : i < 64
  · have hlow : (maskOf a).getLsbD i = true → i < 32 := BitVec.lt_of_getLsbD
    simp only [mergeLow_getLsbD x a hi, and_iff_right_of_imp hlow, Nat.zero_le, Nat.sub_zero, true_and]
  · simp [BitVec.getLsbD_of_ge _ i (by omega : 64 ≤ i), BitVec.getLsbD_of_ge _ i (by omega : 32 ≤ i)]

theorem mergeHigh_eq_bitAfter (x : DWord) (a : WAccess) (i : Nat) :
    (mergeHigh x a).getLsbD i = bitAfter a 0xFFFFFFFF#32 32 (x.getLsbD i) i := by
  rw [bitAfter_allWritable]
  by_cases hi : i < 64
  · exact mergeHigh_getLsbD x a hi
  · simp [BitVec.getLsbD_of_ge _ i (by omega : 64 ≤ i), BitVec.getLsbD_of_ge _ (i - 32) (by omega : 32 ≤ i - 32)]

@[simp] theorem lowHalf_mergeHigh (x : DWord) (a : WAccess) : lowHalf (mergeHigh x a) = lowHalf x :=
  lowHalf_setHighHalf x _

/-! What the divide operation does not read of its operands (R100). -/

/-- Mode 0 reads the low half of the numerator only. -/
theorem divide_mode0_congr_num {num num' : DWord} (den : DWord) (h : lowHalf num = lowHalf num') :
    divide 0#2 num den = divide 0#2 num' den := by
  simp only [divide, if_true, h]

/-- Outside mode 2 the high half of the denominator reaches the flag only. -/
theorem divide_congr_den {mode : BitVec 2} (num : DWord) {den den' : DWord} (hm : mode ≠ 2#2)
    (h : lowHalf den = lowHalf den') :
    divide mode num den = { divide mode num den' with div0 := zeroDivFlag den } := by
  simp only [divide, if_neg hm, h]
  -- The overflow case, the division and the zero divisor, in mode 0 and in the others: each differs in the flag alone.
  repeat' split
  all_goals rfl

/-- In mode 0 another high half of the numerator leaves the divider consistent with the results it has. -/
theorem divConsistent_numerHigh {u : ArithmeticUnit} (a : WAccess) (h : DivConsistent u) (hm : divMode u.divControl = 0#2) :
    DivConsistent { u with divNumerator := mergeHigh u.divNumerator a } := by
  have hsame := divide_mode0_congr_num u.divDenominator (lowHalf_mergeHigh u.divNumerator a)
  rw [DivConsistent, hm] at h ⊢
  exact hsame.trans h

/-! The corner cases of R103 and R105. -/

/-- A write to the high half of the numerator in mode 0 changes that half and nothing else. -/
theorem writeDivNumerH_mode0 {u : ArithmeticUnit} (a : WAccess) (h : DivConsistent u) (hm : divMode u.divControl = 0#2) :
    writeDivNumerH a u = { u with divNumerator := mergeHigh u.divNumerator a } :=
  runDivide_of_consistent (divConsistent_numerHigh a h hm)

/-- A write to the high half of the denominator outside mode 2 keeps both results. -/
theorem writeDivDenomH_keeps_results {u : ArithmeticUnit} (a : WAccess) (h : DivConsistent u)
    (hm : divMode u.divControl ≠ 2#2) :
    (writeDivDenomH a u).divResult = u.divResult ∧ (writeDivDenomH a u).divRemainder = u.divRemainder := by
  rw [DivConsistent] at h
  rw [writeDivDenomH, runDivide_divResult, runDivide_divRemainder,
    divide_congr_den u.divNumerator hm (lowHalf_mergeHigh u.divDenominator a), h]
  exact ⟨rfl, rfl⟩

/-! The four operations. -/

theorem sameOutsideAu_withAu (s : State) (u : ArithmeticUnit) : SameOutsideAu s (s.withAu u) :=
  ⟨fun _ _ => ⟨rfl, rfl⟩, fun _ _ => rfl, rfl, rfl, rfl, rfl, rfl, rfl⟩

theorem exec_wDivNumerL (cpu : Cpu) (a : WAccess) (s : State) :
    exec (.wDivNumerL cpu a) s = .next (s.withAu (writeDivNumerL a s.au)) := rfl

theorem exec_wDivNumerH (cpu : Cpu) (a : WAccess) (s : State) :
    exec (.wDivNumerH cpu a) s = .next (s.withAu (writeDivNumerH a s.au)) := rfl

theorem exec_wDivDenomL (cpu : Cpu) (a : WAccess) (s : State) :
    exec (.wDivDenomL cpu a) s = .next (s.withAu (writeDivDenomL a s.au)) := rfl

theorem exec_wDivDenomH (cpu : Cpu) (a : WAccess) (s : State) :
    exec (.wDivDenomH cpu a) s = .next (s.withAu (writeDivDenomH a s.au)) := rfl

/-- Settles O11: each operand write is the divide operation on the merged operand. Its own lemmas give the flag, the results
and the frame; the merge gives the operand, and the two high halves have their corner cases. -/
theorem divOperandWrites : Obligations.DivOperandWrites := by
  intro cpu a s
  refine ⟨⟨rfl, _, exec_wDivNumerL cpu a s, ?_⟩, ⟨rfl, _, exec_wDivNumerH cpu a s, ?_⟩,
    ⟨rfl, _, exec_wDivDenomL cpu a s, ?_⟩, ⟨rfl, _, exec_wDivDenomH cpu a s, ?_⟩⟩
  · exact ⟨sameOutsideAu_withAu s _, writeAuReg_sameSqrt (r := .divNumerL) rfl a s.au,
      mergeLow_eq_bitAfter s.au.divNumerator a, runDivide_divDenominator _, runDivide_sameButFlag _, runDivide_consistent _⟩
  · refine ⟨sameOutsideAu_withAu s _, writeAuReg_sameSqrt (r := .divNumerH) rfl a s.au,
      mergeHigh_eq_bitAfter s.au.divNumerator a, runDivide_divDenominator _, runDivide_sameButFlag _,
      runDivide_consistent _, fun hcons hmode => ?_⟩
    rw [withAu_au, writeDivNumerH_mode0 a hcons hmode]
    exact ⟨rfl, rfl, rfl⟩
  · exact ⟨sameOutsideAu_withAu s _, writeAuReg_sameSqrt (r := .divDenomL) rfl a s.au,
      mergeLow_eq_bitAfter s.au.divDenominator a, runDivide_divNumerator _, runDivide_sameButFlag _, runDivide_consistent _⟩
  · exact ⟨sameOutsideAu_withAu s _, writeAuReg_sameSqrt (r := .divDenomH) rfl a s.au,
      mergeHigh_eq_bitAfter s.au.divDenominator a, runDivide_divNumerator _, runDivide_sameButFlag _,
      runDivide_consistent _, writeDivDenomH_keeps_results a⟩

end Sys2Proof.Machine
end

section
/-! The operand writes of the square-root unit (R132, R133). -/

namespace Sys2Proof.Machine

/-- With width 0 the root reads the low half of the parameter only (R130). -/
theorem squareRoot_width0_congr {p q : DWord} (h : lowHalf p = lowHalf q) : squareRoot false p = squareRoot false q := by
  have hinput : sqrtInput false p = sqrtInput false q := congrArg BitVec.toNat h
  rw [squareRoot, squareRoot, hinput]

/-- R133's corner case: with width 0 a write to the high half of the parameter keeps a consistent result. -/
theorem writeSqrtParamH_keeps_result {u : ArithmeticUnit} (a : WAccess) (h : SqrtConsistent u)
    (hw : sqrtWidth u.sqrtControl = false) : (writeSqrtParamH a u).sqrtResult = u.sqrtResult := by
  rw [SqrtConsistent, hw] at h
  calc (writeSqrtParamH a u).sqrtResult
      = squareRoot (sqrtWidth u.sqrtControl) (mergeHigh u.sqrtParameter a) := runSqrt_sqrtResult _
    _ = squareRoot false (mergeHigh u.sqrtParameter a) := by rw [hw]
    _ = squareRoot false u.sqrtParameter := squareRoot_width0_congr (lowHalf_mergeHigh u.sqrtParameter a)
    _ = u.sqrtResult := h

theorem exec_wSqrtParamL (cpu : Cpu) (a : WAccess) (s : State) :
    exec (.wSqrtParamL cpu a) s = .next (s.withAu (writeSqrtParamL a s.au)) := rfl

theorem exec_wSqrtParamH (cpu : Cpu) (a : WAccess) (s : State) :
    exec (.wSqrtParamH cpu a) s = .next (s.withAu (writeSqrtParamH a s.au)) := rfl

/-- Settles O21: each operand write is the square-root operation on the merged parameter. Its own lemmas give the result and
the frame; the merge gives the parameter, and the high half has its corner case. -/
theorem sqrtParamWrites : Obligations.SqrtParamWrites := by
  intro cpu a s
  refine ⟨⟨rfl, _, exec_wSqrtParamL cpu a s, ?_⟩, ⟨rfl, _, exec_wSqrtParamH cpu a s, ?_⟩⟩
  · exact ⟨sameOutsideAu_withAu s _, runSqrt_sameDivider _, mergeLow_eq_bitAfter s.au.sqrtParameter a,
      runSqrt_sqrtControl _, runSqrt_consistent _⟩
  · exact ⟨sameOutsideAu_withAu s _, runSqrt_sameDivider _, mergeHigh_eq_bitAfter s.au.sqrtParameter a,
      runSqrt_sqrtControl _, runSqrt_consistent _, writeSqrtParamH_keeps_result a⟩

end Sys2Proof.Machine
end

section
/-! The address writes of a DMA channel (R154, R155). -/

namespace Sys2Proof.Machine

/-! Register writes by their register (R85, R88). -/

@[simp] theorem form_ofWrite (cpu : Cpu) (a : WAccess) (id : RegId) : (Instr.ofWrite cpu a id).form = .write id cpu a := by
  cases id with
  | au r => cases r <;> rfl
  | sad ch => cases ch <;> rfl
  | dad ch => cases ch <;> rfl
  | cnt ch => cases ch <;> rfl

theorem encode_ofWrite (c : Config) (cpu : Cpu) (a : WAccess) (id : RegId) :
    encode c (Instr.ofWrite cpu a id) = .regw cpu (addrOf c id a.lane) a.width a.data := by
  rw [encode, form_ofWrite]

theorem exec_ofWrite_sad (cpu : Cpu) (ch : Chan) (a : WAccess) (s : State) :
    exec (Instr.ofWrite cpu a (.sad ch)) s = .next (writeSad cpu ch a s) := by
  simpa only [form_ofWrite] using exec_of_form (Instr.ofWrite cpu a (.sad ch)) s

theorem exec_ofWrite_dad (cpu : Cpu) (ch : Chan) (a : WAccess) (s : State) :
    exec (Instr.ofWrite cpu a (.dad ch)) s = .next (writeDad cpu ch a s) := by
  simpa only [form_ofWrite] using exec_of_form (Instr.ofWrite cpu a (.dad ch)) s

/-! What an address write leaves. -/

/-- A merge under the access and the register's own mask, in the terms of the claims (R51). -/
theorem merge_eq_bitAfter (old own : Word) (a : WAccess) (i : Nat) :
    (merge old (maskOf a &&& own) (valueOf a)).getLsbD i = bitAfter a own 0 (old.getLsbD i) i := by
  simp only [merge_getLsbD, BitVec.getLsbD_and, Bool.and_eq_true, bitAfter, Nat.zero_le, Nat.sub_zero, true_and]

theorem sameOutsideChannel_setChan (cpu : Cpu) (ch : Chan) (c : Channel) (s : State) :
    SameOutsideChannel cpu ch s (s.setChan cpu ch c) := by
  refine ⟨rfl, fun d h hne => ⟨?_, rfl⟩, fun _ _ => rfl, rfl, rfl, rfl, rfl, rfl⟩
  rw [setChan_chan, if_neg (not_and_or.mpr hne)]

theorem writeSad_chan_self (cpu : Cpu) (ch : Chan) (a : WAccess) (s : State) :
    (writeSad cpu ch a s).chan cpu ch =
      { s.chan cpu ch with
        sourceAddr := merge (s.chan cpu ch).sourceAddr (maskOf a &&& sadMask s.cfg cpu ch) (valueOf a) } := by
  rw [writeSad, setChan_chan, if_pos ⟨rfl, rfl⟩]

theorem writeDad_chan_self (cpu : Cpu) (ch : Chan) (a : WAccess) (s : State) :
    (writeDad cpu ch a s).chan cpu ch =
      { s.chan cpu ch with
        destAddr := merge (s.chan cpu ch).destAddr (maskOf a &&& dadMask s.cfg cpu ch) (valueOf a) } := by
  rw [writeDad, setChan_chan, if_pos ⟨rfl, rfl⟩]

/-- Settles O24: each address write replaces one channel, which gives the frame; in that channel it is a merge of one
register, which gives the bits and leaves the other five registers. -/
theorem addressWrites : Obligations.AddressWrites := by
  intro cpu ch a s
  refine ⟨⟨encode_ofWrite s.cfg cpu a (.sad ch), _, exec_ofWrite_sad cpu ch a s,
      sameOutsideChannel_setChan cpu ch _ s, rfl, rfl, ?_⟩,
    ⟨encode_ofWrite s.cfg cpu a (.dad ch), _, exec_ofWrite_dad cpu ch a s,
      sameOutsideChannel_setChan cpu ch _ s, rfl, rfl, ?_⟩⟩
  · rw [writeSad_chan_self]
    exact ⟨merge_eq_bitAfter _ _ a, rfl, rfl, rfl, rfl, rfl⟩
  · rw [writeDad_chan_self]
    exact ⟨merge_eq_bitAfter _ _ a, rfl, rfl, rfl, rfl, rfl⟩

end Sys2Proof.Machine
end

section
/-! The bookkeeping of a DISPATCH, step by step (R190 to R193). -/

namespace Sys2Proof.Machine

/-! Step 1: the GXFIFO continuation (R190). -/

/-- The state with the moved units taken off `remainingWords`, which happens in GXFIFO mode only. -/
def countDown (cpu : Cpu) (ch : Chan) (ctl : Word) (moved : BitVec 21) (s : State) : State :=
  if ctlTrigMode ctl = s.cfg.modeGxfifo then
    s.setChan cpu ch { s.chan cpu ch with remainingWords := (s.chan cpu ch).remainingWords - moved }
  else s

/-- `endsEarly` as the bookkeeping finds it: for the burst's control word and count, in the state the burst left. -/
def StopsAfterStep1 (cpu : Cpu) (ch : Chan) (ctl : Word) (moved : BitVec 21) (s : State) : Prop :=
  ctlTrigMode ctl = s.cfg.modeGxfifo ∧ (s.chan cpu ch).remainingWords ≠ moved
  ∧ (s.fifoHalfEmpty = true ∨ s.cfg.gxfifoHold = true)

section CountDown
variable (cpu : Cpu) (ch : Chan) (ctl : Word) (moved : BitVec 21) (s : State)

@[simp] theorem countDown_cfg : (countDown cpu ch ctl moved s).cfg = s.cfg := by
  unfold countDown; split <;> rfl

@[simp] theorem countDown_fifoHalfEmpty : (countDown cpu ch ctl moved s).fifoHalfEmpty = s.fifoHalfEmpty := by
  unfold countDown; split <;> rfl

@[simp] theorem countDown_trace : (countDown cpu ch ctl moved s).trace = s.trace := by
  unfold countDown; split <;> rfl

@[simp] theorem countDown_tasks (d : Cpu) (h : Chan) : (countDown cpu ch ctl moved s).tasks d h = s.tasks d h := by
  unfold countDown; split <;> rfl

theorem countDown_chan_self :
    (countDown cpu ch ctl moved s).chan cpu ch =
      { s.chan cpu ch with
        remainingWords :=
          if ctlTrigMode ctl = s.cfg.modeGxfifo then (s.chan cpu ch).remainingWords - moved
          else (s.chan cpu ch).remainingWords } := by
  unfold countDown; split <;> simp

end CountDown

section Bookkeeping
variable {cpu : Cpu} {ch : Chan} {ctl : Word} {moved : BitVec 21} {s : State}

/-- An early end counts down, and schedules the next burst exactly if the FIFO is half empty. -/
theorem bookkeeping_of_stops (h : StopsAfterStep1 cpu ch ctl moved s) :
    bookkeeping cpu ch ctl moved s =
      if s.fifoHalfEmpty then schedule cpu ch (countDown cpu ch ctl moved s) else countDown cpu ch ctl moved s := by
  obtain ⟨hmode, hleft, hgo⟩ := h
  have hleft : (s.chan cpu ch).remainingWords - moved ≠ 0#21 := sub_ne_zero.mpr hleft
  cases hf : s.fifoHalfEmpty with
  | true => simp [bookkeeping, countDown, hmode, hleft, hf]
  | false => simp [bookkeeping, countDown, hmode, hleft, hf, hgo.resolve_left (by simp [hf])]

/-- In every other case steps 2 to 4 follow. -/
theorem bookkeeping_of_not_stops (h : ¬StopsAfterStep1 cpu ch ctl moved s) :
    bookkeeping cpu ch ctl moved s = repeatOrDisable cpu ch ctl (countDown cpu ch ctl moved s) := by
  by_cases hmode : ctlTrigMode ctl = s.cfg.modeGxfifo
  · by_cases hleft : (s.chan cpu ch).remainingWords = moved
    · simp [bookkeeping, countDown, hmode, hleft]
    · obtain ⟨hf, hhold⟩ : s.fifoHalfEmpty = false ∧ s.cfg.gxfifoHold = false := by
        simpa [StopsAfterStep1, hmode, hleft] using h
      simp [bookkeeping, countDown, hmode, hf, hhold]
  · simp [bookkeeping, countDown, hmode]

end Bookkeeping

/-! Steps 2 to 4: the repeat, the disable and the completion interrupt (R191 to R193). -/

theorem clearEnable_getLsbD (c : Word) (i : Nat) :
    (clearEnable c).getLsbD i = if i = 31 then false else c.getLsbD i := by
  have hmask : (0x7FFFFFFF#32).getLsbD i = decide (i < 31) := by
    rw [BitVec.getLsbD_ofNat, show 0x7FFFFFFF = 2 ^ 31 - 1 from rfl, Nat.testBit_two_pow_sub_one]
    grind
  rw [clearEnable, BitVec.getLsbD_and, hmask]
  by_cases hi : i < 32
  · grind
  · simp [BitVec.getLsbD_of_ge c i (by omega)]

@[simp] theorem ctlEnable_clearEnable (c : Word) : ctlEnable (clearEnable c) = false := by
  rw [ctlEnable, clearEnable_getLsbD, if_pos rfl]

@[simp] theorem ctlIrq_clearEnable (c : Word) : ctlIrq (clearEnable c) = ctlIrq c := by
  rw [ctlIrq, clearEnable_getLsbD, if_neg (by decide), ctlIrq]

theorem repeatOrDisable_of_repeat {cpu : Cpu} {ch : Chan} {ctl : Word} {s : State}
    (h : ctlRepeat ctl = true ∧ ctlTrigMode ctl ≠ 0#3) :
    repeatOrDisable cpu ch ctl s = finishIrq cpu ch (repeatReload cpu ch ctl s) := by
  simp [repeatOrDisable, h]

theorem repeatOrDisable_of_not_repeat {cpu : Cpu} {ch : Chan} {ctl : Word} {s : State}
    (h : ¬(ctlRepeat ctl = true ∧ ctlTrigMode ctl ≠ 0#3)) :
    repeatOrDisable cpu ch ctl s = finishIrq cpu ch (disable cpu ch s) := by
  simp [repeatOrDisable, h]

/-- What the bookkeeping can have sent out when a dispatch ends, newest first: `m` interrupts of its line, and before
them `n` schedule requests for its channel. -/
def closingEvents (cpu : Cpu) (ch : Chan) (delay m n : Nat) : List Event :=
  List.replicate m (.irq cpu (8 + ch.index)) ++ List.replicate n (.schedule cpu ch delay)

theorem irqs_closingEvents (cpu : Cpu) (ch : Chan) (delay m n : Nat) (es : List Event) :
    irqs (closingEvents cpu ch delay m n ++ es) = List.replicate m (cpu, 8 + ch.index) ++ irqs es := by
  induction m with
  | zero =>
    induction n with
    | zero => rfl
    | succ n ih => exact ih
  | succ m ih => exact congrArg ((cpu, 8 + ch.index) :: ·) ih

theorem schedules_closingEvents (cpu : Cpu) (ch : Chan) (delay m n : Nat) (es : List Event) :
    schedules (closingEvents cpu ch delay m n ++ es) = List.replicate n (cpu, ch) ++ schedules es := by
  induction m with
  | zero =>
    induction n with
    | zero => rfl
    | succ n ih => exact congrArg ((cpu, ch) :: ·) ih
  | succ m ih => exact ih

section RepeatOrDisable
variable (cpu : Cpu) (ch : Chan) (ctl : Word) (s : State)

theorem finishIrq_trace :
    (finishIrq cpu ch s).trace =
      if ctlIrq (s.chan cpu ch).control then .irq cpu (8 + ch.index) :: s.trace else s.trace := by
  unfold finishIrq sendIrq; split <;> rfl

theorem repeatReload_trace :
    (repeatReload cpu ch ctl s).trace =
      if ctlTrigMode ctl = s.cfg.modeGxfifo ∧ s.fifoHalfEmpty = true then
        .schedule cpu ch s.cfg.schedDelay :: s.trace
      else s.trace := by
  simp only [repeatReload, Bool.and_eq_true, beq_iff_eq]; split <;> rfl

/-- The trace after steps 2 to 4: the repeat may send a request, and bit 30 decides on the interrupt. -/
theorem repeatOrDisable_trace :
    ∃ n, (repeatOrDisable cpu ch ctl s).trace =
      closingEvents cpu ch s.cfg.schedDelay (if ctlIrq (s.chan cpu ch).control then 1 else 0) n ++ s.trace := by
  by_cases hrep : ctlRepeat ctl = true ∧ ctlTrigMode ctl ≠ 0#3
  · refine ⟨if ctlTrigMode ctl = s.cfg.modeGxfifo ∧ s.fifoHalfEmpty = true then 1 else 0, ?_⟩
    simp only [repeatOrDisable_of_repeat hrep, finishIrq_trace, repeatReload_trace, repeatReload_chan, and_self,
      if_true]
    split <;> split <;> rfl
  · refine ⟨0, ?_⟩
    simp only [repeatOrDisable_of_not_repeat hrep, finishIrq_trace, disable_chan, and_self, if_true,
      ctlIrq_clearEnable]
    split <;> rfl

end RepeatOrDisable

/-! The bookkeeping as a whole. -/

/-- What the bookkeeping sends out: schedule requests, then interrupts, of its own channel, and an interrupt exactly where it
reaches step 4 and bit 30 asks for one (R190, R191, R193). -/
theorem bookkeeping_trace (cpu : Cpu) (ch : Chan) (ctl : Word) (moved : BitVec 21) (s : State) :
    ∃ m n, (bookkeeping cpu ch ctl moved s).trace = closingEvents cpu ch s.cfg.schedDelay m n ++ s.trace
      ∧ (¬StopsAfterStep1 cpu ch ctl moved s → ctlIrq (s.chan cpu ch).control = true → m = 1)
      ∧ (StopsAfterStep1 cpu ch ctl moved s ∨ ctlIrq (s.chan cpu ch).control = false → m = 0) := by
  by_cases hstop : StopsAfterStep1 cpu ch ctl moved s
  · refine ⟨0, if s.fifoHalfEmpty then 1 else 0, ?_, fun hgo => absurd hstop hgo, fun _ => rfl⟩
    rw [bookkeeping_of_stops hstop]
    split
    · rw [schedule_trace, countDown_cfg, countDown_trace]; rfl
    · rw [countDown_trace]; rfl
  · obtain ⟨n, htrace⟩ := repeatOrDisable_trace cpu ch ctl (countDown cpu ch ctl moved s)
    rw [countDown_cfg, countDown_chan_self, countDown_trace] at htrace
    refine ⟨_, n, by rw [bookkeeping_of_not_stops hstop, htrace], fun _ hirq => if_pos hirq, fun hno => if_neg ?_⟩
    simpa using hno.resolve_left hstop

/-- The bookkeeping adds tasks of its own channel only. -/
theorem bookkeeping_tasks_other {cpu d : Cpu} {ch h : Chan} {ctl : Word} {moved : BitVec 21} {s : State}
    (hne : ¬(d = cpu ∧ h = ch)) :
    (bookkeeping cpu ch ctl moved s).tasks d h = s.tasks d h := by
  have hne' : ¬(d = cpu ∧ h = ch ∧ ctlTrigMode ctl = s.cfg.modeGxfifo ∧ s.fifoHalfEmpty = true) :=
    fun hall => hne ⟨hall.1, hall.2.1⟩
  by_cases hstop : StopsAfterStep1 cpu ch ctl moved s
  · rw [bookkeeping_of_stops hstop]
    split <;> simp [hne]
  · rw [bookkeeping_of_not_stops hstop, repeatOrDisable, finishIrq_tasks]
    split <;> simp [hne']

end Sys2Proof.Machine
end

section
/-! Where the FIFO's answer is read (R65): in the bookkeeping of a GXFIFO channel, and nowhere in a burst. -/

namespace Sys2Proof.Machine

/-- The state with another answer of the FIFO. -/
def State.withFifo (s : State) (b : Bool) : State := { s with fifoHalfEmpty := b }

section WithFifo
variable (cpu : Cpu) (ch : Chan) (b : Bool) (s : State)

@[simp] theorem withFifo_cfg : (s.withFifo b).cfg = s.cfg := rfl

@[simp] theorem withFifo_chan (d : Cpu) (h : Chan) : (s.withFifo b).chan d h = s.chan d h := rfl

theorem emit_withFifo (e : Event) : (s.withFifo b).emit e = (s.emit e).withFifo b := rfl

theorem draw_withFifo (n : Nat) : (s.withFifo b).draw n = (s.draw n).withFifo b := rfl

theorem finishIrq_withFifo : finishIrq cpu ch (s.withFifo b) = (finishIrq cpu ch s).withFifo b := by
  unfold finishIrq
  rw [withFifo_chan]
  split <;> rfl

/-- Outside GXFIFO mode the bookkeeping does not read the FIFO's answer (R190, R191). -/
theorem bookkeeping_withFifo {ctl : Word} (moved : BitVec 21) (hmode : ctlTrigMode ctl ≠ s.cfg.modeGxfifo) :
    bookkeeping cpu ch ctl moved (s.withFifo b) = (bookkeeping cpu ch ctl moved s).withFifo b := by
  have hoff : (ctlTrigMode ctl == s.cfg.modeGxfifo) = false := by simpa using hmode
  simp only [bookkeeping, repeatOrDisable, repeatReload, withFifo_cfg, hoff, Bool.false_and, Bool.false_eq_true, if_false,
    ← finishIrq_withFifo]
  split <;> rfl

theorem storeBytes_withFifo (a v : Word) (n : Nat) :
    (s.withFifo b).storeBytes cpu a v n = (s.storeBytes cpu a v n).withFifo b := by
  induction n with
  | zero => rfl
  | succ n ih => rw [State.storeBytes, ih]; rfl

theorem forgetBytes_withFifo (a : Word) (n : Nat) :
    (s.withFifo b).forgetBytes cpu a n = (s.forgetBytes cpu a n).withFifo b := by
  induction n with
  | zero => rfl
  | succ n ih => rw [State.forgetBytes, ih]; rfl

theorem readLanding_withFifo (w : Width) (l : Landing) :
    readLanding cpu w l (s.withFifo b) = readLanding cpu w l s := by
  cases l <;> rfl

theorem writeLanding_withFifo (addr : Word) (w : Width) (v : Word) (l : Landing) :
    writeLanding cpu addr w v l (s.withFifo b) = (writeLanding cpu addr w v l s).withFifo b := by
  cases l with
  | register r ea => rfl
  | memory ea => exact storeBytes_withFifo cpu b s ea v w.bytes
  | port => rfl
  | unknown => exact forgetBytes_withFifo cpu b s _ _

theorem afterUnit_withFifo (p : Plan) (l1 l2 : Landing) :
    afterUnit cpu ch p l1 l2 (s.withFifo b) = (afterUnit cpu ch p l1 l2 s).withFifo b := by
  simp only [afterUnit, readLanding_withFifo, withFifo_chan, emit_withFifo, draw_withFifo, writeLanding_withFifo]
  rfl

end WithFifo

/-- A burst does not read the FIFO's answer. -/
theorem copyUnits_withFifo {cpu : Cpu} {ch : Chan} {p : Plan} {n : Nat} {s t : State}
    (h : copyUnits cpu ch p n s = .next t) (b : Bool) :
    copyUnits cpu ch p n (s.withFifo b) = .next (t.withFifo b) := by
  induction n generalizing s with
  | zero => simp only [copyUnits, Host.Outcome.next.injEq] at h ⊢; rw [h]
  | succ n ih =>
    simp only [copyUnits, andThen_next] at h ⊢
    obtain ⟨u, hu, ht⟩ := h
    obtain ⟨l1, l2, h1, h2, rfl⟩ := copyUnit_next.mp hu
    exact ⟨_, copyUnit_next.mpr ⟨l1, l2, h1, h2, rfl⟩, by rw [afterUnit_withFifo]; exact ih ht⟩

end Sys2Proof.Machine
end

section
/-! The burst of a DISPATCH: what it leaves for the bookkeeping (R183, R199). -/

namespace Sys2Proof.Machine

/-- A burst sends no schedule request: its units only access memory (R199). -/
theorem copyUnits_schedules {cpu : Cpu} {ch : Chan} {p : Plan} {n : Nat} {s t : State}
    (h : copyUnits cpu ch p n s = .next t) : schedules t.trace = schedules s.trace :=
  copyUnits_induct (fun u => schedules u.trace = schedules s.trace)
    (fun u l1 l2 hu => by simpa only [afterUnit_trace, schedules] using hu) h rfl

/-- A burst leaves the ArithmeticUnit unless a unit is written to one of its registers (R202). -/
theorem copyUnits_au {cpu : Cpu} {ch : Chan} {p : Plan} {n : Nat} {s t : State} (h : copyUnits cpu ch p n s = .next t)
    (hno : ∀ i, i < n → ∀ r ea,
      landing s.cfg cpu ((s.chan cpu ch).currentDst + BitVec.ofNat 32 i * p.dstStep) p.unit ≠ .ok (.register r ea)) :
    t.au = s.au := by
  induction n generalizing s with
  | zero => simp only [copyUnits, Host.Outcome.next.injEq] at h; rw [h]
  | succ n ih =>
    simp only [copyUnits, andThen_next] at h
    obtain ⟨u, hu, ht⟩ := h
    obtain ⟨l1, l2, h1, h2, rfl⟩ := copyUnit_next.mp hu
    have hfirst : (afterUnit cpu ch p l1 l2 s).au = s.au := by
      cases l2 with
      | register r ea => exact absurd h2 (by simpa using hno 0 (by omega) r ea)
      | memory ea => simp [afterUnit, advance, writeLanding]
      | port => rfl
      | unknown => simp [afterUnit, advance, writeLanding]
    rw [ih ht fun i hi r ea => ?_, hfirst]
    simpa [step_address] using hno (i + 1) (by omega) r ea

/-- The state `u` in which a DISPATCH from `s` has taken its task and run its burst, with the bookkeeping still to come. -/
structure BurstEnd (cpu : Cpu) (ch : Chan) (s u : State) : Prop where
  setting : SameSetting s u
  chan : ∀ d h, u.chan d h =
    if d = cpu ∧ h = ch then movedChannel (s.chan cpu ch) (planOf s cpu ch) (planOf s cpu ch).copies else s.chan d h
  tasks : ∀ d h, u.tasks d h = if d = cpu ∧ h = ch then s.tasks cpu ch - 1 else s.tasks d h
  irqs_eq : irqs u.trace = irqs s.trace
  schedules_eq : schedules u.trace = schedules s.trace

section BurstEnd
variable {cpu : Cpu} {ch : Chan} {s u : State}

theorem burstEnd_of_copyUnits
    (h : copyUnits cpu ch (planOf s cpu ch) (planOf s cpu ch).copies (takeTask cpu ch s) = .next u) :
    BurstEnd cpu ch s u := by
  obtain ⟨hset, hpend, -, hchan, hirq⟩ := copyUnits_frame h
  have hsched := copyUnits_schedules h
  refine ⟨hset, hchan, fun d k => ?_, hirq, hsched⟩
  rw [State.tasks, hpend]
  exact setTasks_tasks s cpu d ch k _

theorem BurstEnd.chan_self (h : BurstEnd cpu ch s u) :
    u.chan cpu ch = movedChannel (s.chan cpu ch) (planOf s cpu ch) (planOf s cpu ch).copies := by
  simp [h.chan]

theorem BurstEnd.tasks_succ (h : BurstEnd cpu ch s u) (hpend : Pending s cpu ch) : u.tasks cpu ch + 1 = s.tasks cpu ch := by
  rw [h.tasks, if_pos ⟨rfl, rfl⟩, Nat.sub_add_cancel hpend]

theorem BurstEnd.stops_iff (h : BurstEnd cpu ch s u) :
    StopsAfterStep1 cpu ch (s.chan cpu ch).control (planOf s cpu ch).moved u ↔ endsEarly s cpu ch := by
  obtain ⟨hcfg, -, hfifo, -⟩ := h.setting
  rw [StopsAfterStep1, h.chan_self, hcfg, hfifo]
  rfl

end BurstEnd

/-- A DISPATCH that runs is a burst and then the bookkeeping (R183). -/
theorem dispatch_of_runs {cpu : Cpu} {ch : Chan} {s : State} (h : Runs s cpu ch) :
    ∃ u, BurstEnd cpu ch s u
      ∧ exec (.dispatch cpu ch) s = .next (bookkeeping cpu ch (s.chan cpu ch).control (planOf s cpu ch).moved u) := by
  obtain ⟨hpend, hlands⟩ := h
  obtain ⟨u, hu⟩ := (copyUnits_completes (s := takeTask cpu ch s)).mpr hlands
  exact ⟨u, burstEnd_of_copyUnits hu, execDispatch_next.mpr ⟨Nat.ne_of_gt hpend, u, hu, rfl⟩⟩

/-- A burst never moves more units than remain (R189, R190). -/
theorem moved_le_remainingWords (s : State) (cpu : Cpu) (ch : Chan) :
    (planOf s cpu ch).moved.toNat ≤ (s.chan cpu ch).remainingWords.toNat := by
  unfold planOf
  simp only
  split
  · exact Nat.zero_le _
  · simp only [generalPlan, burstLength]
    split
    · split
      · rw [BitVec.toNat_ofNat]
        exact (Nat.mod_le _ _).trans (Nat.min_le_left _ _)
      · exact le_rfl
    · exact le_rfl

/-- The channel that step 1 leaves after the burst (R188, R190). -/
theorem BurstEnd.countDown_chan {cpu : Cpu} {ch : Chan} {s u : State} (h : BurstEnd cpu ch s u) (moved : BitVec 21) :
    (countDown cpu ch (s.chan cpu ch).control moved u).chan cpu ch =
      { s.chan cpu ch with
        currentSrc := unitSrc s cpu ch (planOf s cpu ch).copies
        currentDst := unitDst s cpu ch (planOf s cpu ch).copies
        remainingWords :=
          if ctlTrigMode (s.chan cpu ch).control = s.cfg.modeGxfifo then (s.chan cpu ch).remainingWords - moved
          else (s.chan cpu ch).remainingWords } := by
  rw [countDown_chan_self, h.chan_self, h.setting.1]
  rfl

end Sys2Proof.Machine
end

section
/-! DISPATCH: the GXFIFO continuation, the repeat, the completion interrupt, and what a burst never does (R190, R191, R193,
R199). -/

namespace Sys2Proof.Machine

/- The model's step 2 has the name that belongs to the second theorem here, so the four stand in a namespace of their own. -/
namespace Transfer

/-- Settles O35: an early end is `bookkeeping_of_stops`; otherwise step 2 reloads the count or step 3 leaves it as step 1
counted it down. -/
theorem gxfifoContinuation : Obligations.GxfifoContinuation := by
  intro cpu ch s hruns hmode
  obtain ⟨u, hend, hexec⟩ := dispatch_of_runs hruns
  have hmoved := moved_le_remainingWords s cpu ch
  have hleft := BitVec.toNat_sub_of_le (BitVec.le_def.mpr hmoved)
  have htasks := hend.tasks_succ hruns.1
  have hchan := hend.countDown_chan (planOf s cpu ch).moved
  rw [if_pos hmode] at hchan
  refine ⟨_, hexec, hmoved, fun hne hgo => ?_, fun hno => ?_⟩
  · rw [bookkeeping_of_stops (hend.stops_iff.mpr ⟨hmode, hne.symm, hgo⟩), hend.setting.2.2.1]
    split
    · rw [schedule_chan, hchan]
      exact ⟨hleft, rfl, rfl, rfl, by simp [htasks], by rw [schedule_trace, countDown_trace]; exact hend.irqs_eq⟩
    · rw [hchan]
      exact ⟨hleft, rfl, rfl, rfl, by simp [htasks], by rw [countDown_trace, hend.irqs_eq]⟩
  · have hgoes : ¬endsEarly s cpu ch := fun ⟨_, hne, hgo⟩ =>
      hno.elim (fun heq => hne heq.symm) fun ⟨hf, hh⟩ => by simp [hf, hh] at hgo
    rw [bookkeeping_of_not_stops (mt hend.stops_iff.mp hgoes)]
    refine ⟨fun hrep => ?_, fun hrep => ?_⟩
    · simp [repeatOrDisable_of_repeat hrep]
    · simp only [repeatOrDisable_of_not_repeat hrep, finishIrq_chan, disable_chan, hchan, and_self, if_true,
        ctlEnable_clearEnable, and_true]
      exact hleft

/-- Settles O36: the dispatch is the burst, the count-down, the reload and the interrupt. -/
theorem repeatReload : Obligations.RepeatReload := by
  intro cpu ch s hruns hgoes hrep
  obtain ⟨u, hend, hexec⟩ := dispatch_of_runs hruns
  obtain ⟨hcfg, -, hfifo, -⟩ := hend.setting
  have htasks := hend.tasks_succ hruns.1
  have hchan := hend.countDown_chan (planOf s cpu ch).moved
  refine ⟨_, hexec, ?_⟩
  rw [bookkeeping_of_not_stops (mt hend.stops_iff.mp hgoes), repeatOrDisable_of_repeat hrep]
  simp only [finishIrq_chan, repeatReload_chan, hchan, finishIrq_tasks, repeatReload_tasks, countDown_tasks, countDown_cfg,
    countDown_fifoHalfEmpty, hcfg, hfifo, true_and, and_self, if_true, beq_iff_eq]
  have htask : (if ctlTrigMode (s.chan cpu ch).control = s.cfg.modeGxfifo ∧ s.fifoHalfEmpty = true
        then u.tasks cpu ch + 1 else u.tasks cpu ch) + 1
      = s.tasks cpu ch
        + if ctlTrigMode (s.chan cpu ch).control = s.cfg.modeGxfifo ∧ s.fifoHalfEmpty = true then 1 else 0 := by
    rw [← htasks]
    split <;> rfl
  exact ⟨rfl, rfl, htask⟩

/-- Settles O38: what the bookkeeping sends out is `bookkeeping_trace`, and the burst raises no line. -/
theorem completionInterrupt : Obligations.CompletionInterrupt := by
  intro cpu ch s hruns
  obtain ⟨u, hend, hexec⟩ := dispatch_of_runs hruns
  obtain ⟨m, n, htrace, hraised, hnone⟩ :=
    bookkeeping_trace cpu ch (s.chan cpu ch).control (planOf s cpu ch).moved u
  rw [hend.stops_iff, hend.chan_self] at hraised hnone
  refine ⟨_, hexec, fun hgoes hirq => ?_, fun hno => ?_⟩
  · rw [htrace, irqs_closingEvents, hend.irqs_eq, hraised hgoes hirq]
    exact ⟨rfl, rfl⟩
  · rw [htrace, irqs_closingEvents, hend.irqs_eq, hnone hno]
    rfl

/-- Settles O41: the burst moves the working addresses only (`BurstEnd`), and the bookkeeping writes, asks for and raises
nothing but its own channel's. -/
theorem burstNeverDoes : Obligations.BurstNeverDoes := by
  intro cpu ch s t h
  obtain ⟨hpend, u, hu, rfl⟩ := execDispatch_next.mp h
  have hend := burstEnd_of_copyUnits hu
  obtain ⟨hcfg, hcompat, hfifo, hinbox⟩ := hend.setting
  obtain ⟨hsrc, hdst, -, hcontrol⟩ :=
    (bookkeeping_chan cpu ch (s.chan cpu ch).control (planOf s cpu ch).moved u cpu ch).1 ⟨rfl, rfl⟩
  rw [hend.chan_self] at hsrc hdst hcontrol
  obtain ⟨m, n, htrace, -⟩ := bookkeeping_trace cpu ch (s.chan cpu ch).control (planOf s cpu ch).moved u
  refine ⟨hsrc, hdst, fun i hi => ?_, fun d k hne => ?_, ?_, ⟨n, ?_⟩, ⟨m, ?_⟩, fun hno => ?_, fun hmode b => ?_⟩
  · rcases hcontrol with hsame | hclear
    · rw [hsame]; rfl
    · rw [hclear, clearEnable_getLsbD, if_neg hi]; rfl
  · rw [← not_and_or] at hne
    rw [bookkeeping_tasks_other hne, (bookkeeping_chan cpu ch _ _ u d k).2 hne, hend.chan, hend.tasks,
      if_neg hne, if_neg hne]
    exact ⟨rfl, rfl⟩
  · exact ⟨(bookkeeping_cfg ..).trans hcfg, (bookkeeping_compat ..).trans hcompat,
      (bookkeeping_fifoHalfEmpty ..).trans hfifo, (bookkeeping_inbox ..).trans hinbox⟩
  · rw [htrace, schedules_closingEvents, hend.schedules_eq]
  · rw [htrace, irqs_closingEvents, hend.irqs_eq]
  · rw [bookkeeping_au, copyUnits_au hu hno]
    rfl
  · exact execDispatch_next.mpr ⟨hpend, u.withFifo b, copyUnits_withFifo hu b,
      (bookkeeping_withFifo cpu ch b u (planOf s cpu ch).moved (hcfg ▸ hmode)).symm⟩

end Transfer

end Sys2Proof.Machine
end

section
/-! Addresses and lanes of a register access, and the register that stands at a slot (R52, R82, R85). -/

namespace Sys2Proof.Machine

/-! The slot and the lane of an address. -/

theorem laneOf_toNat (addr : Word) : (laneOf addr).toNat = addr.toNat % 4 := by
  simp [laneOf]

theorem slotOf_or_laneOf (addr : Word) : slotOf addr ||| (laneOf addr).setWidth 32 = addr := by
  have hlow : (laneOf addr).setWidth 32 = addr &&& 3#32 := by
    apply BitVec.eq_of_toNat_eq
    rw [BitVec.toNat_setWidth, laneOf_toNat, BitVec.toNat_and, BitVec.toNat_ofNat]
    exact (Nat.mod_eq_of_lt (by omega)).trans (Nat.and_two_pow_sub_one_eq_mod addr.toNat 2).symm
  rw [hlow, slotOf, ← BitVec.and_or_distrib_left,
    show 0xFFFFFFFC#32 ||| 3#32 = BitVec.allOnes 32 from by decide, BitVec.and_allOnes]

theorem slotOf_toNat (addr : Word) : (slotOf addr).toNat = addr.toNat - addr.toNat % 4 := by
  have hdisj : slotOf addr &&& (laneOf addr).setWidth 32 = 0#32 := by
    have hk : ∀ k : BitVec 2, 0xFFFFFFFC#32 &&& k.setWidth 32 = 0#32 := by decide
    rw [slotOf, BitVec.and_assoc, hk, BitVec.and_zero]
  have hsum : slotOf addr + (laneOf addr).setWidth 32 = addr := by
    rw [BitVec.add_eq_or_of_and_eq_zero _ _ hdisj, slotOf_or_laneOf]
  have hlow : ((laneOf addr).setWidth 32).toNat = addr.toNat % 4 := by
    rw [BitVec.toNat_setWidth, laneOf_toNat]; omega
  rw [eq_sub_of_add_eq hsum, BitVec.toNat_sub_of_le (by rw [BitVec.le_def, hlow]; omega), hlow]

/-! The two lane decoders: what they answer, and that the access types hold exactly what they answer (R55, R82). -/

/-- The `8w` data bits of a write, zero-extended. -/
def dataBits (w : Width) (data : Word) : Word := BitVec.ofNat 32 (data.toNat % 2 ^ (8 * w.bytes))

@[simp] theorem dataBits_word (data : Word) : dataBits .word data = data := by
  simp [dataBits, Width.bytes, Nat.mod_eq_of_lt data.isLt]

@[simp] theorem dataBits_half (data : Word) : dataBits .half data = (data.setWidth 16).setWidth 32 := by
  apply BitVec.eq_of_toNat_eq
  simp [dataBits, Width.bytes]

@[simp] theorem dataBits_byte (data : Word) : dataBits .byte data = (data.setWidth 8).setWidth 32 := by
  apply BitVec.eq_of_toNat_eq
  simp [dataBits, Width.bytes]

theorem readLane_sound {c : Config} {w : Width} {k : BitVec 2} {a : RAccess} (h : readLane c w k = .ok a) :
    a.admitted c = true ∧ a.width = w ∧ a.lane = k := by
  cases w <;> simp only [readLane] at h <;> split_ifs at h <;> cases h <;>
    simp_all [RAccess.admitted, RAccess.width, RAccess.lane]

theorem writeLane_sound {c : Config} {w : Width} {k : BitVec 2} {data : Word} {a : WAccess}
    (h : writeLane c w k data = .ok a) :
    a.admitted c = true ∧ a.width = w ∧ a.lane = k ∧ a.data = dataBits w data := by
  cases w <;> simp only [writeLane] at h <;> split_ifs at h <;> cases h <;>
    simp_all [WAccess.admitted, WAccess.width, WAccess.lane, WAccess.data]

theorem readLane_complete {c : Config} {a : RAccess} (h : a.admitted c = true) : readLane c a.width a.lane = .ok a := by
  cases a with
  | word => rfl
  | half upper => cases upper <;> rfl
  | byte k => exact if_pos h

theorem writeLane_complete {c : Config} {a : WAccess} (h : a.admitted c = true) :
    writeLane c a.width a.lane a.data = .ok a := by
  cases a with
  | word data => rfl
  | half upper data => cases upper <;> simp [writeLane, WAccess.width, WAccess.lane, WAccess.data]
  | byte k data =>
    have hbyte : c.byteAccess = true := h
    simp [writeLane, WAccess.width, WAccess.lane, WAccess.data, hbyte]

/-- What a lane decoder answers an access of width `w` in lane `k`: an unaligned one is misaligned, a byte is refused where
bytes are not admitted, and there is nothing else to refuse (R55; log 27). -/
inductive LaneAnswer (c : Config) (w : Width) (k : BitVec 2) {α : Type} : Except Reject α → Prop
  | misaligned (hk : k.toNat % w.bytes ≠ 0) : LaneAnswer c w k (.error .misaligned)
  | byteAccess (hw : w = .byte) (hc : c.byteAccess = false) : LaneAnswer c w k (.error .byteAccess)
  | access (hk : k.toNat % w.bytes = 0) (hc : w = .byte → c.byteAccess = true) (a : α) : LaneAnswer c w k (.ok a)

theorem half_aligned_iff (k : BitVec 2) : k.toNat % 2 = 0 ↔ k = 0#2 ∨ k = 2#2 := by
  revert k; decide

theorem word_aligned_iff (k : BitVec 2) : k.toNat % 4 = 0 ↔ k = 0#2 := by
  revert k; decide

theorem readLane_answer (c : Config) (w : Width) (k : BitVec 2) : LaneAnswer c w k (readLane c w k) := by
  have hhalf := half_aligned_iff k
  have hword := word_aligned_iff k
  cases w <;> simp only [readLane] <;> split_ifs <;> constructor <;> simp_all [Width.bytes, Nat.mod_one]

theorem writeLane_answer (c : Config) (w : Width) (k : BitVec 2) (data : Word) :
    LaneAnswer c w k (writeLane c w k data) := by
  have hhalf := half_aligned_iff k
  have hword := word_aligned_iff k
  cases w <;> simp only [writeLane] <;> split_ifs <;> constructor <;> simp_all [Width.bytes, Nat.mod_one]

/-! The register that stands at a slot (R85). -/

theorem regAt_some {c : Config} {cpu : Cpu} {slot : Word} {id : RegId} (h : regAt c cpu slot = some id) :
    c.regMap.get id = slot ∧ id.reachable c cpu = true := by
  simpa using List.find?_some h

theorem regAt_none_iff {c : Config} {cpu : Cpu} {slot : Word} :
    regAt c cpu slot = none ↔ ¬∃ id, c.regMap.get id = slot ∧ id.reachable c cpu = true := by
  simp [regAt, Laws.EncodeSlot.mem_all]

/-- Registers of a well-formed map stand at different addresses (R85). -/
theorem RegMap.get_injective {m : RegMap} (h : m.wf = true) {a b : RegId} (hab : m.get a = m.get b) : a = b := by
  have ha := List.all_eq_true.mp h a (Laws.EncodeSlot.mem_all a)
  simp only [Bool.and_eq_true, List.all_eq_true] at ha
  simpa [hab] using ha.2 b (Laws.EncodeSlot.mem_all b)

theorem regAt_get {c : Config} {cpu : Cpu} {id : RegId} (h : c.regMap.wf = true) (hid : id.reachable c cpu = true) :
    regAt c cpu (c.regMap.get id) = some id := by
  cases hr : regAt c cpu (c.regMap.get id) with
  | none => exact absurd ⟨id, rfl, hid⟩ (regAt_none_iff.mp hr)
  | some id' => rw [RegMap.get_injective h (regAt_some hr).1]

/-! The operation of a register access (R82, R85). -/

@[simp] theorem form_ofRead (cpu : Cpu) (a : RAccess) (id : RegId) : (Instr.ofRead cpu a id).form = .read id cpu a := by
  cases id with
  | au r => cases r <;> rfl
  | sad ch => cases ch <;> rfl
  | dad ch => cases ch <;> rfl
  | cnt ch => cases ch <;> rfl

/-- The operation of a format: the inverse of `Instr.form`. -/
def instrOfForm : Form → Instr
  | .write id cpu a => Instr.ofWrite cpu a id
  | .read id cpu a => Instr.ofRead cpu a id
  | .trigger cpu mode m => .trigger cpu mode m
  | .dispatch cpu ch => .dispatch cpu ch
  | .reset => .reset

theorem instrOfForm_form (i : Instr) : instrOfForm i.form = i := by
  cases i <;> rfl

/-- What an access answers, from the answer for its lane and the register at its slot. -/
def accessAnswer {α : Type} (lane : Except Reject α) (reg : Option RegId) (op : α → RegId → Instr) : Except Reject Instr :=
  match lane, reg with
  | .error e, _ => .error e
  | .ok _, none => .error .notThisBlock
  | .ok a, some id => .ok (op a id)

theorem decode_regw (c : Config) (cpu : Cpu) (addr : Word) (w : Width) (data : Word) :
    decode c (.regw cpu addr w data) =
      accessAnswer (writeLane c w (laneOf addr) data) (regAt c cpu (slotOf addr)) (Instr.ofWrite cpu) := by
  simp only [decode]
  cases writeLane c w (laneOf addr) data <;> cases regAt c cpu (slotOf addr) <;> rfl

theorem decode_regr (c : Config) (cpu : Cpu) (addr : Word) (w : Width) :
    decode c (.regr cpu addr w) =
      accessAnswer (readLane c w (laneOf addr)) (regAt c cpu (slotOf addr)) (Instr.ofRead cpu) := by
  simp only [decode]
  cases readLane c w (laneOf addr) <;> cases regAt c cpu (slotOf addr) <;> rfl

theorem accessAnswer_ok {α : Type} {lane : Except Reject α} {reg : Option RegId} {op : α → RegId → Instr} {i : Instr} :
    accessAnswer lane reg op = .ok i ↔ ∃ a id, lane = .ok a ∧ reg = some id ∧ i = op a id := by
  cases lane <;> cases reg <;> simp [accessAnswer, eq_comm]

end Sys2Proof.Machine
end

section
/-! The decoder and the encoder (R82, R84, R85, R88). -/

namespace Sys2Proof.Machine

/-- An access that decodes is the encoding of its operation: the slot's register, the lane, the width and the data bits. -/
theorem encode_ofWrite_of_decode {c : Config} {cpu : Cpu} {addr : Word} {w : Width} {data : Word} {i : Instr}
    (h : decode c (.regw cpu addr w data) = .ok i) : encode c i = .regw cpu addr w (dataBits w data) := by
  obtain ⟨a, id, hlane, hreg, rfl⟩ := accessAnswer_ok.mp ((decode_regw ..).symm.trans h)
  obtain ⟨-, hw, hk, hd⟩ := writeLane_sound hlane
  rw [encode_ofWrite, addrOf, (regAt_some hreg).1, hk, slotOf_or_laneOf, hw, hd]

theorem encode_ofRead_of_decode {c : Config} {cpu : Cpu} {addr : Word} {w : Width} {i : Instr}
    (h : decode c (.regr cpu addr w) = .ok i) : encode c i = .regr cpu addr w := by
  obtain ⟨a, id, hlane, hreg, rfl⟩ := accessAnswer_ok.mp ((decode_regr ..).symm.trans h)
  obtain ⟨-, hw, hk⟩ := readLane_sound hlane
  rw [encode, form_ofRead]
  simp only
  rw [addrOf, (regAt_some hreg).1, hk, slotOf_or_laneOf, hw]

/-- Settles O3: an access by the soundness of the lane decoder and of the register lookup; an event stands in its request. -/
theorem encodeReversesDecode : Obligations.EncodeReversesDecode := by
  intro c i
  refine ⟨fun _ _ _ _ h => encode_ofWrite_of_decode h, fun _ _ _ h => encode_ofRead_of_decode h, ?_, ?_, ?_⟩
  · rintro cpu mode m ⟨⟩; rfl
  · rintro cpu ch ⟨⟩; rfl
  · rintro ⟨⟩; rfl

theorem decode_wf {c : Config} {r : Request} {i : Instr} (h : decode c r = .ok i) : i.wf c = true := by
  cases r with
  | regw cpu addr w data =>
    obtain ⟨a, id, hlane, hreg, rfl⟩ := accessAnswer_ok.mp ((decode_regw ..).symm.trans h)
    rw [Instr.wf, form_ofWrite, Form.wf, (regAt_some hreg).2, (writeLane_sound hlane).1]; rfl
  | regr cpu addr w =>
    obtain ⟨a, id, hlane, hreg, rfl⟩ := accessAnswer_ok.mp ((decode_regr ..).symm.trans h)
    rw [Instr.wf, form_ofRead, Form.wf, (regAt_some hreg).2, (readLane_sound hlane).1]; rfl
  | trigger cpu mode m => cases h; rfl
  | dispatch cpu ch => cases h; rfl
  | reset => cases h; rfl
  | malformed e => cases h

/-- Settles O4: `decode_wf` of the word's request. -/
theorem decodedIsWellFormed : Obligations.DecodedIsWellFormed := fun _ _ _ h => decode_wf h

/-- Encoding is undone by decoding where the registers stand at distinct multiples of 4 (R84, R85). -/
theorem decode_encode {c : Config} {i : Instr} (hmap : c.regMap.wf = true) (hi : i.wf c = true) :
    decode c (encode c i) = .ok i := by
  rw [← instrOfForm_form i]
  rw [Instr.wf] at hi
  cases hf : i.form with
  | write id cpu a =>
    rw [hf, Form.wf, Bool.and_eq_true] at hi
    have hslot := Laws.EncodeSlot.aligned hmap id
    rw [instrOfForm, encode_ofWrite, decode_regw, addrOf, Laws.EncodeSlot.slotOf_or hslot, Laws.EncodeSlot.laneOf_or hslot,
      writeLane_complete hi.2, regAt_get hmap hi.1, accessAnswer]
  | read id cpu a =>
    rw [hf, Form.wf, Bool.and_eq_true] at hi
    have hslot := Laws.EncodeSlot.aligned hmap id
    rw [instrOfForm, encode, form_ofRead]
    simp only
    rw [decode_regr, addrOf, Laws.EncodeSlot.slotOf_or hslot, Laws.EncodeSlot.laneOf_or hslot,
      readLane_complete hi.2, regAt_get hmap hi.1, accessAnswer]
  | trigger cpu mode m => rfl
  | dispatch cpu ch => rfl
  | reset => rfl

/-! The numbering of requests as words (log 1). -/

@[simp] theorem ofCode_code_cpu (cpu : Cpu) : Cpu.ofCode cpu.code = some cpu := by
  cases cpu <;> rfl

@[simp] theorem ofCode_code_width (w : Width) : Width.ofCode w.code = some w := by
  cases w <;> rfl

@[simp] theorem ofCode_code_chan (ch : Chan) : Chan.ofCode ch.code = some ch := by
  cases ch <;> rfl

section PackWord
variable (lo mid : Word) (format cpu aux : Byte)

@[simp] theorem packWord_lo : (packWord lo mid format cpu aux).extractLsb' 0 32 = lo :=
  BitVec.extractLsb'_append_eq_right

@[simp] theorem packWord_mid : (packWord lo mid format cpu aux).extractLsb' 32 32 = mid := by
  rw [packWord, BitVec.extractLsb'_append_eq_of_le (by decide), BitVec.extractLsb'_append_eq_right]

@[simp] theorem packWord_format : (packWord lo mid format cpu aux).extractLsb' 64 8 = format := by
  rw [packWord, BitVec.extractLsb'_append_eq_of_le (by decide), BitVec.extractLsb'_append_eq_of_le (by decide),
    BitVec.extractLsb'_append_eq_right]

@[simp] theorem packWord_cpu : (packWord lo mid format cpu aux).extractLsb' 72 8 = cpu := by
  rw [packWord, BitVec.extractLsb'_append_eq_of_le (by decide), BitVec.extractLsb'_append_eq_of_le (by decide),
    BitVec.extractLsb'_append_eq_of_le (by decide), BitVec.extractLsb'_append_eq_right]

@[simp] theorem packWord_aux : (packWord lo mid format cpu aux).extractLsb' 80 8 = aux := by
  rw [packWord, BitVec.extractLsb'_append_eq_of_le (by decide), BitVec.extractLsb'_append_eq_of_le (by decide),
    BitVec.extractLsb'_append_eq_of_le (by decide), BitVec.extractLsb'_append_eq_of_le (by decide),
    BitVec.extractLsb'_append_eq_right]

end PackWord

/-- The word of a request that is not malformed stands for that request. -/
theorem ofWord_toWord {r : Request} (h : ∀ e, r ≠ .malformed e) : Request.ofWord r.toWord = r := by
  cases r with
  | regw cpu addr w data => simp [Request.ofWord, Request.toWord]
  | regr cpu addr w => simp [Request.ofWord, Request.toWord]
  | trigger cpu mode m => simp [Request.ofWord, Request.toWord]
  | dispatch cpu ch => simp [Request.ofWord, Request.toWord]
  | reset => simp [Request.ofWord, Request.toWord]
  | malformed e => exact absurd rfl (h e)

theorem encode_ne_malformed (c : Config) (i : Instr) (e : Reject) : encode c i ≠ .malformed e := by
  rw [encode]
  cases i.form <;> simp

/-- Settles O2: the word stands for the request it numbers, and the request decodes to the operation it encodes. -/
theorem decodeEncodeAgrees : Obligations.DecodeEncodeAgrees := by
  intro c i hmap hi
  rw [decodeWord, encodeWord, ofWord_toWord (encode_ne_malformed c i), decode_encode hmap hi]

end Sys2Proof.Machine
end

section
/-! The three answers to an access, and the operands of the accesses that decode (R52, R55, R82, R85). -/

namespace Sys2Proof.Machine

/-! Which answer an access has. -/

/-- The access is admitted: its width is, and its address is a multiple of its width (R55). -/
def AccessAdmitted (c : Config) (addr : Word) (w : Width) : Prop :=
  addr.toNat % w.bytes = 0 ∧ (w = .byte → c.byteAccess = true)

/-- A register that the CPU reaches stands at the 32-bit slot of the address (R85). -/
def RegisterHere (c : Config) (cpu : Cpu) (addr : Word) : Prop :=
  ∃ id, (c.regMap.get id).toNat = addr.toNat - addr.toNat % 4 ∧ id.reachable c cpu = true

theorem regAt_slotOf_none_iff {c : Config} {cpu : Cpu} {addr : Word} :
    regAt c cpu (slotOf addr) = none ↔ ¬RegisterHere c cpu addr := by
  simp only [regAt_none_iff, RegisterHere, ← slotOf_toNat, BitVec.toNat_inj]

theorem laneOf_mod_bytes (addr : Word) (w : Width) : (laneOf addr).toNat % w.bytes = addr.toNat % w.bytes := by
  have hdvd : w.bytes ∣ 4 := by cases w <;> decide
  rw [laneOf_toNat, Nat.mod_mod_of_dvd _ hdvd]

/-- The answers of an access exclude each other, and each has its condition. -/
theorem accessAnswer_outcomes {c : Config} {cpu : Cpu} {addr : Word} {w : Width} {α : Type} {lane : Except Reject α}
    (op : α → RegId → Instr) (h : LaneAnswer c w (laneOf addr) lane) :
    ((∃ i, accessAnswer lane (regAt c cpu (slotOf addr)) op = .ok i)
        ↔ AccessAdmitted c addr w ∧ RegisterHere c cpu addr)
    ∧ (accessAnswer lane (regAt c cpu (slotOf addr)) op = .error .notThisBlock
        ↔ AccessAdmitted c addr w ∧ ¬RegisterHere c cpu addr)
    ∧ (accessAnswer lane (regAt c cpu (slotOf addr)) op = .error .misaligned ↔ addr.toNat % w.bytes ≠ 0)
    ∧ (accessAnswer lane (regAt c cpu (slotOf addr)) op = .error .byteAccess ↔ w = .byte ∧ c.byteAccess = false) := by
  cases h with
  | misaligned hk =>
    rw [laneOf_mod_bytes] at hk
    have hw : w ≠ .byte := by rintro rfl; exact hk (Nat.mod_one _)
    simp [accessAnswer, AccessAdmitted, hk, hw]
  | byteAccess hw hc =>
    subst hw
    simp [accessAnswer, AccessAdmitted, hc, Width.bytes, Nat.mod_one]
  | access hk hc a =>
    rw [laneOf_mod_bytes] at hk
    have hbyte : ¬(w = .byte ∧ c.byteAccess = false) := fun ⟨hw, hf⟩ => by simp [hc hw] at hf
    have hadm : AccessAdmitted c addr w := ⟨hk, hc⟩
    cases hr : regAt c cpu (slotOf addr) with
    | none => simp [accessAnswer, hk, hadm, hbyte, regAt_slotOf_none_iff.mp hr]
    | some id =>
      have hhere : RegisterHere c cpu addr := by
        by_contra hno
        simp [regAt_slotOf_none_iff.mpr hno] at hr
      simp [accessAnswer, hk, hadm, hbyte, hhere]

/-- Settles O5: a write and a read are answered alike, by the answer for the lane and the register at the slot. -/
theorem accessIsOneOfThree : Obligations.AccessIsOneOfThree := by
  intro c cpu addr w data
  obtain ⟨wok, wnot, wmis, wbyte⟩ :=
    accessAnswer_outcomes (cpu := cpu) (Instr.ofWrite cpu) (writeLane_answer c w (laneOf addr) data)
  obtain ⟨rok, rnot, rmis, rbyte⟩ :=
    accessAnswer_outcomes (cpu := cpu) (Instr.ofRead cpu) (readLane_answer c w (laneOf addr))
  rw [← decode_regw] at wok wnot wmis wbyte
  rw [← decode_regr] at rok rnot rmis rbyte
  exact ⟨wok, rok, wnot, rnot, wmis, rmis, wbyte, rbyte⟩

/-! The operands, as numbers. -/

theorem width_bits_le (w : Width) : 2 ^ (8 * w.bytes) ≤ 2 ^ 32 := by
  cases w <;> decide

theorem laneMask_toNat (w : Width) (k : BitVec 2) :
    (laneMask w k).toNat = (2 ^ (8 * w.bytes) - 1) * 2 ^ (8 * k.toNat) % 2 ^ 32 := by
  have hfit : 2 ^ (8 * w.bytes) - 1 < 2 ^ 32 := by cases w <;> decide
  rw [laneMask, BitVec.toNat_shiftLeft, Nat.shiftLeft_eq, BitVec.toNat_ofNat, Nat.mod_eq_of_lt hfit, laneShift]

theorem dataBits_toNat (w : Width) (data : Word) : (dataBits w data).toNat = data.toNat % 2 ^ (8 * w.bytes) := by
  have hbits : 0 < 2 ^ (8 * w.bytes) := Nat.two_pow_pos _
  exact Nat.mod_eq_of_lt ((Nat.mod_lt _ hbits).trans_le (width_bits_le w))

/-- The read lane takes the `8w` bits from bit `8k` on (R52). -/
theorem readValue_toNat (a : RAccess) (v : Word) :
    (readValue a v).toNat = v.toNat / 2 ^ (8 * a.lane.toNat) % 2 ^ (8 * a.width.bytes) := by
  have hmask : (laneMask a.width 0#2).toNat = 2 ^ (8 * a.width.bytes) - 1 := by
    cases a.width <;> decide
  rw [readValue, BitVec.toNat_and, hmask, Nat.and_two_pow_sub_one_eq_mod, BitVec.toNat_ushiftRight,
    Nat.shiftRight_eq_div_pow, laneShift]

/-- Settles O6: the access that the lane decoder answers has the width, the lane and the data bits of the request. -/
theorem writeOperands : Obligations.WriteOperands := by
  intro c cpu addr w data i h
  obtain ⟨a, id, hlane, hreg, rfl⟩ := accessAnswer_ok.mp ((decode_regw ..).symm.trans h)
  obtain ⟨-, hw, hk, hd⟩ := writeLane_sound hlane
  refine ⟨id, a, rfl, ?_, ?_, ?_⟩
  · rw [(regAt_some hreg).1, slotOf_toNat]
  · rw [maskOf, hw, hk, laneMask_toNat, laneOf_toNat]
  · rw [valueOf, hd, hk, BitVec.toNat_shiftLeft, Nat.shiftLeft_eq, dataBits_toNat, laneShift, laneOf_toNat]

/-- Settles O7: `readValue_toNat` at the width and the lane of the request. -/
theorem readOperands : Obligations.ReadOperands := by
  intro c cpu addr w i h
  obtain ⟨a, id, hlane, hreg, rfl⟩ := accessAnswer_ok.mp ((decode_regr ..).symm.trans h)
  obtain ⟨-, hw, hk⟩ := readLane_sound hlane
  refine ⟨id, a, rfl, hw, ?_, fun v => ?_⟩
  · rw [(regAt_some hreg).1, slotOf_toNat]
  · rw [readValue_toNat, hw, hk, laneOf_toNat]

/-- Settles O1: twelve closed words, each run through the decoder. -/
theorem specWordsDecode : Obligations.SpecWordsDecode := by
  refine ⟨?_, ?_, ?_, ?_, ?_, ?_, ?_, ?_, ?_, ?_, ?_, ?_⟩ <;> rfl

end Sys2Proof.Machine
end

section
/-! What an operation can do, with the operation known: one case for each kind of request (R70, R85). -/

namespace Sys2Proof.Machine

/-- The state an operation ends in, by the operation's kind. -/
inductive Effect (s : State) : Instr → State → Prop
  | writeAu (cpu : Cpu) (a : WAccess) (r : AuReg) :
      Effect s (Instr.ofWrite cpu a (.au r)) (s.withAu (writeAuReg r a s.au))
  | writeSad (cpu : Cpu) (a : WAccess) (ch : Chan) : Effect s (Instr.ofWrite cpu a (.sad ch)) (writeSad cpu ch a s)
  | writeDad (cpu : Cpu) (a : WAccess) (ch : Chan) : Effect s (Instr.ofWrite cpu a (.dad ch)) (writeDad cpu ch a s)
  | writeCnt (cpu : Cpu) (a : WAccess) (ch : Chan) : Effect s (Instr.ofWrite cpu a (.cnt ch)) (writeCnt cpu ch a s)
  | read (cpu : Cpu) (a : RAccess) (id : RegId) (v : Word) : Effect s (Instr.ofRead cpu a id) (respond cpu a v s)
  | trigger (cpu : Cpu) (mode : Word) (m : BitVec 4) :
      Effect s (.trigger cpu mode m) (Chan.all.foldl (triggerChan cpu mode m) s)
  | dispatch (cpu : Cpu) (ch : Chan) (t : State) (h : execDispatch cpu ch s = .next t) : Effect s (.dispatch cpu ch) t
  | reset (t : State) (h : execReset s = .next t) : Effect s .reset t

theorem exec_ofWrite_au (cpu : Cpu) (a : WAccess) (r : AuReg) (s : State) :
    exec (Instr.ofWrite cpu a (.au r)) s = .next (s.withAu (writeAuReg r a s.au)) := by
  simpa only [form_ofWrite] using exec_of_form (Instr.ofWrite cpu a (.au r)) s

theorem exec_ofWrite_cnt (cpu : Cpu) (a : WAccess) (ch : Chan) (s : State) :
    exec (Instr.ofWrite cpu a (.cnt ch)) s = .next (writeCnt cpu ch a s) := by
  simpa only [form_ofWrite] using exec_of_form (Instr.ofWrite cpu a (.cnt ch)) s

/-- The slot value that a register shows to a read (R110 to R118, R135 to R138, R156 to R158). -/
def slotValue (cpu : Cpu) (s : State) : RegId → Word
  | .au r => readAuReg r s.au
  | .sad ch => readSad cpu ch s
  | .dad ch => readDad cpu ch s
  | .cnt ch => readCnt cpu ch s

theorem exec_ofRead (cpu : Cpu) (a : RAccess) (id : RegId) (s : State) :
    exec (Instr.ofRead cpu a id) s = .next (respond cpu a (slotValue cpu s id) s) := by
  have h := exec_of_form (Instr.ofRead cpu a id) s
  rw [form_ofRead] at h
  cases id <;> exact h

theorem effect_of_exec {i : Instr} {s t : State} (h : exec i s = .next t) : Effect s i t := by
  rw [← instrOfForm_form i] at h ⊢
  generalize i.form = f at h ⊢
  cases f with
  | write id cpu a =>
    rw [instrOfForm] at h ⊢
    cases id with
    | au r => rw [exec_ofWrite_au] at h; cases h; exact .writeAu cpu a r
    | sad ch => rw [exec_ofWrite_sad] at h; cases h; exact .writeSad cpu a ch
    | dad ch => rw [exec_ofWrite_dad] at h; cases h; exact .writeDad cpu a ch
    | cnt ch => rw [exec_ofWrite_cnt] at h; cases h; exact .writeCnt cpu a ch
  | read id cpu a =>
    rw [instrOfForm, exec_ofRead] at h
    cases h
    exact .read cpu a id _
  | trigger cpu mode m => cases h; exact .trigger cpu mode m
  | dispatch cpu ch => exact .dispatch cpu ch t h
  | reset => exact .reset t h

/-! What each kind leaves of the setting, of memory and of the trace. -/

section Trigger
variable (cpu : Cpu) (mode : Word) (m : BitVec 4) (s : State)

/-- What TRIGGER at each channel keeps, TRIGGER keeps. -/
theorem foldl_triggerChan_eq {α : Type} (f : State → α) (hf : ∀ s ch, f (triggerChan cpu mode m s ch) = f s) (l : List Chan) :
    f (l.foldl (triggerChan cpu mode m) s) = f s := by
  induction l generalizing s with
  | nil => rfl
  | cons ch l ih => rw [List.foldl_cons, ih, hf]

/-- A number that rises by 1 at each channel `h` triggers rises, over a list of channels, as often as `h` stands in it. -/
theorem foldl_triggerChan_count (f : State → Nat) (d : Cpu) (h : Chan)
    (hf : ∀ s ch, f (triggerChan cpu mode m s ch) =
      f s + if d = cpu ∧ h = ch ∧ triggers cpu mode m ch (s.chan cpu ch).control = true then 1 else 0) (l : List Chan) :
    f (l.foldl (triggerChan cpu mode m) s) =
      f s + if d = cpu ∧ triggers cpu mode m h (s.chan cpu h).control = true then l.count h else 0 := by
  induction l generalizing s with
  | nil => simp
  | cons ch l ih =>
    rw [List.foldl_cons, ih, hf, triggerChan_chan]
    by_cases hc : d = cpu ∧ triggers cpu mode m h (s.chan cpu h).control = true
    · by_cases hh : h = ch
      · subst hh; simp [hc]; omega
      · simp [hc, hh, Ne.symm hh]
    · have hno : ¬(d = cpu ∧ h = ch ∧ triggers cpu mode m ch (s.chan cpu ch).control = true) := by
        rintro ⟨hd, rfl, ht⟩; exact hc ⟨hd, ht⟩
      simp [hc, hno]

theorem count_all (h : Chan) : Chan.all.count h = 1 := by
  cases h <;> rfl

theorem triggerChan_transfers (ch : Chan) : transfers (triggerChan cpu mode m s ch).trace = transfers s.trace := by
  unfold triggerChan; split <;> rfl

theorem triggerChan_irqs (ch : Chan) : irqs (triggerChan cpu mode m s ch).trace = irqs s.trace := by
  unfold triggerChan; split <;> rfl

theorem triggerChan_schedules_count (ch : Chan) (d : Cpu) (h : Chan) :
    (schedules (triggerChan cpu mode m s ch).trace).count (d, h) =
      (schedules s.trace).count (d, h)
        + if d = cpu ∧ h = ch ∧ triggers cpu mode m ch (s.chan cpu ch).control = true then 1 else 0 := by
  unfold triggerChan
  split
  · rename_i ht
    simp only [schedule_trace, schedules, List.count_cons, beq_iff_eq, Prod.mk.injEq, ht, and_true, eq_comm (a := cpu),
      eq_comm (a := ch)]
  · rename_i ht
    simp [ht]

end Trigger

end Sys2Proof.Machine
end

section
/-! What every operation and every step keeps: the setting, the masks, the reserved bits, the canonical form of memory, and
the consistency of the two arithmetic operations (R21, R26, R27, R30, R66, R160). -/

namespace Sys2Proof.Machine

/-! The setting (R66, R232). -/

theorem execDispatch_setting {cpu : Cpu} {ch : Chan} {s t : State} (h : execDispatch cpu ch s = .next t) :
    SameSetting s t := by
  obtain ⟨-, u, hu, rfl⟩ := execDispatch_next.mp h
  obtain ⟨hcfg, hcompat, hfifo, hinbox⟩ := (burstEnd_of_copyUnits hu).setting
  exact ⟨(bookkeeping_cfg ..).trans hcfg, (bookkeeping_compat ..).trans hcompat,
    (bookkeeping_fifoHalfEmpty ..).trans hfifo, (bookkeeping_inbox ..).trans hinbox⟩

theorem foldl_triggerChan_setting (cpu : Cpu) (mode : Word) (m : BitVec 4) (s : State) (l : List Chan) :
    SameSetting s (l.foldl (triggerChan cpu mode m) s) :=
  ⟨foldl_triggerChan_eq cpu mode m s State.cfg (triggerChan_cfg cpu mode m) l,
    foldl_triggerChan_eq cpu mode m s State.compat (triggerChan_compat cpu mode m) l,
    foldl_triggerChan_eq cpu mode m s State.fifoHalfEmpty (triggerChan_fifoHalfEmpty cpu mode m) l,
    foldl_triggerChan_eq cpu mode m s State.inbox (triggerChan_inbox cpu mode m) l⟩

theorem exec_setting {i : Instr} {s t : State} (h : exec i s = .next t) : SameSetting s t := by
  cases effect_of_exec h with
  | writeAu cpu a r => exact ⟨rfl, rfl, rfl, rfl⟩
  | writeSad cpu a ch => exact ⟨rfl, rfl, rfl, rfl⟩
  | writeDad cpu a ch => exact ⟨rfl, rfl, rfl, rfl⟩
  | writeCnt cpu a ch => exact ⟨writeCnt_cfg .., writeCnt_compat .., writeCnt_fifoHalfEmpty .., writeCnt_inbox ..⟩
  | read cpu a id v => exact ⟨rfl, rfl, rfl, rfl⟩
  | trigger cpu mode m => exact foldl_triggerChan_setting cpu mode m s _
  | dispatch cpu ch t hd => exact execDispatch_setting hd
  | reset t hr => cases hr; exact ⟨rfl, rfl, rfl, rfl⟩

/-- What a step that goes on has done, if it is not the end of the run: an operation from a state in which nothing but the
inbox, memory, the FIFO's answer and the draw count can be other than before. -/
theorem step_operation {s t : State} (h : step s = .next t) :
    (Final s ∧ t = s) ∨ ∃ i u, exec i u = .next t ∧ u.au = s.au ∧ u.dma = s.dma ∧ u.cfg = s.cfg ∧ u.compat = s.compat
      ∧ (MemoryWf s → MemoryWf u)
      ∧ (i = .reset → ∃ x rest, s.inbox = x :: rest ∧ decode s.cfg x.request = .ok .reset) := by
  obtain hfinal | ⟨cpu, ch, -, -, hexec⟩ | ⟨x, rest, i, hinbox, hdec, hexec⟩ := step_next.mp h
  · exact .inl hfinal
  · exact .inr ⟨_, _, hexec, rfl, rfl, rfl, rfl, id, nofun⟩
  · exact .inr ⟨i, _, hexec, take_au .., take_dma .., take_cfg .., take_compat .., take_memoryWf s x rest,
      fun hi => ⟨x, rest, hinbox, hi ▸ hdec⟩⟩

/-- Settles O53: no operation changes the setting, nor does the taking of a stimulus or the scheduler's turn. -/
theorem stepKeepsSetting : Obligations.StepKeepsSetting := by
  intro s t h
  obtain ⟨-, rfl⟩ | ⟨i, u, hexec, -, -, hcfg, hcompat, -⟩ := step_operation h
  · exact ⟨rfl, rfl⟩
  · obtain ⟨hc, hp, -⟩ := exec_setting hexec
    exact ⟨hc.trans hcfg, hp.trans hcompat⟩

/-! The masks of the configuration registers (R160). -/

/-- The three configuration registers of one channel keep to their masks. -/
def ChannelMasked (c : Config) (cpu : Cpu) (ch : Chan) (x : Channel) : Prop :=
  x.sourceAddr &&& ~~~sadMask c cpu ch = 0#32 ∧ x.destAddr &&& ~~~dadMask c cpu ch = 0#32
  ∧ x.control &&& ~~~cntMask c cpu ch = 0#32

theorem masked_congr {s t : State} (hdma : t.dma = s.dma) (hcfg : t.cfg = s.cfg) (hs : Masked s) : Masked t := by
  simpa only [Masked, State.chan, hdma, hcfg] using hs

/-- Another channel in the place of one keeps the masks where the new one keeps to its own. -/
theorem masked_of_chan {s t : State} {cpu : Cpu} {ch : Chan} (hs : Masked s) (hcfg : t.cfg = s.cfg)
    (hself : ChannelMasked s.cfg cpu ch (t.chan cpu ch))
    (hother : ∀ d k, ¬(d = cpu ∧ k = ch) → t.chan d k = s.chan d k) : Masked t := by
  intro d k
  rw [hcfg]
  by_cases hd : d = cpu ∧ k = ch
  · obtain ⟨rfl, rfl⟩ := hd
    exact hself
  · rw [hother d k hd]
    exact hs d k

theorem clearEnable_masked {c m : Word} (h : c &&& ~~~m = 0#32) : clearEnable c &&& ~~~m = 0#32 := by
  rw [clearEnable, BitVec.and_assoc, BitVec.and_comm _ (~~~m), ← BitVec.and_assoc, h, BitVec.zero_and]

theorem writeSad_masked {s : State} (hs : Masked s) (cpu : Cpu) (ch : Chan) (a : WAccess) : Masked (writeSad cpu ch a s) := by
  obtain ⟨hsad, hdad, hcnt⟩ := hs cpu ch
  refine masked_of_chan hs rfl ?_ fun d k hd => by rw [writeSad, setChan_chan, if_neg hd]
  rw [writeSad_chan_self]
  exact ⟨merge_masked _ _ hsad, hdad, hcnt⟩

theorem writeDad_masked {s : State} (hs : Masked s) (cpu : Cpu) (ch : Chan) (a : WAccess) : Masked (writeDad cpu ch a s) := by
  obtain ⟨hsad, hdad, hcnt⟩ := hs cpu ch
  refine masked_of_chan hs rfl ?_ fun d k hd => by rw [writeDad, setChan_chan, if_neg hd]
  rw [writeDad_chan_self]
  exact ⟨hsad, merge_masked _ _ hdad, hcnt⟩

/-- A control write merges the control register, keeps both addresses, and reloads the shadow registers at the 0 to 1
transition of `enable` only (R153). -/
theorem writeCnt_chan_self (cpu : Cpu) (ch : Chan) (a : WAccess) (s : State) :
    (writeCnt cpu ch a s).chan cpu ch =
      (let c := s.chan cpu ch
       let new := mergedControl s.cfg cpu ch a c.control
       if ctlEnable c.control = false ∧ ctlEnable new = true then reloadShadow { c with control := new }
       else { c with control := new }) := by
  rw [writeCnt_chan, if_pos ⟨rfl, rfl⟩]

theorem writeCnt_config (cpu : Cpu) (ch : Chan) (a : WAccess) (s : State) :
    ((writeCnt cpu ch a s).chan cpu ch).sourceAddr = (s.chan cpu ch).sourceAddr
    ∧ ((writeCnt cpu ch a s).chan cpu ch).destAddr = (s.chan cpu ch).destAddr
    ∧ ((writeCnt cpu ch a s).chan cpu ch).control = mergedControl s.cfg cpu ch a (s.chan cpu ch).control := by
  rw [writeCnt_chan_self]
  simp only
  split <;> exact ⟨rfl, rfl, rfl⟩

theorem writeCnt_chan_other {cpu d : Cpu} {ch k : Chan} (a : WAccess) (s : State) (hd : ¬(d = cpu ∧ k = ch)) :
    (writeCnt cpu ch a s).chan d k = s.chan d k := by
  rw [writeCnt_chan, if_neg hd]

theorem writeCnt_masked {s : State} (hs : Masked s) (cpu : Cpu) (ch : Chan) (a : WAccess) : Masked (writeCnt cpu ch a s) := by
  obtain ⟨hsad, hdad, hcnt⟩ := hs cpu ch
  obtain ⟨h1, h2, h3⟩ := writeCnt_config cpu ch a s
  refine masked_of_chan hs (writeCnt_cfg ..) ?_ fun d k hd => writeCnt_chan_other a s hd
  rw [ChannelMasked, h1, h2, h3]
  exact ⟨hsad, hdad, merge_masked _ _ hcnt⟩

/-- What a DISPATCH leaves of the configuration registers: bit 31 of its own control register is all it can change. -/
theorem execDispatch_config {cpu : Cpu} {ch : Chan} {s t : State} (h : execDispatch cpu ch s = .next t) :
    (t.chan cpu ch).sourceAddr = (s.chan cpu ch).sourceAddr ∧ (t.chan cpu ch).destAddr = (s.chan cpu ch).destAddr
    ∧ ((t.chan cpu ch).control = (s.chan cpu ch).control
      ∨ (t.chan cpu ch).control = clearEnable (s.chan cpu ch).control)
    ∧ ∀ d k, ¬(d = cpu ∧ k = ch) → t.chan d k = s.chan d k ∧ t.tasks d k = s.tasks d k := by
  obtain ⟨hsrc, hdst, -, hother, -⟩ := Transfer.burstNeverDoes cpu ch s t h
  obtain ⟨-, u, hu, rfl⟩ := execDispatch_next.mp h
  obtain ⟨-, -, -, hcontrol⟩ :=
    (bookkeeping_chan cpu ch (s.chan cpu ch).control (planOf s cpu ch).moved u cpu ch).1 ⟨rfl, rfl⟩
  rw [(burstEnd_of_copyUnits hu).chan_self] at hcontrol
  exact ⟨hsrc, hdst, hcontrol, fun d k hd => hother d k (not_and_or.mp hd)⟩

theorem execDispatch_masked {cpu : Cpu} {ch : Chan} {s t : State} (h : execDispatch cpu ch s = .next t) (hs : Masked s) :
    Masked t := by
  obtain ⟨hsrc, hdst, hcontrol, hother⟩ := execDispatch_config h
  obtain ⟨hsad, hdad, hcnt⟩ := hs cpu ch
  refine masked_of_chan hs (execDispatch_setting h).1 ?_ fun d k hd => (hother d k hd).1
  rw [ChannelMasked, hsrc, hdst]
  refine ⟨hsad, hdad, ?_⟩
  rcases hcontrol with hsame | hclear
  · rwa [hsame]
  · rw [hclear]
    exact clearEnable_masked hcnt

theorem execReset_masked {s t : State} (h : execReset s = .next t) : Masked t := by
  cases h
  intro cpu ch
  cases cpu <;> cases ch <;> exact ⟨BitVec.zero_and, BitVec.zero_and, BitVec.zero_and⟩

theorem exec_masked {i : Instr} {s t : State} (h : exec i s = .next t) (hs : Masked s) : Masked t := by
  cases effect_of_exec h with
  | writeAu cpu a r => exact hs
  | writeSad cpu a ch => exact writeSad_masked hs cpu ch a
  | writeDad cpu a ch => exact writeDad_masked hs cpu ch a
  | writeCnt cpu a ch => exact writeCnt_masked hs cpu ch a
  | read cpu a id v => exact hs
  | trigger cpu mode m =>
    exact masked_congr (foldl_triggerChan_eq cpu mode m s State.dma (triggerChan_dma cpu mode m) _)
      (foldl_triggerChan_setting cpu mode m s _).1 hs
  | dispatch cpu ch t hd => exact execDispatch_masked hd hs
  | reset t hr => exact execReset_masked hr

/-! The ArithmeticUnit: what every register write keeps, every operation but RESET keeps (R202). -/

theorem execDispatch_keeps_au (P : ArithmeticUnit → Prop) (hP : ∀ r a u, P u → P (writeAuReg r a u)) {cpu : Cpu} {ch : Chan}
    {s t : State} (h : execDispatch cpu ch s = .next t) (hs : P s.au) : P t.au := by
  obtain ⟨-, u, hu, rfl⟩ := execDispatch_next.mp h
  rw [bookkeeping_au]
  refine copyUnits_induct (fun v => P v.au) (fun v l1 l2 hv => ?_) hu hs
  obtain hsame | ⟨r, a, hw⟩ := afterUnit_au cpu ch (planOf s cpu ch) l1 l2 v
  · rwa [hsame]
  · rw [hw]
    exact hP r a v.au hv

theorem exec_keeps_au (P : ArithmeticUnit → Prop) (hP : ∀ r a u, P u → P (writeAuReg r a u)) {i : Instr} {s t : State}
    (h : exec i s = .next t) (hi : i ≠ .reset) (hs : P s.au) : P t.au := by
  cases effect_of_exec h with
  | writeAu cpu a r => exact hP r a s.au hs
  | writeSad cpu a ch => exact hs
  | writeDad cpu a ch => exact hs
  | writeCnt cpu a ch => rwa [writeCnt_au]
  | read cpu a id v => exact hs
  | trigger cpu mode m => rwa [foldl_triggerChan_eq cpu mode m s State.au (triggerChan_au cpu mode m)]
  | dispatch cpu ch t hd => exact execDispatch_keeps_au P hP hd hs
  | reset t hr => exact absurd rfl hi

theorem step_keeps_au (P : ArithmeticUnit → Prop) (hP : ∀ r a u, P u → P (writeAuReg r a u)) {s t : State}
    (h : step s = .next t) (hno : ∀ x rest, s.inbox = x :: rest → decode s.cfg x.request ≠ .ok .reset) (hs : P s.au) :
    P t.au := by
  obtain ⟨-, rfl⟩ | ⟨i, u, hexec, hau, -, -, -, -, hreset⟩ := step_operation h
  · exact hs
  · refine exec_keeps_au P hP hexec (fun hi => ?_) (hau ▸ hs)
    obtain ⟨x, rest, hinbox, hdec⟩ := hreset hi
    exact hno x rest hinbox hdec

/-! The reserved bits and the canonical form of memory. -/

theorem withDiv0_zero_reserved (b : Bool) : withDiv0 0#16 b &&& ~~~divControlBits = 0#16 := by
  cases b <;> decide

theorem resetUnit_reserved (s : State) : ReservedZero (resetUnit s) := by
  have hreset : ReservedZero ArithmeticUnit.reset := by unfold ReservedZero; decide
  unfold resetUnit
  split
  · exact ⟨withDiv0_zero_reserved _, hreset.2⟩
  · exact hreset
  · exact runSqrt_reserved (runDivide_reserved hreset)

theorem exec_reserved {i : Instr} {s t : State} (h : exec i s = .next t) (hs : ReservedZero s.au) : ReservedZero t.au := by
  by_cases hi : i = .reset
  · subst hi
    cases h
    exact resetUnit_reserved s
  · exact exec_keeps_au ReservedZero (fun r a _ hu => writeAuReg_reserved r a hu) h hi hs

theorem memoryWf_congr {s t : State} (hmem : t.mem = s.mem) (hcfg : t.cfg = s.cfg) (hs : MemoryWf s) : MemoryWf t := by
  simpa only [MemoryWf, State.memOf, hmem, hcfg] using hs

/-- An operation that is no DISPATCH leaves memory (R69, R180, R258). -/
theorem exec_mem {i : Instr} {s t : State} (h : exec i s = .next t) (hi : ∀ cpu ch, i ≠ .dispatch cpu ch) :
    t.mem = s.mem := by
  cases effect_of_exec h with
  | writeAu cpu a r => rfl
  | writeSad cpu a ch => rfl
  | writeDad cpu a ch => rfl
  | writeCnt cpu a ch => exact writeCnt_mem ..
  | read cpu a id v => rfl
  | trigger cpu mode m => exact foldl_triggerChan_eq cpu mode m s State.mem (triggerChan_mem cpu mode m) _
  | dispatch cpu ch t hd => exact absurd rfl (hi cpu ch)
  | reset t hr => cases hr; rfl

theorem execDispatch_memoryWf {cpu : Cpu} {ch : Chan} {s t : State} (h : execDispatch cpu ch s = .next t) (hs : MemoryWf s) :
    MemoryWf t := by
  obtain ⟨-, u, hu, rfl⟩ := execDispatch_next.mp h
  have hburst : MemoryWf u := copyUnits_induct MemoryWf (fun v l1 l2 => afterUnit_memoryWf cpu ch _ l1 l2 v) hu hs
  exact memoryWf_congr (bookkeeping_mem ..) (bookkeeping_cfg ..) hburst

theorem exec_memoryWf {i : Instr} {s t : State} (h : exec i s = .next t) (hs : MemoryWf s) : MemoryWf t := by
  by_cases hi : ∃ cpu ch, i = .dispatch cpu ch
  · obtain ⟨cpu, ch, rfl⟩ := hi
    exact execDispatch_memoryWf h hs
  · exact memoryWf_congr (exec_mem h fun cpu ch he => hi ⟨cpu, ch, he⟩) (exec_setting h).1 hs

/-- Settles O50: each of the three parts is kept by every operation, and neither the taking of a stimulus nor the scheduler's
turn touches more than memory, whose form it keeps. -/
theorem stepKeepsInv : Obligations.StepKeepsInv := by
  rintro s t ⟨hmask, hres, hmem⟩ h
  obtain ⟨-, rfl⟩ | ⟨i, u, hexec, hau, hdma, hcfg, -, hwf, -⟩ := step_operation h
  · exact ⟨hmask, hres, hmem⟩
  · exact ⟨exec_masked hexec (masked_congr hdma hcfg hmask), exec_reserved hexec (hau ▸ hres), exec_memoryWf hexec (hwf hmem)⟩

/-! The two consistency invariants (R26, R30). -/

theorem writeDivcnt_consistent {a : WAccess} (ha : a.lane.toNat < 2) (u : ArithmeticUnit) :
    DivConsistent (writeDivcnt a u) := by
  rw [writeDivcnt, if_neg (mt (maskOf16_eq_zero_iff a).mp (by omega))]
  exact runDivide_consistent _

theorem writeSqrtcnt_consistent {a : WAccess} (ha : a.lane.toNat < 2) (u : ArithmeticUnit) :
    SqrtConsistent (writeSqrtcnt a u) := by
  rw [writeSqrtcnt, if_neg (mt (maskOf16_eq_zero_iff a).mp (by omega))]
  exact runSqrt_consistent _

theorem step_of_decode {s : State} {x : Stimulus} {rest : List Stimulus} {i : Instr} (hi : s.inbox = x :: rest)
    (hd : decode s.cfg x.request = .ok i) : step s = exec i (s.take x rest) := by
  simp only [step, hi, hd]

/-- Settles O51: a triggering write ends in the divide operation, and every register write keeps the divider consistent. -/
theorem dividerStaysConsistent : Obligations.DividerStaysConsistent := by
  intro s t h
  refine ⟨fun x rest i hinbox hdec htrig => ?_,
    step_keeps_au DivConsistent (fun r a _ hu => writeAuReg_divConsistent r a hu) h⟩
  rw [step_of_decode hinbox hdec] at h
  obtain ⟨cpu, a, ⟨rfl, ha⟩ | rfl | rfl | rfl | rfl⟩ := htrig <;> cases h
  · exact writeDivcnt_consistent ha _
  all_goals exact runDivide_consistent _

/-- Settles O52: likewise for the square-root operation. -/
theorem squareRootStaysConsistent : Obligations.SquareRootStaysConsistent := by
  intro s t h
  refine ⟨fun x rest i hinbox hdec htrig => ?_,
    step_keeps_au SqrtConsistent (fun r a _ hu => writeAuReg_sqrtConsistent r a hu) h⟩
  rw [step_of_decode hinbox hdec] at h
  obtain ⟨cpu, a, ⟨rfl, ha⟩ | rfl | rfl⟩ := htrig <;> cases h
  · exact writeSqrtcnt_consistent ha _
  all_goals exact runSqrt_consistent _

/-- Settles O49: the reset state's registers are 0 and its memories empty. -/
theorem invAtReset : Obligations.InvAtReset := by
  refine ⟨fun cpu ch => ?_, ?_, reset_memoryWf⟩
  · cases cpu <;> cases ch <;> exact ⟨BitVec.zero_and, BitVec.zero_and, BitVec.zero_and⟩
  · exact ⟨BitVec.zero_and, BitVec.zero_and⟩

end Sys2Proof.Machine
end

section
/-! The control write of a channel and TRIGGER (R150 to R153, R159, R182). -/

namespace Sys2Proof.Machine

/-! The control write. -/

theorem schedulesGxfifo_iff {c : Config} {fifo : Bool} {ctl : Word} :
    schedulesGxfifo c fifo ctl = true ↔ ctlEnable ctl = true ∧ ctlTrigMode ctl = c.modeGxfifo ∧ fifo = true := by
  simp [schedulesGxfifo, and_assoc]

/-- A control write sends one schedule request for each task it adds (R153 parts 1 and 3). -/
theorem writeCnt_trace (cpu : Cpu) (ch : Chan) (a : WAccess) (s : State) :
    (writeCnt cpu ch a s).trace =
      List.replicate (cntSchedules s.cfg s.fifoHalfEmpty (s.chan cpu ch).control
        (mergedControl s.cfg cpu ch a (s.chan cpu ch).control)) (.schedule cpu ch s.cfg.schedDelay) ++ s.trace := by
  unfold writeCnt cntSchedules
  simp only [← schedulesGxfifo_iff]
  generalize mergedControl s.cfg cpu ch a (s.chan cpu ch).control = new
  cases hgo : schedulesGxfifo s.cfg s.fifoHalfEmpty new <;> cases ho : ctlEnable (s.chan cpu ch).control <;>
    cases hn : ctlEnable new <;> by_cases hnow : ctlTrigMode new = 0#3 <;> simp [hnow]

theorem writeCnt_byteAt (cpu : Cpu) (ch : Chan) (a : WAccess) (s : State) (d : Cpu) (x : Word) :
    (writeCnt cpu ch a s).byteAt d x = s.byteAt d x := by
  simp only [State.byteAt, State.memOf, writeCnt_mem, writeCnt_cfg]

theorem sameOutsideChannel_writeCnt (cpu : Cpu) (ch : Chan) (a : WAccess) (s : State) :
    SameOutsideChannel cpu ch s (writeCnt cpu ch a s) := by
  refine ⟨writeCnt_au .., fun d k hd => ?_, writeCnt_byteAt cpu ch a s, writeCnt_freeCount .., writeCnt_cfg ..,
    writeCnt_compat .., writeCnt_fifoHalfEmpty .., writeCnt_inbox ..⟩
  have hne : ¬(d = cpu ∧ k = ch) := not_and_or.mpr hd
  exact ⟨writeCnt_chan_other a s hne, by rw [writeCnt_tasks, if_neg hne, Nat.add_zero]⟩

/-- A control write with a 0 to 1 transition of `enable` loads the shadow registers from the configuration; every other keeps
them (R153 part 2). -/
theorem writeCnt_shadow (cpu : Cpu) (ch : Chan) (a : WAccess) (s : State) :
    let new := mergedControl s.cfg cpu ch a (s.chan cpu ch).control
    (ctlEnable (s.chan cpu ch).control = false ∧ ctlEnable new = true →
      ((writeCnt cpu ch a s).chan cpu ch).currentSrc = (s.chan cpu ch).sourceAddr
      ∧ ((writeCnt cpu ch a s).chan cpu ch).currentDst = (s.chan cpu ch).destAddr
      ∧ ((writeCnt cpu ch a s).chan cpu ch).remainingWords = ctlCount new)
    ∧ (¬(ctlEnable (s.chan cpu ch).control = false ∧ ctlEnable new = true) →
      SameShadow ((writeCnt cpu ch a s).chan cpu ch) (s.chan cpu ch)) := by
  rw [writeCnt_chan_self]
  refine ⟨fun h => ?_, fun h => ?_⟩
  · simp only [if_pos h]
    exact ⟨rfl, rfl, rfl⟩
  · simp only [if_neg h]
    exact ⟨rfl, rfl, rfl⟩

/-- `cntSchedules` with the immediate start as a condition on the 0 to 1 transition. -/
theorem cntSchedules_eq (c : Config) (fifo : Bool) (old new : Word) :
    cntSchedules c fifo old new =
      (if ctlEnable new = true ∧ ctlTrigMode new = c.modeGxfifo ∧ fifo = true then 1 else 0)
      + (if (ctlEnable old = false ∧ ctlEnable new = true) ∧ ctlTrigMode new = 0#3 then 1 else 0) := by
  simp only [cntSchedules, and_assoc]

/-- Settles O26: the frame, the merge, the reload and the requests of a control write each have their lemma. -/
theorem controlWrite : Obligations.ControlWrite := by
  intro cpu ch a s
  obtain ⟨hsrc, hdst, hctl⟩ := writeCnt_config cpu ch a s
  obtain ⟨hload, hkeep⟩ := writeCnt_shadow cpu ch a s
  refine ⟨encode_ofWrite s.cfg cpu a (.cnt ch), _, exec_ofWrite_cnt cpu a ch s, sameOutsideChannel_writeCnt cpu ch a s,
    fun i => ?_, hsrc, hdst, ?_⟩
  · rw [hctl]
    exact merge_eq_bitAfter _ _ a i
  · simp only
    rw [hctl, writeCnt_tasks, if_pos ⟨rfl, rfl⟩, writeCnt_trace, cntSchedules_eq]
    exact ⟨hload, hkeep, rfl, rfl⟩

/-! The masks, as a write of all ones shows them. -/

theorem sadMask_eq (c : Config) (cpu : Cpu) (ch : Chan) :
    sadMask c cpu ch = if cpu = .secondary ∧ ch = .ch0 then c.addrMaskNarrow else c.addrMaskWide := by
  cases cpu <;> cases ch <;> rfl

theorem dadMask_eq (c : Config) (cpu : Cpu) (ch : Chan) :
    dadMask c cpu ch = if cpu = .secondary ∧ ch ≠ .ch3 then c.addrMaskNarrow else c.addrMaskWide := by
  cases cpu <;> cases ch <;> rfl

/-- A register that keeps to its mask takes exactly the mask from a word of all ones (R160). -/
theorem merge_allOnes {old own : Word} (h : old &&& ~~~own = 0#32) :
    merge old (maskOf (.word 0xFFFFFFFF#32) &&& own) (valueOf (.word 0xFFFFFFFF#32)) = own := by
  have hmask : maskOf (.word 0xFFFFFFFF#32) = BitVec.allOnes 32 := by decide
  have hvalue : valueOf (.word 0xFFFFFFFF#32) = BitVec.allOnes 32 := by decide
  rw [hmask, hvalue, BitVec.allOnes_and, merge, h, BitVec.zero_or, BitVec.allOnes_and]

/-- Settles O25: `merge_allOnes` at each of the three registers. -/
theorem allOnesShowTheMasks : Obligations.AllOnesShowTheMasks := by
  intro cpu ch s hs
  obtain ⟨hsad, hdad, hcnt⟩ := hs cpu ch
  refine ⟨⟨_, exec_ofWrite_sad cpu ch _ s, ?_⟩, ⟨_, exec_ofWrite_dad cpu ch _ s, ?_⟩, ⟨_, exec_ofWrite_cnt cpu _ ch s, ?_⟩⟩
  · rw [writeSad_chan_self, ← sadMask_eq]
    exact merge_allOnes hsad
  · rw [writeDad_chan_self, ← dadMask_eq]
    exact merge_allOnes hdad
  · rw [(writeCnt_config cpu ch _ s).2.2, mergedControl, merge_allOnes hcnt]
    cases cpu <;> rfl

/-! TRIGGER. -/

theorem foldl_triggerChan_tasks (cpu : Cpu) (mode : Word) (m : BitVec 4) (s : State) (d : Cpu) (h : Chan) :
    (Chan.all.foldl (triggerChan cpu mode m) s).tasks d h =
      s.tasks d h + if d = cpu ∧ triggers cpu mode m h (s.chan cpu h).control = true then 1 else 0 := by
  rw [foldl_triggerChan_count cpu mode m s (fun u => u.tasks d h) d h
    (fun u ch => triggerChan_tasks cpu mode m u ch d h) Chan.all, count_all]

theorem foldl_triggerChan_schedules_count (cpu : Cpu) (mode : Word) (m : BitVec 4) (s : State) (d : Cpu) (h : Chan) :
    (schedules (Chan.all.foldl (triggerChan cpu mode m) s).trace).count (d, h) =
      (schedules s.trace).count (d, h) + if d = cpu ∧ triggers cpu mode m h (s.chan cpu h).control = true then 1 else 0 := by
  rw [foldl_triggerChan_count cpu mode m s (fun u => (schedules u.trace).count (d, h)) d h
    (fun u ch => triggerChan_schedules_count cpu mode m u ch d h) Chan.all, count_all]

theorem triggers_iff {cpu : Cpu} {mode : Word} {m : BitVec 4} {ch : Chan} {ctl : Word} :
    triggers cpu mode m ch ctl = true ↔
      m.getLsbD ch.index = true ∧ ctlEnable ctl = true ∧ (ctlTrigMode ctl).toNat = wantedMode cpu mode := by
  simp only [triggers, Bool.and_eq_true, beq_iff_eq, and_assoc]

theorem byteAt_congr {s t : State} (hmem : t.mem = s.mem) (hcfg : t.cfg = s.cfg) (d : Cpu) (x : Word) :
    t.byteAt d x = s.byteAt d x := by
  simp only [State.byteAt, State.memOf, hmem, hcfg]

/-- Settles O30: TRIGGER is one conditional schedule for each channel, and a schedule touches the task count and the trace. -/
theorem triggerQueuesMatching : Obligations.TriggerQueuesMatching := by
  intro cpu mode m s
  have hkeep : ∀ {α : Type} (f : State → α), (∀ u ch, f (triggerChan cpu mode m u ch) = f u) →
      f (Chan.all.foldl (triggerChan cpu mode m) s) = f s := fun f hf => foldl_triggerChan_eq cpu mode m s f hf _
  have hset := foldl_triggerChan_setting cpu mode m s Chan.all
  have hmem := hkeep State.mem (triggerChan_mem cpu mode m)
  refine ⟨_, rfl, fun ch => ?_, fun d ch hd => ?_, hkeep _ (triggerChan_au cpu mode m), hkeep _ (triggerChan_dma cpu mode m),
    byteAt_congr hmem hset.1, hkeep (fun u => irqs u.trace) (triggerChan_irqs cpu mode m),
    hkeep (fun u => transfers u.trace) (triggerChan_transfers cpu mode m),
    hkeep State.freeCount (triggerChan_freeCount cpu mode m), hset⟩
  · rw [foldl_triggerChan_tasks]
    simp only [true_and, triggers_iff]
    cases cpu <;> rfl
  · rw [foldl_triggerChan_tasks, if_neg (fun h => hd h.1), Nat.add_zero]

/-- Settles O29: the fields of a scheduled state. -/
theorem scheduleOnlyQueues : Obligations.ScheduleOnlyQueues := by
  intro cpu ch s
  refine ⟨?_, fun d h hd => ?_, rfl, rfl, rfl, rfl, rfl, rfl, rfl, rfl, rfl⟩
  · rw [schedule_tasks, if_pos ⟨rfl, rfl⟩]
  · rw [schedule_tasks, if_neg (not_and_or.mpr hd)]

/-! A disabled channel is not scheduled (R159). -/

theorem cntSchedules_disabled {c : Config} {fifo : Bool} {old new : Word} (h : ctlEnable new = false) :
    cntSchedules c fifo old new = 0 := by
  simp [cntSchedules, h]

theorem schedules_replicate (cpu : Cpu) (ch : Chan) (delay n : Nat) (es : List Event) :
    schedules (List.replicate n (.schedule cpu ch delay) ++ es) = List.replicate n (cpu, ch) ++ schedules es :=
  schedules_closingEvents cpu ch delay 0 n es

/-- An operation that is no DISPATCH adds no task and sends no request for a channel that is disabled after it. -/
theorem exec_disabled_not_scheduled {i : Instr} {s t : State} (h : exec i s = .next t) (hi : ∀ d k, i ≠ .dispatch d k)
    {cpu : Cpu} {ch : Chan} (hoff : ctlEnable (t.chan cpu ch).control = false) :
    t.tasks cpu ch ≤ s.tasks cpu ch ∧ (schedules t.trace).count (cpu, ch) = (schedules s.trace).count (cpu, ch) := by
  cases effect_of_exec h with
  | writeAu d a r => exact ⟨le_rfl, rfl⟩
  | writeSad d a k => exact ⟨le_rfl, rfl⟩
  | writeDad d a k => exact ⟨le_rfl, rfl⟩
  | writeCnt d a k =>
    by_cases hd : cpu = d ∧ ch = k
    · obtain ⟨rfl, rfl⟩ := hd
      rw [(writeCnt_config cpu ch a s).2.2] at hoff
      rw [writeCnt_tasks, writeCnt_trace, if_pos ⟨rfl, rfl⟩, cntSchedules_disabled hoff]
      exact ⟨le_rfl, rfl⟩
    · have hne : (d, k) ≠ (cpu, ch) := fun he => hd (by cases he; exact ⟨rfl, rfl⟩)
      rw [writeCnt_tasks, writeCnt_trace, if_neg hd, schedules_replicate, List.count_append,
        List.count_replicate, if_neg (by simpa using hne), Nat.zero_add]
      exact ⟨le_rfl, rfl⟩
  | read d a id v => exact ⟨le_rfl, rfl⟩
  | trigger d mode m =>
    have hchan : (Chan.all.foldl (triggerChan d mode m) s).chan cpu ch = s.chan cpu ch :=
      foldl_triggerChan_eq d mode m s (fun u => u.chan cpu ch) (fun u k => triggerChan_chan d mode m u k cpu ch) _
    rw [hchan] at hoff
    have hno : ¬(cpu = d ∧ triggers d mode m ch (s.chan d ch).control = true) := by
      rintro ⟨rfl, ht⟩
      simp [(triggers_iff.mp ht).2.1] at hoff
    rw [foldl_triggerChan_tasks, foldl_triggerChan_schedules_count, if_neg hno]
    exact ⟨le_rfl, rfl⟩
  | dispatch d k t hd => exact absurd rfl (hi d k)
  | reset t hr => cases hr; cases cpu <;> cases ch <;> exact ⟨Nat.zero_le _, rfl⟩

/-- Settles O28: the control write and TRIGGER schedule for an enabled channel only, and no other operation but DISPATCH
schedules at all. -/
theorem disabledIsNeverScheduled : Obligations.DisabledIsNeverScheduled := by
  intro i s t h
  refine ⟨fun cpu ch hi hoff => exec_disabled_not_scheduled h hi hoff, fun cpu ch a hi => ?_, fun cpu mode m ch hi hoff => ?_⟩
  · obtain rfl | rfl := hi
    · rw [exec_ofWrite_sad] at h; cases h; exact ⟨rfl, rfl⟩
    · rw [exec_ofWrite_dad] at h; cases h; exact ⟨rfl, rfl⟩
  · subst hi
    cases h
    rw [foldl_triggerChan_tasks, if_neg, Nat.add_zero]
    rintro ⟨-, ht⟩
    exact Bool.false_ne_true (hoff.symm.trans (triggers_iff.mp ht).2.1)

end Sys2Proof.Machine
end

section
/-! The square root is the integer root (R130, R139). -/

namespace Sys2Proof.Machine

/-- The bits still to be decided keep the root between the candidate and the candidate with all of them set. -/
theorem isqrtFrom_spec (n : Nat) : ∀ k r : Nat, r * r ≤ n → n < (r + 2 ^ k) * (r + 2 ^ k) →
    isqrtFrom n k r * isqrtFrom n k r ≤ n ∧ n < (isqrtFrom n k r + 1) * (isqrtFrom n k r + 1)
  | 0, r, hle, hlt => ⟨hle, by simpa [isqrtFrom] using hlt⟩
  | k + 1, r, hle, hlt => by
    rw [isqrtFrom]
    split
    · rename_i hfits
      refine isqrtFrom_spec n k _ hfits ?_
      rwa [add_assoc, ← Nat.two_mul, ← pow_succ']
    · rename_i hfits
      exact isqrtFrom_spec n k r hle (Nat.lt_of_not_le hfits)

theorem isqrt_eq_sqrt {n : Nat} (hn : n < 2 ^ 64) : isqrt n = Nat.sqrt n :=
  Nat.eq_sqrt.mpr (isqrtFrom_spec n 32 0 (Nat.zero_le _) (by simpa using hn))

theorem lowHalf_toNat (x : DWord) : (lowHalf x).toNat = x.toNat % 2 ^ 32 := by
  rw [lowHalf, BitVec.extractLsb'_toNat, Nat.shiftRight_zero]

theorem sqrtInput_eq (width : Bool) (p : DWord) : sqrtInput width p = if width then p.toNat else p.toNat % 2 ^ 32 := by
  rw [sqrtInput, lowHalf_toNat]

theorem sqrtInput_lt (width : Bool) (p : DWord) : sqrtInput width p < 2 ^ 64 := by
  rw [sqrtInput_eq]
  split <;> omega

theorem squareRoot_toNat (width : Bool) (p : DWord) : (squareRoot width p).toNat = Nat.sqrt (sqrtInput width p) := by
  have hroot : Nat.sqrt (sqrtInput width p) < 2 ^ 32 := Nat.sqrt_lt.mpr (sqrtInput_lt width p)
  rw [squareRoot, isqrt_eq_sqrt (sqrtInput_lt width p), BitVec.toNat_ofNat, Nat.mod_eq_of_lt hroot]

/-- Settles O22: the root is Mathlib's `Nat.sqrt` of the selected input. -/
theorem squareRootLaw : Obligations.SquareRootLaw := by
  intro width p
  simp only
  rw [squareRoot_toNat, ← sqrtInput_eq]
  exact ⟨Nat.sqrt_le _, Nat.lt_succ_sqrt _⟩

/-- The root of a square whose root fits 32 bits. -/
theorem squareRoot_of_square {width : Bool} {p : DWord} {k : Nat} (h : sqrtInput width p = k * k) :
    squareRoot width p = BitVec.ofNat 32 k := by
  rw [squareRoot, isqrt_eq_sqrt (sqrtInput_lt width p), h, Nat.sqrt_eq]

theorem squareRoot_zero (width : Bool) : squareRoot width 0#64 = 0#32 :=
  squareRoot_of_square (k := 0) (by cases width <;> rfl)

/-- Settles O23: `Nat.sqrt` of 0, of a square and of a larger input. -/
theorem squareRootConsequences : Obligations.SquareRootConsequences := by
  have hfit : ∀ {k b : Nat}, k ≤ b → k * k ≤ b * b := fun h => Nat.mul_le_mul h h
  refine ⟨squareRoot_zero, fun k hk => squareRoot_of_square ?_, fun k hk => squareRoot_of_square ?_, fun width p q h => ?_⟩
  · have := hfit hk
    rw [sqrtInput_eq, BitVec.toNat_ofNat, if_neg Bool.false_ne_true, Nat.mod_eq_of_lt (a := k * k) (by omega),
      Nat.mod_eq_of_lt (by omega)]
  · have := hfit hk
    rw [sqrtInput_eq, BitVec.toNat_ofNat, if_pos rfl, Nat.mod_eq_of_lt (by omega)]
  · rw [squareRoot_toNat, squareRoot_toNat, sqrtInput_eq, sqrtInput_eq]
    exact Nat.sqrt_le_sqrt h

/-! The writes of the two control registers (R101, R131). -/

/-- A merge of a 16-bit register under the access and the register's own mask, in the terms of the claims (R51, R54). -/
theorem merge16_eq_bitAfter (old : Half) {own : Word} (hown : own.toNat < 2 ^ 16) (a : WAccess) (i : Nat) :
    (merge old (maskOf16 a &&& own.setWidth 16) (valueOf16 a)).getLsbD i = bitAfter a own 0 (old.getLsbD i) i := by
  have hhigh : 16 ≤ i → own.getLsbD i = false := fun hi =>
    Nat.testBit_lt_two_pow (hown.trans_le (Nat.pow_le_pow_right (by omega) hi))
  simp only [merge_getLsbD, bitAfter, BitVec.getLsbD_and, maskOf16, valueOf16, BitVec.getLsbD_setWidth, Nat.zero_le,
    Nat.sub_zero, true_and]
  by_cases hi : i < 16
  · simp [hi]
  · simp [hi, hhigh (by omega)]

/-- Settles O10: an access to the lower half is the divide operation on the merged mode; one to the upper half is nothing. -/
theorem divcntWrite : Obligations.DivcntWrite := by
  intro cpu a s
  have hsqrt := writeAuReg_sameSqrt (r := .divcnt) rfl a s.au
  refine ⟨rfl, _, rfl, sameOutsideAu_withAu s _, hsqrt, ?_, ?_, fun hup => ?_, fun hlow => ⟨writeDivcnt_consistent hlow _, ?_⟩⟩
  · unfold writeDivcnt; split <;> simp
  · unfold writeDivcnt; split <;> simp
  · rw [writeDivcnt, if_pos ((maskOf16_eq_zero_iff a).mpr hup)]
    rfl
  · intro i hi
    rw [withAu_au, writeDivcnt, if_neg (mt (maskOf16_eq_zero_iff a).mp (by omega)), runDivide_sameButFlag _ i hi]
    exact merge16_eq_bitAfter s.au.divControl (own := 3#32) (by decide) a i

/-- Settles O20: likewise for the square-root operation and its width. -/
theorem sqrtcntWrite : Obligations.SqrtcntWrite := by
  intro cpu a s
  have hdiv := writeAuReg_sameDivider (r := .sqrtcnt) rfl a s.au
  refine ⟨rfl, _, rfl, sameOutsideAu_withAu s _, hdiv, ?_, fun hup => ?_, fun hlow => ⟨writeSqrtcnt_consistent hlow _, ?_⟩⟩
  · unfold writeSqrtcnt; split <;> simp
  · rw [writeSqrtcnt, if_pos ((maskOf16_eq_zero_iff a).mpr hup)]
    rfl
  · intro i
    rw [withAu_au, writeSqrtcnt, if_neg (mt (maskOf16_eq_zero_iff a).mp (by omega)), runSqrt_sqrtControl]
    exact merge16_eq_bitAfter s.au.sqrtControl (own := 1#32) (by decide) a i

end Sys2Proof.Machine
end

section
/-! The divide operation over the integers (R100, R119, R120, R122). -/

namespace Sys2Proof.Machine

/-! Its three cases, in the terms of the claims. -/

/-- The least numerator of a mode, whose division by -1 overflows (R120). -/
def leastNum (mode : BitVec 2) : Int := if mode = 0#2 then -2 ^ 31 else -2 ^ 63

theorem divNum_bounds (mode : BitVec 2) (num : DWord) : leastNum mode ≤ divNum mode num ∧ divNum mode num < -leastNum mode := by
  have hlow := BitVec.toInt_lt (x := lowHalf num)
  have hlow' := BitVec.le_toInt (lowHalf num)
  have hall := BitVec.toInt_lt (x := num)
  have hall' := BitVec.le_toInt num
  unfold divNum leastNum
  split <;> constructor <;> omega

theorem mode_odd {mode : BitVec 2} : mode ≠ 0#2 → mode ≠ 2#2 → mode = 1#2 ∨ mode = 3#2 := by
  revert mode; decide

theorem divide_of_overflow {mode : BitVec 2} {num den : DWord} (h : divOverflows mode num den) :
    divide mode num den = ⟨zeroDivFlag den, if mode = 0#2 then 0xFFFFFFFF80000000#64 else 0x8000000000000000#64, 0#64⟩ := by
  obtain ⟨hn, hd⟩ := h
  unfold divNum at hn
  unfold divDen at hd
  by_cases hm : mode = 0#2
  · subst hm
    have hlow : lowHalf num = 0x80000000#32 := BitVec.eq_of_toInt_eq hn
    simp [divide, hlow, show (lowHalf den).toInt = -1 from hd]
  · have hnum : num = 0x8000000000000000#64 := BitVec.eq_of_toInt_eq (by simpa [hm] using hn)
    subst hnum
    by_cases hm2 : mode = 2#2
    · subst hm2
      simp [divide, show den.toInt = -1 from hd]
    · have h13 : mode = 1#2 ∨ mode = 3#2 := mode_odd hm hm2
      simp [divide, hm, hm2, h13, show (lowHalf den).toInt = -1 by simpa [hm2] using hd]

theorem divide_of_ne_zero {mode : BitVec 2} {num den : DWord} (hd : divDen mode den ≠ 0)
    (h : ¬divOverflows mode num den) :
    divide mode num den = ⟨zeroDivFlag den, BitVec.ofInt 64 ((divNum mode num).tdiv (divDen mode den)),
      BitVec.ofInt 64 ((divNum mode num).tmod (divDen mode den))⟩ := by
  unfold divOverflows at h
  unfold divide divNum divDen at *
  by_cases hm : mode = 0#2
  · subst hm
    simp_all
  · simp_all

theorem divide_of_zero {mode : BitVec 2} {num den : DWord} (hd : divDen mode den = 0) :
    divide mode num den = ⟨zeroDivFlag den, if divNum mode num < 0 then 1#64 else 0xFFFFFFFFFFFFFFFF#64,
      BitVec.ofInt 64 (divNum mode num)⟩ := by
  unfold divDen at hd
  unfold divide divNum
  by_cases hm : mode = 0#2
  · subst hm
    simp_all
  · simp_all

/-! The quotient and the remainder fit the operand's width. -/

theorem tdiv_bounds {n d m : Int} (hn : -m ≤ n) (hn' : n < m) (hno : ¬(n = -m ∧ d = -1)) :
    -m ≤ n.tdiv d ∧ n.tdiv d < m := by
  have hquot : (n.tdiv d).natAbs = n.natAbs / d.natAbs := Int.natAbs_tdiv n d
  have hle : n.natAbs / d.natAbs ≤ n.natAbs := Nat.div_le_self _ _
  refine ⟨by omega, lt_of_not_ge fun hge => ?_⟩
  -- Only the quotient of the least number by a unit reaches `m`: by 1 it is the number itself, and -1 is excluded.
  have hself : n.natAbs / d.natAbs = n.natAbs := by omega
  have hunit : d.natAbs = 1 := ((Nat.div_eq_self).mp hself).resolve_left (by omega)
  obtain rfl | rfl : d = 1 ∨ d = -1 := by omega
  · rw [Int.tdiv_one] at hge; omega
  · exact hno ⟨by omega, rfl⟩

theorem tmod_sign (n d : Int) : n.tmod d = 0 ∨ (n.tmod d < 0 ↔ n < 0) := by
  obtain hn | hn := le_or_gt 0 n
  · have := Int.tmod_nonneg d hn
    omega
  · have := Int.tmod_nonneg d (show 0 ≤ -n by omega)
    rw [Int.neg_tmod] at this
    omega

theorem tmod_bounds {n d m : Int} (hn : -m ≤ n) (hn' : n < m) : -m ≤ n.tmod d ∧ n.tmod d < m := by
  have habs : (n.tmod d).natAbs ≤ n.natAbs := Int.natAbs_tmod n d ▸ Nat.mod_le _ _
  have hsign := tmod_sign n d
  omega

theorem toInt_ofInt_of_bounds {x : Int} (h : -2 ^ 63 ≤ x) (h' : x < 2 ^ 63) : (BitVec.ofInt 64 x).toInt = x := by
  rw [BitVec.toInt_ofInt, Int.bmod_eq_of_le] <;> omega

/-- What the division gives as integers: the truncating quotient and remainder, within the operand's width. -/
theorem divide_toInt {mode : BitVec 2} {num den : DWord} (hd : divDen mode den ≠ 0) (h : ¬divOverflows mode num den) :
    (divide mode num den).result.toInt = (divNum mode num).tdiv (divDen mode den)
    ∧ (divide mode num den).remainder.toInt = (divNum mode num).tmod (divDen mode den)
    ∧ leastNum mode ≤ (divNum mode num).tdiv (divDen mode den) ∧ (divNum mode num).tdiv (divDen mode den) < -leastNum mode := by
  obtain ⟨hn, hn'⟩ := divNum_bounds mode num
  have hwidth : -2 ^ 63 ≤ leastNum mode := by unfold leastNum; split <;> omega
  obtain ⟨hq, hq'⟩ := tdiv_bounds (m := -leastNum mode) (by omega) hn' (by rw [neg_neg]; exact h)
  obtain ⟨hr, hr'⟩ := tmod_bounds (d := divDen mode den) (m := -leastNum mode) (by omega) hn'
  rw [divide_of_ne_zero hd h, toInt_ofInt_of_bounds (by omega) (by omega), toInt_ofInt_of_bounds (by omega) (by omega)]
  exact ⟨rfl, rfl, by omega, hq'⟩

/-- Settles O15: the law of truncating division, and in the overflow case the sentinel against the operands. -/
theorem divisionLaw : Obligations.DivisionLaw := by
  intro mode num den
  refine ⟨fun hd hno => ?_, fun hm hov => ?_⟩
  · obtain ⟨hq, hr, -⟩ := divide_toInt hd hno
    rw [hq, hr]
    refine ⟨Int.tdiv_mul_add_tmod _ _, ?_, tmod_sign _ _⟩
    rw [Int.natAbs_tmod]
    exact Nat.mod_lt _ (Int.natAbs_pos.mpr hd)
  · obtain ⟨hn, hd⟩ := id hov
    rw [divide_of_overflow hov, hn, hd]
    simp only [if_neg hm]
    decide

/-- Refutes O16: in mode 0 the operands -2^31 and -1 give the result -2^31, and the two sides differ by 2^32 (log 22). -/
theorem not_overflowEquationInEveryMode : ¬Obligations.OverflowEquationInEveryMode := by
  intro h
  have hov : divOverflows 0#2 0x80000000#64 0xFFFFFFFF#64 := ⟨by decide, by decide⟩
  have hlaw := h 0#2 0x80000000#64 0xFFFFFFFF#64 hov
  rw [divide_of_overflow hov, hov.1, hov.2] at hlaw
  revert hlaw
  decide

theorem zeroDivFlag_eq_true_iff {den : DWord} : zeroDivFlag den = true ↔ den = 0#64 := by
  simp [zeroDivFlag]

theorem divDen_zero (mode : BitVec 2) : divDen mode 0#64 = 0 := by
  revert mode; decide

/-- Settles O17: the overflow case and the zero divisor of `divide`. -/
theorem sentinels : Obligations.Sentinels := by
  intro mode num den
  refine ⟨fun hov => ?_, fun hd => ?_⟩
  · rw [divide_of_overflow hov]
    refine ⟨rfl, rfl, Bool.eq_false_iff.mpr fun hflag => ?_⟩
    have hd := hov.2
    rw [zeroDivFlag_eq_true_iff.mp hflag, divDen_zero] at hd
    omega
  · obtain ⟨hn, hn'⟩ := divNum_bounds mode num
    have hwidth : -2 ^ 63 ≤ leastNum mode := by unfold leastNum; split <;> omega
    rw [divide_of_zero hd]
    exact ⟨rfl, toInt_ofInt_of_bounds (by omega) (by omega)⟩

/-- Settles O18: the flag is `zeroDivFlag` of the denominator in every mode; 2^32 has low half 0. -/
theorem flagIsWholeDenominator : Obligations.FlagIsWholeDenominator := by
  intro mode num den
  simp only [divide_div0, zeroDivFlag_eq_true_iff, true_and]
  refine ⟨fun h => by rw [h, divDen_zero], fun hm => ⟨0x100000000#64, ?_, by decide⟩⟩
  rw [divDen, if_neg hm]
  decide

/-! Which bits of the operands a mode reads, and which its results fill (R122). -/

/-- A number of 32 bits is the sign extension of its low half. -/
theorem eq_signExtend_lowHalf {x : DWord} (h : -2 ^ 31 ≤ x.toInt) (h' : x.toInt < 2 ^ 31) :
    x = (lowHalf x).signExtend 64 := by
  apply BitVec.eq_of_toInt_eq
  have hlow : lowHalf x = x.setWidth 32 := BitVec.eq_of_toNat_eq (by rw [lowHalf_toNat, BitVec.toNat_setWidth])
  calc x.toInt = x.toInt.bmod (2 ^ 32) := (Int.bmod_eq_of_le (by omega) (by omega)).symm
    _ = (x.toNat : Int).bmod (2 ^ 32) := by rw [BitVec.toInt_eq_toNat_bmod, Int.bmod_bmod_of_dvd (by decide)]
    _ = ((lowHalf x).signExtend 64).toInt := by rw [BitVec.toInt_signExtend_of_le (by decide), hlow, BitVec.toInt_setWidth]

/-- In mode 0 both results are numbers of 32 bits. -/
theorem divide_mode0_bounds (num den : DWord) :
    (-2 ^ 31 ≤ (divide 0#2 num den).result.toInt ∧ (divide 0#2 num den).result.toInt < 2 ^ 31)
    ∧ (-2 ^ 31 ≤ (divide 0#2 num den).remainder.toInt ∧ (divide 0#2 num den).remainder.toInt < 2 ^ 31) := by
  have hleast : leastNum 0#2 = -2 ^ 31 := rfl
  obtain ⟨hn, hn'⟩ := divNum_bounds 0#2 num
  rw [hleast] at hn hn'
  by_cases hov : divOverflows 0#2 num den
  · have hsentinel : (-2 ^ 31 ≤ (0xFFFFFFFF80000000#64).toInt ∧ (0xFFFFFFFF80000000#64).toInt < 2 ^ 31)
        ∧ -2 ^ 31 ≤ (0#64).toInt ∧ (0#64).toInt < 2 ^ 31 := by decide
    rw [divide_of_overflow hov]
    exact hsentinel
  by_cases hd : divDen 0#2 den = 0
  · rw [divide_of_zero hd]
    simp only
    rw [toInt_ofInt_of_bounds (x := divNum 0#2 num) (by omega) (by omega)]
    refine ⟨?_, by omega⟩
    split <;> decide
  · obtain ⟨hq, hr, hb, hb'⟩ := divide_toInt hd hov
    obtain ⟨hr1, hr2⟩ := tmod_bounds (d := divDen 0#2 den) (m := 2 ^ 31) hn hn'
    rw [hq, hr]
    omega

/-- Settles O19: mode 3 runs the code of mode 1; the other clauses are the lemmas on what `divide` reads and on its bounds. -/
theorem modeWidths : Obligations.ModeWidths := by
  intro num den num' den'
  obtain ⟨hres, hrem⟩ := divide_mode0_bounds num den
  refine ⟨by simp [divide], fun hnum hden => ?_, eq_signExtend_lowHalf hres.1 hres.2, eq_signExtend_lowHalf hrem.1 hrem.2, fun hden => ?_⟩
  · rw [divide_mode0_congr_num den hnum, divide_congr_den num' (by decide) hden]
    exact ⟨rfl, rfl⟩
  · rw [divide_congr_den num (by decide) hden]
    exact ⟨rfl, rfl⟩

end Sys2Proof.Machine
end

section
/-! Register reads, the result writes, RESET and the step (R106 to R118, R135 to R138, R156 to R158, R250 to R252, R266). -/

namespace Sys2Proof.Machine

/-! Reads and ignored writes. -/

/-- Settles O12: the five result writes are the identity. -/
theorem resultWritesIgnored : Obligations.ResultWritesIgnored :=
  fun _ _ _ => ⟨rfl, rfl, rfl, rfl, rfl⟩

/-- Settles O13: each read answers its slot value, the low half. -/
theorem lowHalfReads : Obligations.LowHalfReads := by
  intro cpu a s
  exact ⟨exec_ofRead cpu a (.au .divDenomL) s, exec_ofRead cpu a (.au .divResultL) s,
    exec_ofRead cpu a (.au .divremResultL) s, exec_ofRead cpu a (.au .sqrtParamL) s⟩

/-- What has no bit outside a mask is what the mask leaves of it. -/
theorem and_eq_self_of_reserved {x m : Half} (h : x &&& ~~~m = 0#16) : x &&& m = x := by
  have hsplit : x &&& (m ||| ~~~m) = x := by rw [BitVec.or_not_self, BitVec.and_allOnes]
  rwa [BitVec.and_or_distrib_left, h, BitVec.or_zero] at hsplit

/-- Settles O14: each read answers its slot value; the two control registers show every bit, since the reserved ones are 0. -/
theorem otherUnitReads : Obligations.OtherUnitReads := by
  rintro cpu a s ⟨hdiv, hsqrt⟩
  have hdivcnt := exec_ofRead cpu a (.au .divcnt) s
  have hsqrtcnt := exec_ofRead cpu a (.au .sqrtcnt) s
  simp only [slotValue, readAuReg, readDivcnt, readSqrtcnt, and_eq_self_of_reserved hdiv, and_eq_self_of_reserved hsqrt]
    at hdivcnt hsqrtcnt
  exact ⟨hdivcnt, exec_ofRead cpu a (.au .divNumerL) s, exec_ofRead cpu a (.au .divNumerH) s,
    exec_ofRead cpu a (.au .divDenomH) s, exec_ofRead cpu a (.au .divResultH) s, exec_ofRead cpu a (.au .divremResultH) s,
    hsqrtcnt, exec_ofRead cpu a (.au .sqrtResult) s, exec_ofRead cpu a (.au .sqrtParamH) s⟩

/-- Settles O27: each read answers its slot value, which is a configuration register. -/
theorem channelReads : Obligations.ChannelReads := by
  intro cpu ch a s
  exact ⟨exec_ofRead cpu a (.sad ch) s, exec_ofRead cpu a (.dad ch) s, exec_ofRead cpu a (.cnt ch) s⟩

/-! RESET. -/

theorem withDiv0_zero_getLsbD (b : Bool) {i : Nat} (hi : i ≠ 14) : (withDiv0 0#16 b).getLsbD i = false := by
  rw [withDiv0_getLsbD, if_neg hi, BitVec.getLsbD_zero]

/-- Under every value of RESET_RESULTS the mode, the operands, the width and the parameter are 0 (R250, R251). -/
theorem resetUnit_operands (s : State) :
    (∀ i, i ≠ 14 → (resetUnit s).divControl.getLsbD i = false) ∧ (resetUnit s).divNumerator = 0#64
    ∧ (resetUnit s).divDenominator = 0#64 ∧ (resetUnit s).sqrtControl = 0#16 ∧ (resetUnit s).sqrtParameter = 0#64 := by
  unfold resetUnit
  split
  · exact ⟨fun i hi => withDiv0_zero_getLsbD _ hi, rfl, rfl, rfl, rfl⟩
  · exact ⟨fun i _ => BitVec.getLsbD_zero, rfl, rfl, rfl, rfl⟩
  · refine ⟨fun i hi => ?_, rfl, rfl, rfl, rfl⟩
    rw [runSqrt_divControl, runDivide_divControl]
    exact withDiv0_zero_getLsbD _ hi

/-- Settles O46: the reset values by `resetUnit_operands` and, for each channel, as the reset writes them. -/
theorem resetEvent : Obligations.ResetEvent := by
  intro s
  obtain ⟨hctl, hnum, hden, hsqrt, hparam⟩ := resetUnit_operands s
  refine ⟨_, rfl, hctl, hnum, hden, hsqrt, hparam, fun cpu ch => ?_, fun _ _ => rfl, rfl, rfl, rfl, rfl, rfl⟩
  cases cpu <;> cases ch <;> exact ⟨rfl, rfl, rfl, rfl, (rfl : ctlEnable 0#32 = false)⟩

/-- `Div` of the reset operands (R100). -/
theorem divide_reset : divide 0#2 0#64 0#64 = ⟨true, 0xFFFFFFFFFFFFFFFF#64, 0#64⟩ := by
  simp [divide, lowHalf, zeroDivFlag]

/-- Settles O47: what `zeros` and `consistent` make of the reset unit. -/
theorem resetResultsParameter : Obligations.ResetResultsParameter := by
  intro s t h
  cases h
  refine ⟨fun hr => ?_, fun hr => ?_⟩ <;> simp only [resetUnit, hr]
  · exact ⟨rfl, rfl, rfl, rfl⟩
  · refine ⟨?_, ?_, ?_, squareRoot_zero false, ?_, runSqrt_consistent _⟩
    · rw [runSqrt_divControl, runDivide_divControl]; decide
    · exact congrArg Quotient.result divide_reset
    · exact congrArg Quotient.remainder divide_reset
    · exact divConsistent_of_same (runSqrt_sameDivider _) (runDivide_consistent _)

/-- Settles O48: the fields of the reset state. -/
theorem resetState : Obligations.ResetState := by
  refine ⟨fun i _ => BitVec.getLsbD_zero, rfl, rfl, rfl, rfl, fun cpu ch => ?_⟩
  cases cpu <;> cases ch <;> exact ⟨rfl, rfl, rfl, rfl⟩

/-! The step. -/

/-- The state in which the request placed by `withFetchWord` runs is the state itself. -/
theorem step_withFetchWord {s : State} {n w : Nat} {i : Instr} (h : decode s.cfg (wordRequest n w) = .ok i) :
    step (s.withFetchWord n w) = exec i s := by
  have htake : (s.withFetchWord n w).take ⟨[], s.fifoHalfEmpty, wordRequest n w⟩ s.inbox = s := rfl
  have hinbox : (s.withFetchWord n w).inbox = ⟨[], s.fifoHalfEmpty, wordRequest n w⟩ :: s.inbox := rfl
  have hcfg : (s.withFetchWord n w).cfg = s.cfg := rfl
  rw [step_of_decode hinbox (hcfg ▸ h), htake]

/-- Settles O8: `step_of_decode`, and what taking a stimulus leaves. -/
theorem stepRunsDecoded : Obligations.StepRunsDecoded := by
  intro s x rest i n w
  refine ⟨fun hinbox hdec => ⟨step_of_decode hinbox hdec, take_au .., take_dma .., take_pending .., take_cfg .., take_compat ..,
    take_trace .., take_freeCount .., take_inbox .., rfl, fun hno => ?_⟩, step_withFetchWord⟩
  rw [State.take, State.arrive, hno]
  rfl

/-- Settles O9: the end of the run, the scheduler's choice of a pending task, and the decoder's refusal. -/
theorem stepWithoutOperation : Obligations.StepWithoutOperation := by
  intro s x rest e
  refine ⟨step_final, fun hinbox ⟨cpu, ch, hpend⟩ => ?_, fun hinbox hdec => by simp only [step, hinbox, hdec]⟩
  cases hn : s.nextTask with
  | none => exact absurd (nextTask_eq_none.mp hn cpu ch) hpend
  | some p => exact ⟨p.1, p.2, _, nextTask_pending hn, step_scheduler hinbox hn⟩

end Sys2Proof.Machine
end

section
/-! Rules of the whole machine: interrupts, transfers, and who changes a channel's registers and tasks (R38, R69, R180, R223,
R258). -/

namespace Sys2Proof.Machine

/-! The trace of an operation that is no DISPATCH. -/

theorem irqs_replicate_schedule (cpu : Cpu) (ch : Chan) (delay n : Nat) (es : List Event) :
    irqs (List.replicate n (.schedule cpu ch delay) ++ es) = irqs es :=
  irqs_closingEvents cpu ch delay 0 n es

theorem transfers_closingEvents (cpu : Cpu) (ch : Chan) (delay m n : Nat) (es : List Event) :
    transfers (closingEvents cpu ch delay m n ++ es) = transfers es := by
  induction m with
  | zero =>
    induction n with
    | zero => rfl
    | succ n ih => exact ih
  | succ m ih => exact ih

/-- Only a DISPATCH raises a line or accesses memory (R69, R223). -/
theorem exec_silent {i : Instr} {s t : State} (h : exec i s = .next t) (hi : ∀ cpu ch, i ≠ .dispatch cpu ch) :
    irqs t.trace = irqs s.trace ∧ transfers t.trace = transfers s.trace := by
  cases effect_of_exec h with
  | writeAu cpu a r => exact ⟨rfl, rfl⟩
  | writeSad cpu a ch => exact ⟨rfl, rfl⟩
  | writeDad cpu a ch => exact ⟨rfl, rfl⟩
  | writeCnt cpu a ch =>
    rw [writeCnt_trace]
    exact ⟨irqs_replicate_schedule .., transfers_closingEvents cpu ch _ 0 _ _⟩
  | read cpu a id v => exact ⟨rfl, rfl⟩
  | trigger cpu mode m =>
    exact ⟨foldl_triggerChan_eq cpu mode m s (fun u => irqs u.trace) (triggerChan_irqs cpu mode m) _,
      foldl_triggerChan_eq cpu mode m s (fun u => transfers u.trace) (triggerChan_transfers cpu mode m) _⟩
  | dispatch cpu ch t hd => exact absurd rfl (hi cpu ch)
  | reset t hr => cases hr; exact ⟨rfl, rfl⟩

/-- A DISPATCH raises its line once, where its bookkeeping reaches step 4 and bit 30 is set, and else none (R193). -/
theorem execDispatch_irqs {cpu : Cpu} {ch : Chan} {s t : State} (h : execDispatch cpu ch s = .next t) :
    irqs t.trace = irqs s.trace
    ∨ ctlIrq (s.chan cpu ch).control = true ∧ ¬endsEarly s cpu ch
      ∧ irqs t.trace = (cpu, 8 + ch.index) :: irqs s.trace := by
  obtain ⟨-, u, hu, rfl⟩ := execDispatch_next.mp h
  have hend := burstEnd_of_copyUnits hu
  obtain ⟨m, n, htrace, hraised, hnone⟩ :=
    bookkeeping_trace cpu ch (s.chan cpu ch).control (planOf s cpu ch).moved u
  rw [hend.stops_iff, hend.chan_self] at hraised hnone
  rw [htrace, irqs_closingEvents, hend.irqs_eq]
  by_cases hno : endsEarly s cpu ch ∨ ctlIrq (s.chan cpu ch).control = false
  · rw [hnone hno]
    exact .inl rfl
  · rw [not_or, Bool.not_eq_false] at hno
    rw [hraised hno.1 hno.2]
    exact .inr ⟨hno.2, hno.1, rfl⟩

/-- Settles O54: `execDispatch_irqs` for a DISPATCH, `exec_silent` for every other operation. -/
theorem interruptSources : Obligations.InterruptSources := by
  intro i s t h
  by_cases hi : ∃ cpu ch, i = .dispatch cpu ch
  · obtain ⟨cpu, ch, rfl⟩ := hi
    refine (execDispatch_irqs h).imp id fun ⟨hirq, hgoes, htrace⟩ =>
      ⟨cpu, ch, rfl, hirq, hgoes, htrace, Nat.le_add_right _ _, ?_⟩
    cases ch <;> decide
  · exact .inl (exec_silent h fun cpu ch he => hi ⟨cpu, ch, he⟩).1

/-- Settles O55: `exec_silent` for the trace, `exec_mem` for the bytes. -/
theorem onlyDispatchTransfers : Obligations.OnlyDispatchTransfers := fun _ _ _ h hi =>
  ⟨(exec_silent h hi).2, byteAt_congr (exec_mem h hi) (exec_setting h).1⟩

/-! Who changes a channel. -/

theorem writeSad_chan_other {cpu d : Cpu} {ch k : Chan} (a : WAccess) (s : State) (hd : ¬(d = cpu ∧ k = ch)) :
    (writeSad cpu ch a s).chan d k = s.chan d k := by
  rw [writeSad, setChan_chan, if_neg hd]

theorem writeDad_chan_other {cpu d : Cpu} {ch k : Chan} (a : WAccess) (s : State) (hd : ¬(d = cpu ∧ k = ch)) :
    (writeDad cpu ch a s).chan d k = s.chan d k := by
  rw [writeDad, setChan_chan, if_neg hd]

theorem foldl_triggerChan_chan (cpu : Cpu) (mode : Word) (m : BitVec 4) (s : State) (l : List Chan) (d : Cpu) (k : Chan) :
    (l.foldl (triggerChan cpu mode m) s).chan d k = s.chan d k :=
  foldl_triggerChan_eq cpu mode m s (fun u => u.chan d k) (fun u ch => triggerChan_chan cpu mode m u ch d k) l

/-- What an operation other than RESET has done to one channel, by the operation. -/
inductive ChannelEffect (s : State) (cpu : Cpu) (ch : Chan) : Instr → Channel → Prop
  | same (i : Instr) : ChannelEffect s cpu ch i (s.chan cpu ch)
  | writeSad (a : WAccess) : ChannelEffect s cpu ch (Instr.ofWrite cpu a (.sad ch)) ((writeSad cpu ch a s).chan cpu ch)
  | writeDad (a : WAccess) : ChannelEffect s cpu ch (Instr.ofWrite cpu a (.dad ch)) ((writeDad cpu ch a s).chan cpu ch)
  | writeCnt (a : WAccess) : ChannelEffect s cpu ch (Instr.ofWrite cpu a (.cnt ch)) ((writeCnt cpu ch a s).chan cpu ch)
  | dispatch (t : State) (h : execDispatch cpu ch s = .next t) :
      ChannelEffect s cpu ch (.dispatch cpu ch) (t.chan cpu ch)

theorem channelEffect_of_exec {i : Instr} {s t : State} (h : exec i s = .next t) (hi : i ≠ .reset) (cpu : Cpu) (ch : Chan) :
    ChannelEffect s cpu ch i (t.chan cpu ch) := by
  cases effect_of_exec h with
  | writeAu d a r => exact .same _
  | writeSad d a k =>
    by_cases hd : cpu = d ∧ ch = k
    · obtain ⟨rfl, rfl⟩ := hd; exact .writeSad a
    · rw [writeSad_chan_other a s hd]; exact .same _
  | writeDad d a k =>
    by_cases hd : cpu = d ∧ ch = k
    · obtain ⟨rfl, rfl⟩ := hd; exact .writeDad a
    · rw [writeDad_chan_other a s hd]; exact .same _
  | writeCnt d a k =>
    by_cases hd : cpu = d ∧ ch = k
    · obtain ⟨rfl, rfl⟩ := hd; exact .writeCnt a
    · rw [writeCnt_chan_other a s hd]; exact .same _
  | read d a id v => exact .same _
  | trigger d mode m => rw [foldl_triggerChan_chan]; exact .same _
  | dispatch d k t hdisp =>
    by_cases hd : cpu = d ∧ ch = k
    · obtain ⟨rfl, rfl⟩ := hd; exact .dispatch t hdisp
    · obtain ⟨-, -, -, hother⟩ := execDispatch_config hdisp
      rw [(hother cpu ch hd).1]; exact .same _
  | reset t hr => exact absurd rfl hi

/-- Settles O56: of the operations that touch a channel only the control write reaches its shadow registers, and it loads them
at the transition alone. -/
theorem shadowWrittenAtReload : Obligations.ShadowWrittenAtReload := by
  intro i s t cpu ch h hi hown
  have heffect := channelEffect_of_exec h hi cpu ch
  generalize t.chan cpu ch = c at heffect
  cases heffect with
  | same => exact .inl ⟨rfl, rfl, rfl⟩
  | writeSad a => rw [writeSad_chan_self]; exact .inl ⟨rfl, rfl, rfl⟩
  | writeDad a => rw [writeDad_chan_self]; exact .inl ⟨rfl, rfl, rfl⟩
  | writeCnt a =>
    obtain ⟨hload, hkeep⟩ := writeCnt_shadow cpu ch a s
    obtain ⟨-, -, hctl⟩ := writeCnt_config cpu ch a s
    rw [← hctl] at hload hkeep
    by_cases hstart : ctlEnable (s.chan cpu ch).control = false
        ∧ ctlEnable ((writeCnt cpu ch a s).chan cpu ch).control = true
    · exact .inr ⟨⟨a, rfl⟩, hstart.1, hstart.2, hload hstart⟩
    · exact .inl (hkeep hstart)
  | dispatch t hd => exact absurd rfl hown

theorem bookkeeping_tasks_le (cpu : Cpu) (ch : Chan) (ctl : Word) (moved : BitVec 21) (s : State) :
    s.tasks cpu ch ≤ (bookkeeping cpu ch ctl moved s).tasks cpu ch := by
  by_cases hstop : StopsAfterStep1 cpu ch ctl moved s
  · rw [bookkeeping_of_stops hstop]
    split <;> simp
  · rw [bookkeeping_of_not_stops hstop, repeatOrDisable, finishIrq_tasks]
    split
    · rw [repeatReload_tasks]
      split <;> simp
    · simp

/-- A DISPATCH takes one task of its channel, and may add some of it. -/
theorem execDispatch_tasks_le {cpu : Cpu} {ch : Chan} {s t : State} (h : execDispatch cpu ch s = .next t) :
    s.tasks cpu ch ≤ t.tasks cpu ch + 1 := by
  obtain ⟨hpend, u, hu, rfl⟩ := execDispatch_next.mp h
  have htask := (burstEnd_of_copyUnits hu).tasks_succ (Nat.pos_of_ne_zero hpend)
  have hle := bookkeeping_tasks_le cpu ch (s.chan cpu ch).control (planOf s cpu ch).moved u
  omega

/-- Tasks of a channel become fewer only by its own DISPATCH, one at a time, or by RESET (R44). -/
theorem exec_fewer_tasks {i : Instr} {s t : State} (h : exec i s = .next t) (hi : i ≠ .reset) {cpu : Cpu} {ch : Chan}
    (hless : t.tasks cpu ch < s.tasks cpu ch) : i = .dispatch cpu ch ∧ t.tasks cpu ch + 1 = s.tasks cpu ch := by
  cases effect_of_exec h with
  | writeAu d a r => exact absurd hless (lt_irrefl _)
  | writeSad d a k => exact absurd hless (lt_irrefl _)
  | writeDad d a k => exact absurd hless (lt_irrefl _)
  | writeCnt d a k => rw [writeCnt_tasks] at hless; omega
  | read d a id v => exact absurd hless (lt_irrefl _)
  | trigger d mode m => rw [foldl_triggerChan_tasks] at hless; omega
  | dispatch d k t hd =>
    by_cases hself : cpu = d ∧ ch = k
    · obtain ⟨rfl, rfl⟩ := hself
      have hle := execDispatch_tasks_le hd
      exact ⟨rfl, by omega⟩
    · obtain ⟨-, -, -, hother⟩ := execDispatch_config hd
      rw [(hother cpu ch hself).2] at hless
      exact absurd hless (lt_irrefl _)
  | reset t hr => exact absurd rfl hi

/-- A configuration register of a channel changes by its own write only, and bit 31 of the control register by DISPATCH. -/
theorem ChannelEffect.registers {s : State} {cpu : Cpu} {ch : Chan} {i : Instr} {c : Channel}
    (h : ChannelEffect s cpu ch i c) :
    (c.sourceAddr = (s.chan cpu ch).sourceAddr ∨ ∃ a, i = Instr.ofWrite cpu a (.sad ch))
    ∧ (c.destAddr = (s.chan cpu ch).destAddr ∨ ∃ a, i = Instr.ofWrite cpu a (.dad ch))
    ∧ (c.control = (s.chan cpu ch).control ∨ (∃ a, i = Instr.ofWrite cpu a (.cnt ch))
      ∨ i = .dispatch cpu ch ∧ c.control = clearEnable (s.chan cpu ch).control) := by
  cases h with
  | same => exact ⟨.inl rfl, .inl rfl, .inl rfl⟩
  | writeSad a => rw [writeSad_chan_self]; exact ⟨.inr ⟨a, rfl⟩, .inl rfl, .inl rfl⟩
  | writeDad a => rw [writeDad_chan_self]; exact ⟨.inl rfl, .inr ⟨a, rfl⟩, .inl rfl⟩
  | writeCnt a =>
    obtain ⟨hsrc, hdst, -⟩ := writeCnt_config cpu ch a s
    exact ⟨.inl hsrc, .inl hdst, .inr (.inl ⟨a, rfl⟩)⟩
  | dispatch t hd =>
    obtain ⟨hsrc, hdst, hctl, -⟩ := execDispatch_config hd
    exact ⟨.inl hsrc, .inl hdst, hctl.imp_right fun hclear => .inr ⟨rfl, hclear⟩⟩

/-- Settles O57: the registers by `ChannelEffect.registers`, the tasks by `exec_fewer_tasks`. -/
theorem whoChangesWhat : Obligations.WhoChangesWhat := by
  intro i s t cpu ch h hi
  obtain ⟨hsrc, hdst, hctl⟩ := (channelEffect_of_exec h hi cpu ch).registers
  exact ⟨hsrc.resolve_left, hdst.resolve_left, hctl.resolve_left, exec_fewer_tasks h hi⟩

end Sys2Proof.Machine
end

section
/-! DISPATCH: when it completes, what it accesses, and how it ends (R183 to R196, R202). -/

namespace Sys2Proof.Machine

/-! Completion and refusal. -/

/-- Settles O31: a DISPATCH is a pending task and a burst, and a burst goes on exactly if every unit lands. -/
theorem dispatchCompletes : Obligations.DispatchCompletes := by
  intro cpu ch s
  refine ⟨⟨fun ⟨t, ht⟩ => ?_, fun h => ?_⟩, fun h => if_pos h⟩
  · obtain ⟨hpend, u, hu, -⟩ := execDispatch_next.mp ht
    exact ⟨Nat.pos_of_ne_zero hpend, (copyUnits_completes (s := takeTask cpu ch s)).mp ⟨u, hu⟩⟩
  · obtain ⟨u, -, hexec⟩ := dispatch_of_runs h
    exact ⟨_, hexec⟩

/-- A unit at a multiple of its size on a DMA register that the CPU reaches lands nowhere (R202). -/
theorem landing_dmaRegister {c : Config} {cpu : Cpu} {a : Word} {w : Width} {id : RegId} (ha : a.toNat % w.bytes = 0)
    (hreg : regAt c cpu (slotOf a) = some id) (hid : ∀ r, id ≠ .au r) :
    landing c cpu a w = .error .dmaRegisterInBurst := by
  have haligned : alignedTo a w = true := by rw [alignedTo, ha]; rfl
  rw [landing, if_pos haligned, place, hreg]
  cases id with
  | au r => exact absurd rfl (hid r)
  | sad ch => rfl
  | dad ch => rfl
  | cnt ch => rfl

/-- A unit copy is refused with the refusal of its read, or, where that lands, with that of its write. -/
theorem copyUnit_refused {cpu : Cpu} {ch : Chan} {p : Plan} {s : State} {e : Refusal}
    (h : landing s.cfg cpu (s.chan cpu ch).currentSrc p.unit = .error e
      ∨ lands s.cfg cpu (s.chan cpu ch).currentSrc p.unit = true
        ∧ landing s.cfg cpu (s.chan cpu ch).currentDst p.unit = .error e) :
    copyUnit cpu ch p s = .refused e := by
  obtain hsrc | ⟨hsrc, hdst⟩ := h
  · simp only [copyUnit, memRead, hsrc, andThen]
  · obtain ⟨l, hl⟩ := lands_iff.mp hsrc
    simp only [copyUnit, memRead, hl, andThen, memWrite, draw_cfg, emit_cfg, draw_chan, emit_chan, hdst]

/-- A burst whose units before unit `i` land is refused with the refusal of unit `i`. -/
theorem copyUnits_refused {cpu : Cpu} {ch : Chan} {p : Plan} {e : Refusal} {n i : Nat} {s : State} (hi : i < n)
    (hbefore : ∀ j, j < i →
      lands s.cfg cpu ((s.chan cpu ch).currentSrc + BitVec.ofNat 32 j * p.srcStep) p.unit = true
      ∧ lands s.cfg cpu ((s.chan cpu ch).currentDst + BitVec.ofNat 32 j * p.dstStep) p.unit = true)
    (hunit : landing s.cfg cpu ((s.chan cpu ch).currentSrc + BitVec.ofNat 32 i * p.srcStep) p.unit = .error e
      ∨ lands s.cfg cpu ((s.chan cpu ch).currentSrc + BitVec.ofNat 32 i * p.srcStep) p.unit = true
        ∧ landing s.cfg cpu ((s.chan cpu ch).currentDst + BitVec.ofNat 32 i * p.dstStep) p.unit = .error e) :
    copyUnits cpu ch p n s = .refused e := by
  induction i generalizing n s with
  | zero =>
    obtain ⟨n, rfl⟩ := Nat.exists_eq_succ_of_ne_zero (by omega : n ≠ 0)
    have hfirst : copyUnit cpu ch p s = .refused e := copyUnit_refused (by simpa using hunit)
    simp only [copyUnits, hfirst, andThen]
  | succ i ih =>
    obtain ⟨n, rfl⟩ := Nat.exists_eq_succ_of_ne_zero (by omega : n ≠ 0)
    have h0 := hbefore 0 (by omega)
    simp only [show BitVec.ofNat 32 0 = 0 from rfl, zero_mul, add_zero] at h0
    obtain ⟨l1, h1⟩ := lands_iff.mp h0.1
    obtain ⟨l2, h2⟩ := lands_iff.mp h0.2
    simp only [copyUnits, copyUnit_next.mpr ⟨l1, l2, h1, h2, rfl⟩, andThen]
    refine ih (by omega) (fun j hj => ?_) ?_
    · simpa [step_address] using hbefore (j + 1) (by omega)
    · simpa [step_address] using hunit

/-- Settles O32: the unit's landing is the refusal, which ends the burst. -/
theorem dmaRegisterInBurstRefused : Obligations.DmaRegisterInBurstRefused := by
  intro cpu ch s i id p hpend hi hbefore hid hunit
  have hburst : copyUnits cpu ch p p.copies (takeTask cpu ch s) = .refused .dmaRegisterInBurst := by
    refine copyUnits_refused hi hbefore ?_
    exact hunit.imp (fun ⟨ha, hreg⟩ => landing_dmaRegister ha hreg hid)
      fun ⟨hlands, ha, hreg⟩ => ⟨hlands, landing_dmaRegister ha hreg hid⟩
  show execDispatch cpu ch s = _
  rw [execDispatch, if_neg (Nat.ne_of_gt hpend), runTask]
  simp only [planOf_takeTask]
  rw [hburst]
  rfl

/-! The accesses of a DISPATCH. -/

/-- The bookkeeping accesses no memory. -/
theorem bookkeeping_transfers (cpu : Cpu) (ch : Chan) (ctl : Word) (moved : BitVec 21) (s : State) :
    transfers (bookkeeping cpu ch ctl moved s).trace = transfers s.trace := by
  obtain ⟨m, n, htrace, -⟩ := bookkeeping_trace cpu ch ctl moved s
  rw [htrace, transfers_closingEvents]

/-- The accesses of a DISPATCH that runs are those of its burst, at the addresses of its plan (R67 b). -/
theorem execDispatch_transfers {cpu : Cpu} {ch : Chan} {s t : State} (h : execDispatch cpu ch s = .next t) :
    ∃ value, transfers t.trace =
      (unitTransfers cpu (planOf s cpu ch).unit (unitSrc s cpu ch) (unitDst s cpu ch) value (planOf s cpu ch).copies).reverse
        ++ transfers s.trace := by
  obtain ⟨-, u, hu, rfl⟩ := execDispatch_next.mp h
  obtain ⟨value, hvalue⟩ := copyUnits_transfers hu
  exact ⟨value, by rw [bookkeeping_transfers, hvalue]; rfl⟩

theorem planOf_general {s : State} {cpu : Cpu} {ch : Chan}
    (h : isAudio s.cfg s.compat ch (s.chan cpu ch).control = false) :
    planOf s cpu ch = generalPlan s.cfg (s.chan cpu ch).control (s.chan cpu ch).remainingWords := by
  simp only [planOf, h, Bool.false_eq_true, if_false]

/-- The length of a general burst as a number (R188, R189). -/
theorem burstLength_toNat (c : Config) (ctl : Word) (remaining : BitVec 21) :
    (burstLength c ctl remaining).toNat =
      if ctlTrigMode ctl = c.modeGxfifo then
        (match c.gxfifoBurstMax with
         | some b => min remaining.toNat b
         | none => remaining.toNat)
      else remaining.toNat := by
  unfold burstLength
  simp only [beq_iff_eq]
  split
  · cases c.gxfifoBurstMax with
    | none => rfl
    | some b => exact Nat.mod_eq_of_lt ((Nat.min_le_left _ _).trans_lt remaining.isLt)
  · rfl

/-- An address `i` steps on, as the integer it is modulo 2^32. -/
theorem ofInt_step (a : Word) (i : Nat) (step : Int) :
    BitVec.ofInt 32 (a.toNat + i * step) = a + BitVec.ofNat 32 i * BitVec.ofInt 32 step := by
  rw [BitVec.ofInt_add, BitVec.ofInt_mul, BitVec.ofInt_natCast, BitVec.ofInt_natCast, BitVec.ofNat_toNat, BitVec.setWidth_eq]

theorem stepUp_eq_ofInt (w : Width) : stepUp w = BitVec.ofInt 32 w.bytes := by
  cases w <;> rfl

theorem stepDown_eq_ofInt (w : Width) : stepDown w = BitVec.ofInt 32 (-w.bytes) := by
  cases w <;> rfl

theorem srcStep_eq_ofInt (ctl : Word) (w : Width) :
    srcStep ctl w = BitVec.ofInt 32 (if ctl.extractLsb' 23 2 = 1#2 then -w.bytes else w.bytes) := by
  simp only [srcStep, beq_iff_eq, ctlSrcMode]
  split
  · exact stepDown_eq_ofInt w
  · exact stepUp_eq_ofInt w

theorem dstStep_eq_ofInt (ctl : Word) (w : Width) :
    dstStep ctl w = BitVec.ofInt 32 (if ctl.extractLsb' 21 2 = 1#2 then -w.bytes
      else if ctl.extractLsb' 21 2 = 2#2 then 0 else w.bytes) := by
  simp only [dstStep, beq_iff_eq, ctlDstMode]
  split
  · exact stepDown_eq_ofInt w
  · split
    · rfl
    · exact stepUp_eq_ofInt w

/-- Settles O33: the accesses of the burst, with the plan's unit, steps and length in the terms of the claim. -/
theorem generalBurstAccesses : Obligations.GeneralBurstAccesses := by
  intro cpu ch s hruns haudio
  obtain ⟨u, -, hexec⟩ := dispatch_of_runs hruns
  obtain ⟨value, hvalue⟩ := execDispatch_transfers hexec
  refine ⟨_, hexec, value, ?_⟩
  simp only [ofInt_step, ← srcStep_eq_ofInt, ← dstStep_eq_ofInt]
  have hplan := planOf_general haudio
  have hsrc : unitSrc s cpu ch = fun i => (s.chan cpu ch).currentSrc
      + BitVec.ofNat 32 i * srcStep (s.chan cpu ch).control (ctlUnit (s.chan cpu ch).control) := by
    funext i; rw [unitSrc, hplan]; rfl
  have hdst : unitDst s cpu ch = fun i => (s.chan cpu ch).currentDst
      + BitVec.ofNat 32 i * dstStep (s.chan cpu ch).control (ctlUnit (s.chan cpu ch).control) := by
    funext i; rw [unitDst, hplan]; rfl
  rw [hvalue, hsrc, hdst, hplan, generalPlan, burstLength_toNat]
  rfl

/-! The end of a DISPATCH without a repeat (R192). -/

/-- Settles O37: the dispatch is the burst, the count-down, the disable and the interrupt. -/
theorem disableAfterBurst : Obligations.DisableAfterBurst := by
  intro cpu ch s hruns hgoes hrep
  obtain ⟨u, hend, hexec⟩ := dispatch_of_runs hruns
  have htasks := hend.tasks_succ hruns.1
  have hchan := hend.countDown_chan (planOf s cpu ch).moved
  refine ⟨_, hexec, ?_⟩
  rw [bookkeeping_of_not_stops (mt hend.stops_iff.mp hgoes), repeatOrDisable_of_not_repeat hrep, finishIrq_chan,
    disable_chan, if_pos ⟨rfl, rfl⟩, hchan, finishIrq_tasks, disable_tasks, countDown_tasks]
  exact ⟨clearEnable_getLsbD _, rfl, rfl, rfl, htasks⟩

end Sys2Proof.Machine
end

section
/-! The audio burst, the empty burst, and the frame of a burst in memory (R185, R188, R196). -/

namespace Sys2Proof.Machine

theorem next_inj {α : Type} {a b : α} {o : Host.Outcome α Fault Refusal} (ha : o = .next a) (hb : o = .next b) : a = b := by
  rw [ha] at hb
  exact Host.Outcome.next.inj hb

/-! The audio burst. -/

theorem isAudio_iff {c : Config} {compat : Bool} {ch : Chan} {ctl : Word} :
    isAudio c compat ch ctl = true ↔
      compat = true ∧ (ch = c.audioA ∨ ch = c.audioB) ∧ ctlTrigMode ctl = c.modeSpecial := by
  simp only [isAudio, Bool.and_eq_true, Bool.or_eq_true, beq_iff_eq, and_assoc]

theorem planOf_audio {s : State} {cpu : Cpu} {ch : Chan} (h : isAudio s.cfg s.compat ch (s.chan cpu ch).control = true) :
    planOf s cpu ch = audioPlan (s.chan cpu ch).control := by
  simp only [planOf, h, if_true]

/-- The mode numbers are apart (R5). -/
theorem Config.wf_modes {c : Config} (h : c.wf = true) :
    c.modeGxfifo ≠ 0#3 ∧ c.modeSpecial ≠ 0#3 ∧ c.modeSpecial ≠ c.modeGxfifo := by
  simp only [Config.wf, Bool.and_eq_true, bne_iff_ne] at h
  obtain ⟨⟨⟨⟨⟨⟨-, hgx⟩, hsp⟩, hne⟩, -⟩, -⟩, -⟩ := h
  exact ⟨hgx, hsp, hne⟩

theorem unitTransfers_four (cpu : Cpu) (w : Width) (src dst value : Nat → Word) :
    (unitTransfers cpu w src dst value 4).reverse =
      [.memWrite cpu (dst 3) w (value 3), .memRead cpu (src 3) w (value 3),
       .memWrite cpu (dst 2) w (value 2), .memRead cpu (src 2) w (value 2),
       .memWrite cpu (dst 1) w (value 1), .memRead cpu (src 1) w (value 1),
       .memWrite cpu (dst 0) w (value 0), .memRead cpu (src 0) w (value 0)] := rfl

theorem srcStep_word (ctl : Word) : srcStep ctl .word = if ctl.extractLsb' 23 2 = 1#2 then -4#32 else 4#32 := by
  simp only [srcStep, beq_iff_eq]
  rfl

section Audio
variable {s : State} {cpu : Cpu} {ch : Chan}

theorem unitSrc_audio (h : isAudio s.cfg s.compat ch (s.chan cpu ch).control = true) (i : Nat) :
    unitSrc s cpu ch i = (s.chan cpu ch).currentSrc + BitVec.ofNat 32 i * srcStep (s.chan cpu ch).control .word := by
  rw [unitSrc, planOf_audio h]; rfl

theorem unitDst_audio (h : isAudio s.cfg s.compat ch (s.chan cpu ch).control = true) (i : Nat) :
    unitDst s cpu ch i = (s.chan cpu ch).currentDst := by
  rw [unitDst, planOf_audio h]
  exact (congrArg _ (mul_zero _)).trans (add_zero _)

end Audio

/-- Settles O34: the accesses of the audio plan, and steps 2 and 3 as `Transfer.repeatReload` and `disableAfterBurst` say. -/
theorem audioBurst : Obligations.AudioBurst := by
  intro cpu ch s hcfg hruns hcompat hch hmode
  have haudio : isAudio s.cfg s.compat ch (s.chan cpu ch).control = true := isAudio_iff.mpr ⟨hcompat, hch, hmode⟩
  obtain ⟨-, hsp, hne⟩ := Config.wf_modes hcfg
  have hmode' : ctlTrigMode (s.chan cpu ch).control = s.cfg.modeSpecial := hmode
  have hnogx : ctlTrigMode (s.chan cpu ch).control ≠ s.cfg.modeGxfifo := hmode' ▸ hne
  have hgoes : ¬endsEarly s cpu ch := fun h => hnogx h.1
  have hcopies : (planOf s cpu ch).copies = 4 := by rw [planOf_audio haudio]; rfl
  obtain ⟨u, -, hexec⟩ := dispatch_of_runs hruns
  obtain ⟨value, hvalue⟩ := execDispatch_transfers hexec
  have hsrc4 := unitSrc_audio haudio 4
  rw [srcStep_word] at hsrc4
  refine ⟨_, hexec, ⟨value 0, value 1, value 2, value 3, ?_⟩, ?_, fun hrep => ?_, fun hrep => ?_⟩
  · rw [hvalue, hcopies, unitTransfers_four]
    simp only [unitSrc_audio haudio, unitDst_audio haudio, srcStep_word, planOf_audio haudio]
    simp [audioPlan]
  · by_cases hrep : repeats s cpu ch
    · obtain ⟨t, ht, -, -, hsrc, -⟩ := Transfer.repeatReload cpu ch s hruns hgoes hrep
      rw [next_inj hexec ht, hsrc, hcopies, hsrc4]
    · obtain ⟨t, ht, -, hsrc, -⟩ := disableAfterBurst cpu ch s hruns hgoes hrep
      rw [next_inj hexec ht, hsrc, hcopies, hsrc4]
  · have hno : ¬repeats s cpu ch := fun h => Bool.false_ne_true (hrep.symm.trans h.1)
    obtain ⟨t, ht, -, -, hdst, hrem, -⟩ := disableAfterBurst cpu ch s hruns hgoes hno
    rw [next_inj hexec ht, hdst, hrem, unitDst_audio haudio, if_neg hnogx]
    exact ⟨rfl, rfl⟩
  · obtain ⟨t, ht, hrem, hdst, -⟩ := Transfer.repeatReload cpu ch s hruns hgoes ⟨hrep, hmode' ▸ hsp⟩
    rw [next_inj hexec ht, hrem, hdst, unitDst_audio haudio]
    exact ⟨rfl, rfl⟩

/-! The empty burst. -/

/-- A general burst of nothing has no unit, and counts none as moved. -/
theorem planOf_zero {s : State} {cpu : Cpu} {ch : Chan} (haudio : isAudio s.cfg s.compat ch (s.chan cpu ch).control = false)
    (hrem : (s.chan cpu ch).remainingWords = 0#21) : (planOf s cpu ch).copies = 0 ∧ (planOf s cpu ch).moved = 0#21 := by
  have hmoved := moved_le_remainingWords s cpu ch
  rw [hrem, planOf_general haudio] at hmoved
  have hzero := Nat.le_zero.mp hmoved
  rw [planOf_general haudio]
  exact ⟨hzero, BitVec.eq_of_toNat_eq hzero⟩

/-- Settles O40: the burst is empty, so the DISPATCH is the bookkeeping alone, whose steps have their lemmas. -/
theorem zeroCountCopiesNothing : Obligations.ZeroCountCopiesNothing := by
  intro cpu ch s hpend haudio hrem
  obtain ⟨hcopies, hmoved⟩ := planOf_zero haudio hrem
  have hruns : Runs s cpu ch := ⟨hpend, fun i hi => absurd hi (by omega)⟩
  have hgoes : ¬endsEarly s cpu ch := fun h => h.2.1 (hrem.trans hmoved.symm)
  have hexec : exec (.dispatch cpu ch) s
      = .next (bookkeeping cpu ch (s.chan cpu ch).control (planOf s cpu ch).moved (takeTask cpu ch s)) :=
    execDispatch_next.mpr ⟨Nat.ne_of_gt hpend, _, by rw [hcopies]; rfl, rfl⟩
  have hsrc0 : unitSrc s cpu ch 0 = (s.chan cpu ch).currentSrc :=
    (congrArg _ (zero_mul _)).trans (add_zero _)
  have hdst0 : unitDst s cpu ch 0 = (s.chan cpu ch).currentDst :=
    (congrArg _ (zero_mul _)).trans (add_zero _)
  obtain ⟨t', ht', hirq, hnoirq⟩ := Transfer.completionInterrupt cpu ch s hruns
  refine ⟨_, hexec, bookkeeping_transfers .., bookkeeping_au .., byteAt_congr (bookkeeping_mem ..) (bookkeeping_cfg ..),
    ?_, fun hrep => ?_, fun hrep => ?_, ?_⟩
  · by_cases hrep : repeats s cpu ch
    · obtain ⟨t, ht, -, -, hsrc, -⟩ := Transfer.repeatReload cpu ch s hruns hgoes hrep
      rw [next_inj hexec ht, hsrc, hcopies, hsrc0]
    · obtain ⟨t, ht, -, hsrc, -⟩ := disableAfterBurst cpu ch s hruns hgoes hrep
      rw [next_inj hexec ht, hsrc, hcopies, hsrc0]
  · obtain ⟨t, ht, hcount, -, -, hctl, -⟩ := Transfer.repeatReload cpu ch s hruns hgoes hrep
    rw [next_inj hexec ht]
    exact ⟨hctl, hcount⟩
  · obtain ⟨t, ht, hctl, -, hdst, hleft, -⟩ := disableAfterBurst cpu ch s hruns hgoes hrep
    rw [next_inj hexec ht, hdst, hcopies, hdst0, hleft, hmoved, hrem]
    exact ⟨hctl 31, rfl, by split <;> rfl⟩
  · rw [next_inj hexec ht']
    split
    · rename_i hbit; exact (hirq hgoes hbit).1
    · rename_i hbit; exact hnoirq (.inr (Bool.eq_false_iff.mpr hbit))

/-! The frame in memory. -/

/-- Settles O42: the burst leaves what its units do not store to, and the bookkeeping leaves memory. -/
theorem burstMemoryFrame : Obligations.BurstMemoryFrame := by
  intro cpu ch s t h d a hout
  obtain ⟨-, u, hu, rfl⟩ := execDispatch_next.mp h
  rw [byteAt_congr (bookkeeping_mem ..) (bookkeeping_cfg ..)]
  exact copyUnits_byteAt hu d a hout

/-! A stale task (R194; log 31). -/

/-- A disabled channel in GXFIFO mode with the repeat bit, count 0 and one stale task, while the FIFO is half empty. -/
def staleState : State :=
  { (State.reset.setChan .primary .ch0 { Channel.reset with control := 0x3A000000#32 }).setTasks .primary .ch0 1 with
    fifoHalfEmpty := true }

/-- Refutes O58: the stale task of a disabled GXFIFO channel is scheduled again in bookkeeping step 2 (R191; log 31). -/
theorem not_dispatchSchedulesEnabledOnly : ¬Obligations.DispatchSchedulesEnabledOnly := by
  intro h
  have hexec : exec (.dispatch .primary .ch0) staleState
      = .next (schedule .primary .ch0 (takeTask .primary .ch0 staleState)) := rfl
  have henable := h .primary .ch0 staleState _ hexec (by decide)
  exact absurd henable (by decide)

end Sys2Proof.Machine
end

section
/-! Units of plain memory: a unit read gives back the unit written (R53, R60, R61; log 5, log 8). -/

namespace Sys2Proof.Machine

/-- Where no window of a CPU's own is listed, every view shows the shared memory. -/
theorem homeOf_of_no_own {c : Config} (h : c.own = []) (cpu : Cpu) (a : Word) : homeOf c cpu a = .shared := by
  simp [homeOf, inWindow, h]

/-- Settles O59: `setByte_byteAt` in its cases, and the canonical form by `setByte_memoryWf`. -/
theorem byteReadAfterWrite : Obligations.ByteReadAfterWrite := by
  intro s cpu d a x v
  refine ⟨?_, fun hhome => ?_, fun hother => ?_, fun hown => ?_, fun hs => setByte_memoryWf hs cpu a v⟩
  · rw [setByte_byteAt, if_pos ⟨rfl, rfl⟩]
  · rw [setByte_byteAt, if_pos ⟨rfl, hhome⟩]
  · rw [setByte_byteAt, if_neg fun h => hother.elim (fun hne => hne h.2) fun hne => hne h.1]
  · rw [homeOf_of_no_own hown, homeOf_of_no_own hown]

/-! The bytes of a unit. -/

theorem width_bytes_le (w : Width) : w.bytes ≤ 4 := by
  cases w <;> decide

theorem extractLsb'_setWidth_of_le {n m : Nat} (x : BitVec n) {start len : Nat} (h : start + len ≤ m) :
    (x.setWidth m).extractLsb' start len = x.extractLsb' start len := by
  apply BitVec.eq_of_getLsbD_eq
  intro i hi
  simp only [BitVec.getLsbD_extractLsb', BitVec.getLsbD_setWidth, hi, decide_true, Bool.true_and,
    decide_eq_true (show start + i < m by omega)]

/-- Byte `k` of a number put together from bytes. -/
theorem bytes_of_word (b : Nat → Byte) {k : Nat} (hk : k < 4) :
    (b 3 ++ b 2 ++ b 1 ++ b 0).extractLsb' (8 * k) 8 = b k := by
  obtain rfl | rfl | rfl | rfl : k = 0 ∨ k = 1 ∨ k = 2 ∨ k = 3 := by omega
  · exact BitVec.extractLsb'_append_eq_right
  · rw [BitVec.extractLsb'_append_eq_of_le (by decide)]
    exact BitVec.extractLsb'_append_eq_right
  · rw [BitVec.extractLsb'_append_eq_of_le (by decide), BitVec.extractLsb'_append_eq_of_le (by decide)]
    exact BitVec.extractLsb'_append_eq_right
  · rw [BitVec.extractLsb'_append_eq_of_le (by decide), BitVec.extractLsb'_append_eq_of_le (by decide)]
    exact BitVec.extractLsb'_append_eq_left

theorem bytes_of_half (b : Nat → Byte) {k : Nat} (hk : k < 2) : (b 1 ++ b 0).extractLsb' (8 * k) 8 = b k := by
  obtain rfl | rfl : k = 0 ∨ k = 1 := by omega
  · exact BitVec.extractLsb'_append_eq_right
  · exact BitVec.extractLsb'_append_eq_left

/-- Byte `k` of a unit read is the byte loaded at its `k`-th address (log 8). -/
theorem loadUnit_byte (s : State) (cpu : Cpu) (a : Word) {w : Width} {k : Nat} (hk : k < w.bytes) :
    (s.loadUnit cpu a w).extractLsb' (8 * k) 8 = s.loadByte cpu a k := by
  cases w with
  | byte =>
    obtain rfl : k = 0 := Nat.lt_one_iff.mp hk
    exact (extractLsb'_setWidth_of_le _ (by decide)).trans BitVec.extractLsb'_eq_self
  | half =>
    have hk2 : k < 2 := hk
    exact (extractLsb'_setWidth_of_le _ (by omega)).trans (bytes_of_half (s.loadByte cpu a) hk2)
  | word => exact bytes_of_word (s.loadByte cpu a) hk

/-- A number below `2^(8n)` is known by its `n` bytes. -/
theorem eq_of_bytes {x y : Word} {n : Nat} (hx : x.toNat < 2 ^ (8 * n)) (hy : y.toNat < 2 ^ (8 * n))
    (h : ∀ k, k < n → x.extractLsb' (8 * k) 8 = y.extractLsb' (8 * k) 8) : x = y := by
  apply BitVec.eq_of_getLsbD_eq
  intro i hi
  by_cases hin : i < 8 * n
  · have hbit := congrArg (·.getLsbD (i % 8)) (h (i / 8) (by omega))
    simpa [BitVec.getLsbD_extractLsb', Nat.mod_lt, Nat.div_add_mod] using hbit
  · rw [BitVec.getLsbD, BitVec.getLsbD, Nat.testBit_lt_two_pow (hx.trans_le (Nat.pow_le_pow_right (by omega) (by omega))),
      Nat.testBit_lt_two_pow (hy.trans_le (Nat.pow_le_pow_right (by omega) (by omega)))]

theorem loadUnit_lt (s : State) (cpu : Cpu) (a : Word) (w : Width) : (s.loadUnit cpu a w).toNat < 2 ^ (8 * w.bytes) := by
  cases w with
  | byte => exact (BitVec.toNat_setWidth _ _).trans_lt ((Nat.mod_le _ _).trans_lt (BitVec.isLt _))
  | half => exact (BitVec.toNat_setWidth _ _).trans_lt ((Nat.mod_le _ _).trans_lt (BitVec.isLt _))
  | word => exact BitVec.isLt _

theorem dataBits_byte_eq (w : Width) (v : Word) {k : Nat} (hk : k < w.bytes) :
    (dataBits w v).extractLsb' (8 * k) 8 = v.extractLsb' (8 * k) 8 := by
  have hw := width_bytes_le w
  apply BitVec.eq_of_getLsbD_eq
  intro i hi
  have hunit : 8 * k + i < 8 * w.bytes := by omega
  have hword : 8 * k + i < 32 := by omega
  simp only [BitVec.getLsbD_extractLsb', dataBits, BitVec.getLsbD_ofNat, Nat.testBit_mod_two_pow, hi, hunit, hword,
    decide_true, Bool.true_and]
  rfl

/-- A unit stored is the unit loaded: its low `8w` bits. -/
theorem loadUnit_storeBytes (s : State) (cpu : Cpu) (ea v : Word) (w : Width) :
    (s.storeBytes cpu ea v w.bytes).loadUnit cpu ea w = dataBits w v := by
  have hdata : (dataBits w v).toNat < 2 ^ (8 * w.bytes) := by
    rw [dataBits_toNat]; exact Nat.mod_lt _ (Nat.two_pow_pos _)
  refine eq_of_bytes (loadUnit_lt ..) hdata fun k hk => ?_
  rw [loadUnit_byte _ _ _ hk, dataBits_byte_eq w v hk, State.loadByte,
    storeBytes_byteAt s cpu cpu ea v hk (width_bytes_le w) rfl]

/-- Settles O60: both accesses land at the same address, and `loadUnit_storeBytes`. -/
theorem unitRoundTrip : Obligations.UnitRoundTrip := by
  intro s cpu a ea v w hl
  have hwrite : memWrite cpu a w v s = .next ((s.storeBytes cpu ea v w.bytes).emit (.memWrite cpu a w v)) := by
    rw [memWrite, hl]; rfl
  refine ⟨_, hwrite, ?_⟩
  simp only [memRead, emit_cfg, storeBytes_cfg, hl]
  exact ⟨_, congrArg _ (Prod.ext (loadUnit_storeBytes s cpu ea v w) rfl)⟩

end Sys2Proof.Machine
end

section
/-! What a burst of plain memory copies (R188, R195; log 5). -/

namespace Sys2Proof.Machine

theorem mem_unitBytes {a x : Word} {w : Width} : x ∈ unitBytes a w ↔ ∃ k, k < w.bytes ∧ a + BitVec.ofNat 32 k = x := by
  simp [unitBytes]

theorem storedAt_memory {c : Config} {cpu : Cpu} {a ea : Word} {w : Width} (h : landing c cpu a w = .ok (.memory ea)) :
    storedAt c cpu a w = unitBytes ea w := by
  rw [storedAt, h]
  rfl

theorem loadByte_of_known {s : State} {cpu : Cpu} {a : Word} {k : Nat} (h : (s.byteAt cpu (a + BitVec.ofNat 32 k)).isSome) :
    some (s.loadByte cpu a k) = s.byteAt cpu (a + BitVec.ofNat 32 k) := by
  obtain ⟨b, hb⟩ := Option.isSome_iff_exists.mp h
  rw [State.loadByte, hb]

/-- A unit copied from known plain memory to plain memory stands at the destination, in every view that shows it. -/
theorem afterUnit_copies {cpu d : Cpu} {ch : Chan} {p : Plan} {s : State} {src dst : Word} {k : Nat} (hk : k < p.unit.bytes)
    (hknown : (s.byteAt cpu (src + BitVec.ofNat 32 k)).isSome)
    (hd : homeOf s.cfg d (dst + BitVec.ofNat 32 k) = homeOf s.cfg cpu (dst + BitVec.ofNat 32 k)) :
    (afterUnit cpu ch p (.memory src) (.memory dst) s).byteAt d (dst + BitVec.ofNat 32 k)
      = s.byteAt cpu (src + BitVec.ofNat 32 k) := by
  rw [← loadByte_of_known hknown, ← loadUnit_byte s cpu src hk]
  exact storeBytes_byteAt _ cpu d dst _ hk (width_bytes_le p.unit) hd

/-! The addresses of a burst, from the working addresses on. -/

/-- The source and the destination address of the `i`-th unit of a burst of plan `p` that starts in `s`. -/
def burstSrc (cpu : Cpu) (ch : Chan) (p : Plan) (s : State) (i : Nat) : Word :=
  (s.chan cpu ch).currentSrc + BitVec.ofNat 32 i * p.srcStep

def burstDst (cpu : Cpu) (ch : Chan) (p : Plan) (s : State) (i : Nat) : Word :=
  (s.chan cpu ch).currentDst + BitVec.ofNat 32 i * p.dstStep

section Addresses
variable (cpu : Cpu) (ch : Chan) (p : Plan) (l1 l2 : Landing) (s : State)

theorem burstSrc_zero : burstSrc cpu ch p s 0 = (s.chan cpu ch).currentSrc :=
  (congrArg _ (zero_mul _)).trans (add_zero _)

theorem burstDst_zero : burstDst cpu ch p s 0 = (s.chan cpu ch).currentDst :=
  (congrArg _ (zero_mul _)).trans (add_zero _)

theorem burstSrc_afterUnit (i : Nat) :
    burstSrc cpu ch p (afterUnit cpu ch p l1 l2 s) i = burstSrc cpu ch p s (i + 1) := by
  simp [burstSrc, step_address]

theorem burstDst_afterUnit (i : Nat) :
    burstDst cpu ch p (afterUnit cpu ch p l1 l2 s) i = burstDst cpu ch p s (i + 1) := by
  simp [burstDst, step_address]

end Addresses

/-- The next `n` units are read from plain memory and written to plain memory, at the addresses as they stand. -/
def PlainUnits (cpu : Cpu) (ch : Chan) (p : Plan) (n : Nat) (s : State) : Prop :=
  ∀ i, i < n →
    landing s.cfg cpu (burstSrc cpu ch p s i) p.unit = .ok (.memory (burstSrc cpu ch p s i))
    ∧ landing s.cfg cpu (burstDst cpu ch p s i) p.unit = .ok (.memory (burstDst cpu ch p s i))

/-- The state after the first unit of a burst of plain memory. -/
def afterPlainUnit (cpu : Cpu) (ch : Chan) (p : Plan) (s : State) : State :=
  afterUnit cpu ch p (.memory (burstSrc cpu ch p s 0)) (.memory (burstDst cpu ch p s 0)) s

section PlainUnits
variable {cpu : Cpu} {ch : Chan} {p : Plan} {n : Nat} {s t : State}

theorem PlainUnits.tail (h : PlainUnits cpu ch p (n + 1) s) : PlainUnits cpu ch p n (afterPlainUnit cpu ch p s) := by
  intro i hi
  rw [afterPlainUnit, afterUnit_cfg, burstSrc_afterUnit, burstDst_afterUnit]
  exact h (i + 1) (by omega)

/-- A burst of plain memory is its first unit and the rest. -/
theorem PlainUnits.copyUnits_succ (h : PlainUnits cpu ch p (n + 1) s) (ht : copyUnits cpu ch p (n + 1) s = .next t) :
    copyUnits cpu ch p n (afterPlainUnit cpu ch p s) = .next t := by
  obtain ⟨hsrc, hdst⟩ := h 0 (by omega)
  simp only [copyUnits, andThen_next] at ht
  obtain ⟨u, hu, ht⟩ := ht
  obtain ⟨l1, l2, h1, h2, rfl⟩ := copyUnit_next.mp hu
  rw [← burstSrc_zero, hsrc] at h1
  rw [← burstDst_zero, hdst] at h2
  cases h1
  cases h2
  exact ht

/-- The first unit leaves every byte outside its destination. -/
theorem PlainUnits.first_byteAt (h : PlainUnits cpu ch p (n + 1) s) (d : Cpu) {x : Word}
    (hx : x ∉ unitBytes (burstDst cpu ch p s 0) p.unit) : (afterPlainUnit cpu ch p s).byteAt d x = s.byteAt d x := by
  have hdst := (h 0 (by omega)).2
  refine afterUnit_byteAt _ (by rwa [← burstDst_zero]) d x fun _ => ?_
  rwa [← burstDst_zero, storedAt_memory hdst]

/-- A burst of plain memory leaves every byte outside its destinations. -/
theorem PlainUnits.byteAt (h : PlainUnits cpu ch p n s) (ht : copyUnits cpu ch p n s = .next t) (d : Cpu) {x : Word}
    (hx : ∀ i, i < n → x ∉ unitBytes (burstDst cpu ch p s i) p.unit) : t.byteAt d x = s.byteAt d x :=
  copyUnits_byteAt ht d x fun _ i hi => by
    have hstored := storedAt_memory (h i hi).2
    rw [burstDst] at hstored
    rw [hstored]
    exact hx i hi

end PlainUnits

/-! A copy between separate ranges (R188). -/

/-- The next `n` units copy known plain memory to plain memory; no destination unit meets a source unit or another
destination unit. -/
structure CopyBurst (cpu : Cpu) (ch : Chan) (p : Plan) (n : Nat) (s : State) : Prop where
  plain : PlainUnits cpu ch p n s
  known : ∀ i, i < n → ∀ x ∈ unitBytes (burstSrc cpu ch p s i) p.unit, (s.byteAt cpu x).isSome
  apart : ∀ i j, i < n → j < n →
    ∀ x ∈ unitBytes (burstSrc cpu ch p s i) p.unit, x ∉ unitBytes (burstDst cpu ch p s j) p.unit
  distinct : ∀ i j, i < n → j < n → i ≠ j →
    ∀ x ∈ unitBytes (burstDst cpu ch p s i) p.unit, x ∉ unitBytes (burstDst cpu ch p s j) p.unit

section CopyBurst
variable {cpu : Cpu} {ch : Chan} {p : Plan} {n : Nat} {s t : State}

theorem CopyBurst.tail (h : CopyBurst cpu ch p (n + 1) s) : CopyBurst cpu ch p n (afterPlainUnit cpu ch p s) := by
  refine ⟨h.plain.tail, fun i hi x hx => ?_, fun i j hi hj x hx => ?_, fun i j hi hj hij x hx => ?_⟩
  · rw [afterPlainUnit, burstSrc_afterUnit] at hx
    rw [h.plain.first_byteAt cpu (h.apart (i + 1) 0 (by omega) (by omega) x hx)]
    exact h.known (i + 1) (by omega) x hx
  · rw [afterPlainUnit, burstSrc_afterUnit] at hx
    rw [afterPlainUnit, burstDst_afterUnit]
    exact h.apart (i + 1) (j + 1) (by omega) (by omega) x hx
  · rw [afterPlainUnit, burstDst_afterUnit] at hx ⊢
    exact h.distinct (i + 1) (j + 1) (by omega) (by omega) (by omega) x hx

/-- Every destination byte ends up as the source byte was: unit 0 is written and then left alone, and the other units are the
rest of the burst, whose sources unit 0 has left alone. -/
theorem CopyBurst.copies (h : CopyBurst cpu ch p n s) (ht : copyUnits cpu ch p n s = .next t) {i k : Nat} (hi : i < n)
    (hk : k < p.unit.bytes) (d : Cpu)
    (hd : homeOf s.cfg d (burstDst cpu ch p s i + BitVec.ofNat 32 k)
      = homeOf s.cfg cpu (burstDst cpu ch p s i + BitVec.ofNat 32 k)) :
    t.byteAt d (burstDst cpu ch p s i + BitVec.ofNat 32 k) = s.byteAt cpu (burstSrc cpu ch p s i + BitVec.ofNat 32 k) := by
  induction n generalizing s i with
  | zero => omega
  | succ n ih =>
    have hrest := h.plain.copyUnits_succ ht
    cases i with
    | zero =>
      have hkept : t.byteAt d (burstDst cpu ch p s 0 + BitVec.ofNat 32 k)
          = (afterPlainUnit cpu ch p s).byteAt d (burstDst cpu ch p s 0 + BitVec.ofNat 32 k) :=
        h.plain.tail.byteAt hrest d fun j hj => by
          rw [afterPlainUnit, burstDst_afterUnit]
          exact h.distinct 0 (j + 1) (by omega) (by omega) (by omega) _ (mem_unitBytes.mpr ⟨k, hk, rfl⟩)
      rw [hkept]
      exact afterUnit_copies hk (h.known 0 (by omega) _ (mem_unitBytes.mpr ⟨k, hk, rfl⟩)) hd
    | succ i =>
      have hcopied := ih h.tail hrest (i := i) (by omega)
      rw [afterPlainUnit, burstSrc_afterUnit, burstDst_afterUnit, afterUnit_cfg] at hcopied
      rw [hcopied hd]
      exact h.plain.first_byteAt cpu
        (h.apart (i + 1) 0 (by omega) (by omega) _ (mem_unitBytes.mpr ⟨k, hk, rfl⟩))

end CopyBurst

/-- Settles O43: the burst of a DISPATCH as a `CopyBurst`; the bookkeeping leaves memory. -/
theorem burstCopies : Obligations.BurstCopies := by
  intro cpu ch s p hpend hplain hknown hapart hdistinct
  have hcopy : CopyBurst cpu ch p p.copies (takeTask cpu ch s) := ⟨hplain, hknown, hapart, hdistinct⟩
  have hruns : Runs s cpu ch :=
    ⟨hpend, fun i hi => ⟨lands_iff.mpr ⟨_, (hplain i hi).1⟩, lands_iff.mpr ⟨_, (hplain i hi).2⟩⟩⟩
  obtain ⟨t, hexec⟩ := (dispatchCompletes cpu ch s).1.mpr hruns
  obtain ⟨-, u, hu, rfl⟩ := execDispatch_next.mp hexec
  refine ⟨_, hexec, fun i k hi hk d hd => ?_⟩
  rw [byteAt_congr (bookkeeping_mem ..) (bookkeeping_cfg ..)]
  exact hcopy.copies hu hi hk d hd

/-! A copy onto the unit ahead (R195). -/

/-- The next `n` units run upward over plain memory with the destination one unit ahead of the source, the first unit is
known, and the range does not wrap. -/
structure OverlapBurst (cpu : Cpu) (ch : Chan) (p : Plan) (n : Nat) (s : State) : Prop where
  plain : PlainUnits cpu ch p n s
  step : p.dstStep = BitVec.ofNat 32 p.unit.bytes
  ahead : ∀ i, burstDst cpu ch p s i = burstSrc cpu ch p s (i + 1)
  known : ∀ x ∈ unitBytes (burstSrc cpu ch p s 0) p.unit, (s.byteAt cpu x).isSome
  fits : (n + 1) * p.unit.bytes ≤ 2 ^ 32

theorem add_ofNat_ne {a : Word} {x y : Nat} (hx : x < 2 ^ 32) (hy : y < 2 ^ 32) (hne : x ≠ y) :
    a + BitVec.ofNat 32 x ≠ a + BitVec.ofNat 32 y := by
  intro h
  have hnat := congrArg BitVec.toNat ((BitVec.add_right_inj a).mp h)
  rw [BitVec.toNat_ofNat, BitVec.toNat_ofNat, Nat.mod_eq_of_lt hx, Nat.mod_eq_of_lt hy] at hnat
  exact hne hnat

section OverlapBurst
variable {cpu : Cpu} {ch : Chan} {p : Plan} {n : Nat} {s t : State}

theorem OverlapBurst.first (h : OverlapBurst cpu ch p (n + 1) s) {k : Nat} (hk : k < p.unit.bytes) :
    (afterPlainUnit cpu ch p s).byteAt cpu (burstDst cpu ch p s 0 + BitVec.ofNat 32 k)
      = s.byteAt cpu (burstSrc cpu ch p s 0 + BitVec.ofNat 32 k) :=
  afterUnit_copies hk (h.known _ (mem_unitBytes.mpr ⟨k, hk, rfl⟩)) rfl

theorem OverlapBurst.tail (h : OverlapBurst cpu ch p (n + 1) s) : OverlapBurst cpu ch p n (afterPlainUnit cpu ch p s) := by
  refine ⟨h.plain.tail, h.step, fun i => ?_, fun x hx => ?_, ?_⟩
  · rw [afterPlainUnit, burstDst_afterUnit, burstSrc_afterUnit]
    exact h.ahead (i + 1)
  · rw [afterPlainUnit, burstSrc_afterUnit, ← h.ahead 0] at hx
    obtain ⟨k, hk, rfl⟩ := mem_unitBytes.mp hx
    rw [h.first hk]
    exact h.known _ (mem_unitBytes.mpr ⟨k, hk, rfl⟩)
  · exact le_trans (Nat.mul_le_mul_right _ (by omega)) h.fits

/-- The first destination unit meets no later one. -/
theorem OverlapBurst.later_apart (h : OverlapBurst cpu ch p (n + 1) s) {j k : Nat} (hj : j < n) (hk : k < p.unit.bytes) :
    burstDst cpu ch p s 0 + BitVec.ofNat 32 k ∉ unitBytes (burstDst cpu ch p s (j + 1)) p.unit := by
  rw [mem_unitBytes]
  rintro ⟨k', hk', heq⟩
  have haddr : burstDst cpu ch p s (j + 1) + BitVec.ofNat 32 k'
      = burstDst cpu ch p s 0 + BitVec.ofNat 32 ((j + 1) * p.unit.bytes + k') := by
    rw [burstDst_zero, burstDst, h.step, ← BitVec.ofNat_mul, add_assoc, ← BitVec.ofNat_add]
  have hfits := h.fits
  have hlast : (j + 1) * p.unit.bytes + p.unit.bytes ≤ (n + 1 + 1) * p.unit.bytes := by
    rw [← Nat.succ_mul]
    exact Nat.mul_le_mul_right _ (by omega)
  have hone : p.unit.bytes ≤ (j + 1) * p.unit.bytes := Nat.le_mul_of_pos_left _ (by omega)
  exact add_ofNat_ne (by omega) (by omega) (by omega) (haddr.symm.trans heq)

/-- Every unit ends up as the first source unit was: unit 0 copies it one unit on, and it is the first source unit of the
rest of the burst. -/
theorem OverlapBurst.propagates (h : OverlapBurst cpu ch p n s) (ht : copyUnits cpu ch p n s = .next t) {i k : Nat} (hi : i < n)
    (hk : k < p.unit.bytes) :
    t.byteAt cpu (burstDst cpu ch p s i + BitVec.ofNat 32 k) = s.byteAt cpu (burstSrc cpu ch p s 0 + BitVec.ofNat 32 k) := by
  induction n generalizing s i with
  | zero => omega
  | succ n ih =>
    have hrest := h.plain.copyUnits_succ ht
    rw [← h.first hk]
    cases i with
    | zero =>
      refine h.plain.tail.byteAt hrest cpu fun j hj => ?_
      rw [afterPlainUnit, burstDst_afterUnit]
      exact h.later_apart hj hk
    | succ i =>
      have hcopied := ih h.tail hrest (i := i) (by omega)
      rwa [afterPlainUnit, burstSrc_afterUnit, burstDst_afterUnit, ← h.ahead 0] at hcopied

end OverlapBurst

/-- Settles O44: the burst of a DISPATCH as an `OverlapBurst`; the bookkeeping leaves memory. -/
theorem overlapPropagates : Obligations.OverlapPropagates := by
  intro cpu ch s p hpend hplain hsrc hdst hahead hknown hfits
  have hzero : burstSrc cpu ch p (takeTask cpu ch s) 0 = (s.chan cpu ch).currentSrc := burstSrc_zero ..
  have hover : OverlapBurst cpu ch p p.copies (takeTask cpu ch s) := by
    refine ⟨hplain, hdst, fun i => ?_, by rw [hzero]; exact hknown, hfits⟩
    have haddr := step_address (s.chan cpu ch).currentSrc p.srcStep i
    rw [hsrc, ← hahead, ← hdst] at haddr
    rw [burstSrc, hsrc, ← hdst]
    exact haddr
  have hruns : Runs s cpu ch :=
    ⟨hpend, fun i hi => ⟨lands_iff.mpr ⟨_, (hplain i hi).1⟩, lands_iff.mpr ⟨_, (hplain i hi).2⟩⟩⟩
  obtain ⟨t, hexec⟩ := (dispatchCompletes cpu ch s).1.mpr hruns
  obtain ⟨-, u, hu, rfl⟩ := execDispatch_next.mp hexec
  refine ⟨_, hexec, fun i k hi hk => ?_⟩
  rw [byteAt_congr (bookkeeping_mem ..) (bookkeeping_cfg ..), ← hzero]
  exact hover.propagates hu hi hk

end Sys2Proof.Machine
end

section
/-! The exactly-N law, from the enabling write to the end of the burst (R198). -/

namespace Sys2Proof.Machine

theorem writeCnt_transfers (cpu : Cpu) (ch : Chan) (a : WAccess) (s : State) :
    transfers (writeCnt cpu ch a s).trace = transfers s.trace := by
  rw [writeCnt_trace]
  exact transfers_closingEvents cpu ch _ 0 _ _

/-- An immediate start outside GXFIFO mode adds exactly one task (R153 part 3). -/
theorem cntSchedules_immediate {c : Config} {fifo : Bool} {old new : Word} (hold : ctlEnable old = false)
    (hnew : ctlEnable new = true) (hmode : ctlTrigMode new = 0#3) (hgx : c.modeGxfifo ≠ 0#3) :
    cntSchedules c fifo old new = 1 := by
  simp [cntSchedules, hold, hnew, hmode, Ne.symm hgx]

theorem srcStep_of_not_decrement {ctl : Word} (w : Width) (h : ctlSrcMode ctl ≠ 1#2) :
    srcStep ctl w = BitVec.ofNat 32 w.bytes := by
  simp [srcStep, stepUp, h]

theorem dstStep_of_increment {ctl : Word} (w : Width) (h : ctlDstMode ctl = 0#2 ∨ ctlDstMode ctl = 3#2) :
    dstStep ctl w = BitVec.ofNat 32 w.bytes := by
  obtain h | h := h <;> simp [dstStep, stepUp, h]

/-- The burst of an immediate channel that runs upward: its count, its unit, and both steps one unit. -/
structure UpwardBurst (s : State) (cpu : Cpu) (ch : Chan) : Prop where
  mode : ctlTrigMode (s.chan cpu ch).control = 0#3
  src : ctlSrcMode (s.chan cpu ch).control ≠ 1#2
  dst : ctlDstMode (s.chan cpu ch).control = 0#2 ∨ ctlDstMode (s.chan cpu ch).control = 3#2
  special : s.cfg.modeSpecial ≠ 0#3
  gxfifo : s.cfg.modeGxfifo ≠ 0#3

section UpwardBurst
variable {s : State} {cpu : Cpu} {ch : Chan}

theorem UpwardBurst.plan (h : UpwardBurst s cpu ch) :
    (planOf s cpu ch).copies = (s.chan cpu ch).remainingWords.toNat
    ∧ (planOf s cpu ch).unit = ctlUnit (s.chan cpu ch).control
    ∧ (planOf s cpu ch).srcStep = BitVec.ofNat 32 (ctlUnit (s.chan cpu ch).control).bytes
    ∧ (planOf s cpu ch).dstStep = BitVec.ofNat 32 (ctlUnit (s.chan cpu ch).control).bytes := by
  have haudio : isAudio s.cfg s.compat ch (s.chan cpu ch).control = false :=
    Bool.eq_false_iff.mpr fun ha => h.special ((isAudio_iff.mp ha).2.2.symm.trans h.mode)
  rw [planOf_general haudio]
  refine ⟨?_, rfl, srcStep_of_not_decrement _ h.src, dstStep_of_increment _ h.dst⟩
  rw [generalPlan, burstLength_toNat, if_neg (h.mode ▸ h.gxfifo.symm)]

theorem UpwardBurst.unitSrc_eq (h : UpwardBurst s cpu ch) (i : Nat) :
    unitSrc s cpu ch i = (s.chan cpu ch).currentSrc + BitVec.ofNat 32 (i * (ctlUnit (s.chan cpu ch).control).bytes) := by
  rw [unitSrc, h.plan.2.2.1, BitVec.ofNat_mul]

theorem UpwardBurst.unitDst_eq (h : UpwardBurst s cpu ch) (i : Nat) :
    unitDst s cpu ch i = (s.chan cpu ch).currentDst + BitVec.ofNat 32 (i * (ctlUnit (s.chan cpu ch).control).bytes) := by
  rw [unitDst, h.plan.2.2.2, BitVec.ofNat_mul]

theorem UpwardBurst.not_endsEarly (h : UpwardBurst s cpu ch) : ¬endsEarly s cpu ch :=
  fun he => h.gxfifo (he.1.symm.trans h.mode)

theorem UpwardBurst.not_repeats (h : UpwardBurst s cpu ch) : ¬repeats s cpu ch := fun hr => hr.2 h.mode

end UpwardBurst

/-- Settles O45: the write loads the shadow registers and adds the one task; its burst is an `UpwardBurst`, which ends in the
disable. -/
theorem exactlyN : Obligations.ExactlyN := by
  intro cpu ch a s hcfg htasks hoff
  refine ⟨_, exec_ofWrite_cnt cpu a ch s, ?_⟩
  intro c n unit src dst hon hmode hsrc hdst hlands
  obtain ⟨hgx, hsp, -⟩ := Config.wf_modes hcfg
  obtain ⟨-, -, hctl⟩ := writeCnt_config cpu ch a s
  obtain ⟨hload, -⟩ := writeCnt_shadow cpu ch a s
  rw [← hctl] at hload
  obtain ⟨hcurSrc, hcurDst, hcount⟩ := hload ⟨hoff, hon⟩
  have hone : (writeCnt cpu ch a s).tasks cpu ch = 1 := by
    rw [writeCnt_tasks, if_pos ⟨rfl, rfl⟩, htasks, ← hctl, cntSchedules_immediate hoff hon hmode hgx]
  have hup : UpwardBurst (writeCnt cpu ch a s) cpu ch := by
    refine ⟨hmode, hsrc, hdst, ?_, ?_⟩ <;> rw [writeCnt_cfg] <;> assumption
  obtain ⟨hcopies, hunit, -⟩ := hup.plan
  have hn : (planOf (writeCnt cpu ch a s) cpu ch).copies = n := by rw [hcopies, hcount]; rfl
  have hunitSrc : unitSrc (writeCnt cpu ch a s) cpu ch = fun i => src + BitVec.ofNat 32 (i * unit.bytes) := by
    funext i; rw [hup.unitSrc_eq, hcurSrc]; rfl
  have hunitDst : unitDst (writeCnt cpu ch a s) cpu ch = fun i => dst + BitVec.ofNat 32 (i * unit.bytes) := by
    funext i; rw [hup.unitDst_eq, hcurDst]; rfl
  have hruns : Runs (writeCnt cpu ch a s) cpu ch := by
    refine ⟨by rw [Pending, hone]; omega, fun i hi => ?_⟩
    rw [writeCnt_cfg, hunitSrc, hunitDst, hunit]
    exact hlands i (hn ▸ hi)
  obtain ⟨t, hexec, hbits, htsrc, htdst, -, httasks⟩ :=
    disableAfterBurst cpu ch _ hruns hup.not_endsEarly hup.not_repeats
  obtain ⟨value, hvalue⟩ := execDispatch_transfers hexec
  rw [hunitSrc, hn] at htsrc
  rw [hunitDst, hn] at htdst
  refine ⟨hone, t, hexec, ⟨value, ?_⟩, htsrc, htdst, hbits 31, by omega⟩
  rw [hvalue, hunitSrc, hunitDst, hn, hunit, writeCnt_transfers]
  rfl

end Sys2Proof.Machine
end

section
/-! DISPATCH does not look at `enable` (R194): from a state with bit 31 of the channel's control register the other way round
the burst runs in step, and the bookkeeping ends either with the same difference or, after the disable, with none. -/

namespace Sys2Proof.Machine

/-! Bit 31 of a control register flipped. -/

/-- The control register with `enable` the other way round. -/
def flipEnable (c : Word) : Word := c ^^^ 0x80000000#32

theorem flipEnable_getLsbD {i : Nat} (c : Word) (hi : i ≠ 31) : (flipEnable c).getLsbD i = c.getLsbD i := by
  have hbit : (0x80000000#32).getLsbD i = false := by
    rw [BitVec.getLsbD_ofNat, show 0x80000000 = 2 ^ 31 from rfl, Nat.testBit_two_pow_of_ne (Ne.symm hi), Bool.and_false]
  rw [flipEnable, BitVec.getLsbD_xor, hbit, Bool.xor_false]

theorem flipEnable_extractLsb' {start len : Nat} (c : Word) (h : start + len ≤ 31) :
    (flipEnable c).extractLsb' start len = c.extractLsb' start len := by
  apply BitVec.eq_of_getLsbD_eq
  intro i hi
  rw [BitVec.getLsbD_extractLsb', BitVec.getLsbD_extractLsb', flipEnable_getLsbD c (by omega)]

section Fields
variable (c : Word)

@[simp] theorem ctlCount_flipEnable : ctlCount (flipEnable c) = ctlCount c := flipEnable_extractLsb' c (by decide)

@[simp] theorem ctlDstMode_flipEnable : ctlDstMode (flipEnable c) = ctlDstMode c := flipEnable_extractLsb' c (by decide)

@[simp] theorem ctlSrcMode_flipEnable : ctlSrcMode (flipEnable c) = ctlSrcMode c := flipEnable_extractLsb' c (by decide)

@[simp] theorem ctlTrigMode_flipEnable : ctlTrigMode (flipEnable c) = ctlTrigMode c := flipEnable_extractLsb' c (by decide)

@[simp] theorem ctlRepeat_flipEnable : ctlRepeat (flipEnable c) = ctlRepeat c := flipEnable_getLsbD c (by decide)

@[simp] theorem ctlWidth_flipEnable : ctlWidth (flipEnable c) = ctlWidth c := flipEnable_getLsbD c (by decide)

@[simp] theorem ctlIrq_flipEnable : ctlIrq (flipEnable c) = ctlIrq c := flipEnable_getLsbD c (by decide)

@[simp] theorem clearEnable_flipEnable : clearEnable (flipEnable c) = clearEnable c := by
  apply BitVec.eq_of_getLsbD_eq
  intro i _
  rw [clearEnable_getLsbD, clearEnable_getLsbD]
  split
  · rfl
  · rename_i hi; exact flipEnable_getLsbD c hi

theorem srcStep_flipEnable (w : Width) : srcStep (flipEnable c) w = srcStep c w := by
  rw [srcStep, ctlSrcMode_flipEnable, srcStep]

theorem dstStep_flipEnable (w : Width) : dstStep (flipEnable c) w = dstStep c w := by
  rw [dstStep, ctlDstMode_flipEnable, dstStep]

theorem isAudio_flipEnable (cfg : Config) (compat : Bool) (ch : Chan) :
    isAudio cfg compat ch (flipEnable c) = isAudio cfg compat ch c := by
  rw [isAudio, ctlTrigMode_flipEnable, isAudio]

theorem audioPlan_flipEnable : audioPlan (flipEnable c) = audioPlan c := by
  rw [audioPlan, srcStep_flipEnable, audioPlan]

theorem generalPlan_flipEnable (cfg : Config) (n : BitVec 21) :
    generalPlan cfg (flipEnable c) n = generalPlan cfg c n := by
  have hunit : ctlUnit (flipEnable c) = ctlUnit c := by rw [ctlUnit, ctlWidth_flipEnable, ctlUnit]
  have hlen : burstLength cfg (flipEnable c) n = burstLength cfg c n := by
    rw [burstLength, ctlTrigMode_flipEnable, burstLength]
  rw [generalPlan, hunit, hlen, srcStep_flipEnable, dstStep_flipEnable, generalPlan]

end Fields

/-- A channel with `enable` the other way round. -/
def flipChannel (c : Channel) : Channel := { c with control := flipEnable c.control }

/-- The state with `enable` of one channel the other way round. -/
def State.flip (s : State) (cpu : Cpu) (ch : Chan) : State := s.setChan cpu ch (flipChannel (s.chan cpu ch))

/-! Other updates beside the replacement of a channel. -/

theorem setChan_setChan (s : State) (cpu : Cpu) (ch : Chan) (c c' : Channel) :
    (s.setChan cpu ch c).setChan cpu ch c' = s.setChan cpu ch c' := by
  cases cpu <;> cases ch <;> rfl

section Flip
variable (s : State) (cpu : Cpu) (ch : Chan)

@[simp] theorem flip_chan_self : (s.flip cpu ch).chan cpu ch = flipChannel (s.chan cpu ch) := by
  rw [State.flip, setChan_chan, if_pos ⟨rfl, rfl⟩]

@[simp] theorem flip_cfg : (s.flip cpu ch).cfg = s.cfg := rfl

@[simp] theorem flip_fifoHalfEmpty : (s.flip cpu ch).fifoHalfEmpty = s.fifoHalfEmpty := rfl

/-- A replacement of the channel by one that follows the old one step by step commutes with the flip. -/
theorem setChan_flip {f : Channel → Channel} (hf : ∀ c, f (flipChannel c) = flipChannel (f c)) :
    (s.flip cpu ch).setChan cpu ch (f ((s.flip cpu ch).chan cpu ch))
      = (s.setChan cpu ch (f (s.chan cpu ch))).flip cpu ch := by
  rw [flip_chan_self, hf, State.flip, State.flip, setChan_setChan, setChan_setChan, setChan_chan, if_pos ⟨rfl, rfl⟩]

theorem storeBytes_flip (d : Cpu) (a v : Word) (n : Nat) :
    (s.flip cpu ch).storeBytes d a v n = (s.storeBytes d a v n).flip cpu ch := by
  induction n with
  | zero => rfl
  | succ n ih => rw [State.storeBytes, ih]; rfl

theorem forgetBytes_flip (d : Cpu) (a : Word) (n : Nat) :
    (s.flip cpu ch).forgetBytes d a n = (s.forgetBytes d a n).flip cpu ch := by
  induction n with
  | zero => rfl
  | succ n ih => rw [State.forgetBytes, ih]; rfl

theorem readLanding_flip (d : Cpu) (w : Width) (l : Landing) : readLanding d w l (s.flip cpu ch) = readLanding d w l s := by
  cases l <;> rfl

theorem writeLanding_flip (d : Cpu) (addr : Word) (w : Width) (v : Word) (l : Landing) :
    writeLanding d addr w v l (s.flip cpu ch) = (writeLanding d addr w v l s).flip cpu ch := by
  cases l with
  | register r ea => rfl
  | memory ea => exact storeBytes_flip s cpu ch d ea v w.bytes
  | port => rfl
  | unknown => exact forgetBytes_flip s cpu ch d _ _

theorem advance_flip (p : Plan) : advance cpu ch p (s.flip cpu ch) = (advance cpu ch p s).flip cpu ch :=
  setChan_flip s cpu ch
    (f := fun c => { c with currentSrc := c.currentSrc + p.srcStep, currentDst := c.currentDst + p.dstStep }) fun _ => rfl

theorem afterUnit_flip (p : Plan) (l1 l2 : Landing) :
    afterUnit cpu ch p l1 l2 (s.flip cpu ch) = (afterUnit cpu ch p l1 l2 s).flip cpu ch := by
  have hemit : ∀ (u : State) (e : Event), (u.flip cpu ch).emit e = (u.emit e).flip cpu ch := fun _ _ => rfl
  have hdraw : ∀ (u : State) (n : Nat), (u.flip cpu ch).draw n = (u.draw n).flip cpu ch := fun _ _ => rfl
  simp only [afterUnit, flip_chan_self, flipChannel, readLanding_flip, hemit, hdraw, writeLanding_flip, advance_flip]

theorem planOf_flip : planOf (s.flip cpu ch) cpu ch = planOf s cpu ch := by
  rw [planOf, flip_chan_self]
  change (if isAudio s.cfg s.compat ch (flipEnable (s.chan cpu ch).control) then
      audioPlan (flipEnable (s.chan cpu ch).control)
    else generalPlan s.cfg (flipEnable (s.chan cpu ch).control) (s.chan cpu ch).remainingWords) = _
  rw [isAudio_flipEnable, audioPlan_flipEnable, generalPlan_flipEnable, planOf]

end Flip

/-- A burst does not look at `enable`. -/
theorem copyUnits_flip {cpu : Cpu} {ch : Chan} {p : Plan} {n : Nat} {s t : State} (h : copyUnits cpu ch p n s = .next t) :
    copyUnits cpu ch p n (s.flip cpu ch) = .next (t.flip cpu ch) := by
  induction n generalizing s with
  | zero => simp only [copyUnits, Host.Outcome.next.injEq] at h ⊢; rw [h]
  | succ n ih =>
    simp only [copyUnits, andThen_next] at h ⊢
    obtain ⟨u, hu, ht⟩ := h
    obtain ⟨l1, l2, h1, h2, rfl⟩ := copyUnit_next.mp hu
    refine ⟨_, copyUnit_next.mpr ⟨l1, l2, ?_, ?_, rfl⟩, by rw [afterUnit_flip]; exact ih ht⟩
    · rwa [flip_chan_self, flip_cfg]
    · rwa [flip_chan_self, flip_cfg]

/-! The bookkeeping. -/

section Bookkeeping
variable (cpu : Cpu) (ch : Chan) (ctl : Word) (moved : BitVec 21) (s : State)

theorem stopsAfterStep1_flip :
    StopsAfterStep1 cpu ch (flipEnable ctl) moved (s.flip cpu ch) ↔ StopsAfterStep1 cpu ch ctl moved s := by
  simp only [StopsAfterStep1, ctlTrigMode_flipEnable, flip_cfg, flip_chan_self, flipChannel, flip_fifoHalfEmpty]

theorem countDown_flip :
    countDown cpu ch (flipEnable ctl) moved (s.flip cpu ch) = (countDown cpu ch ctl moved s).flip cpu ch := by
  simp only [countDown, ctlTrigMode_flipEnable, flip_cfg]
  split
  · exact setChan_flip s cpu ch (f := fun c => { c with remainingWords := c.remainingWords - moved }) fun _ => rfl
  · rfl

theorem finishIrq_flip : finishIrq cpu ch (s.flip cpu ch) = (finishIrq cpu ch s).flip cpu ch := by
  simp only [finishIrq, flip_chan_self, flipChannel, ctlIrq_flipEnable]
  split <;> rfl

theorem repeatReload_flip : repeatReload cpu ch (flipEnable ctl) (s.flip cpu ch) = (repeatReload cpu ch ctl s).flip cpu ch := by
  have hreload := setChan_flip s cpu ch
    (f := fun c => { c with
      remainingWords := ctlCount ctl
      currentDst := if ctlDstMode ctl == 3#2 then c.destAddr else c.currentDst }) fun _ => rfl
  simp only [repeatReload, ctlCount_flipEnable, ctlDstMode_flipEnable, ctlTrigMode_flipEnable, flip_cfg, flip_fifoHalfEmpty,
    hreload]
  split <;> rfl

/-- The disable brings both states together. -/
theorem disable_flip : disable cpu ch (s.flip cpu ch) = disable cpu ch s := by
  simp only [disable, flip_chan_self, flipChannel, clearEnable_flipEnable]
  exact setChan_setChan s cpu ch _ _

/-- The bookkeeping of the flipped channel ends with the same difference, or with none. -/
theorem bookkeeping_flip :
    bookkeeping cpu ch (flipEnable ctl) moved (s.flip cpu ch) = (bookkeeping cpu ch ctl moved s).flip cpu ch
    ∨ bookkeeping cpu ch (flipEnable ctl) moved (s.flip cpu ch) = bookkeeping cpu ch ctl moved s := by
  by_cases hstop : StopsAfterStep1 cpu ch ctl moved s
  · rw [bookkeeping_of_stops hstop, bookkeeping_of_stops ((stopsAfterStep1_flip ..).mpr hstop), countDown_flip,
      flip_fifoHalfEmpty]
    left
    split <;> rfl
  · rw [bookkeeping_of_not_stops hstop, bookkeeping_of_not_stops (mt (stopsAfterStep1_flip ..).mp hstop), countDown_flip]
    by_cases hrep : ctlRepeat ctl = true ∧ ctlTrigMode ctl ≠ 0#3
    · left
      rw [repeatOrDisable_of_repeat hrep, repeatOrDisable_of_repeat (by simpa using hrep), repeatReload_flip, finishIrq_flip]
    · right
      rw [repeatOrDisable_of_not_repeat hrep, repeatOrDisable_of_not_repeat (by simpa using hrep), disable_flip]

end Bookkeeping

/-- A DISPATCH that completes completes for the flipped channel too, with the same difference or with none. -/
theorem execDispatch_flip {cpu : Cpu} {ch : Chan} {s t : State} (h : execDispatch cpu ch s = .next t) :
    ∃ t', execDispatch cpu ch (s.flip cpu ch) = .next t' ∧ (t' = t.flip cpu ch ∨ t' = t) := by
  obtain ⟨hpend, u, hu, rfl⟩ := execDispatch_next.mp h
  have hctl : ((s.flip cpu ch).chan cpu ch).control = flipEnable (s.chan cpu ch).control := by rw [flip_chan_self]; rfl
  refine ⟨_, execDispatch_next.mpr ⟨hpend, u.flip cpu ch, ?_, rfl⟩, ?_⟩
  · rw [planOf_flip]
    exact copyUnits_flip hu
  · rw [planOf_flip, hctl]
    exact bookkeeping_flip ..

/-- Settles O39: `execDispatch_flip`, and what the flip leaves. -/
theorem enableIsNotTested : Obligations.EnableIsNotTested := by
  intro cpu ch s t h
  obtain ⟨t', hexec, rfl | rfl⟩ := execDispatch_flip h
  · refine ⟨_, hexec, rfl, rfl, rfl, rfl, rfl, ⟨rfl, rfl, rfl, rfl⟩, fun d k hne => ?_, ?_⟩
    · rw [State.flip, setChan_chan, if_neg (not_and_or.mpr hne)]
    · rw [flip_chan_self]
      exact ⟨rfl, rfl, ⟨rfl, rfl, rfl⟩, fun i hi => flipEnable_getLsbD _ hi⟩
  · exact ⟨_, hexec, rfl, rfl, rfl, rfl, rfl, ⟨rfl, rfl, rfl, rfl⟩, fun _ _ _ => rfl, rfl, rfl, ⟨rfl, rfl, rfl⟩,
      fun _ _ => rfl⟩

end Sys2Proof.Machine
end
